-- ==== Sys2Proof/Word.lean ====
section
/-! DEFINITION. The widths the spec gives values: bytes, wire frames and command words. -/

namespace Sys2Proof

/-- Every stored value of the block is an unsigned byte (spec 00_scope.md section 5, rule R7 "data width"). -/
abbrev Byte := BitVec 8

/-- A wire frame, format FRAME16 (rule R50): opcode in bits 15..8, data in bits 7..0. -/
abbrev FrameWord := BitVec 16

/-- A command word, format CW32 (rule R55). -/
abbrev CmdWord := BitVec 32

end Sys2Proof
end

