-- ==== Sys2Proof/Config.lean ====
section
/-! DEFINITION. The parameters the spec leaves OPEN (rule R7): chip count, backend, glyph table, and the
byte an out-of-range GETROW answers; and the free glyph contents of the launch configuration. -/

namespace Sys2Proof

/-- `BACKEND` (rule R5): how frames become wire events. -/
inductive Backend where
  /-- "a bit-banged mode driving three discrete signal lines with explicit clock pulses" (rule R74) -/
  | bitbang
  /-- "a block-transfer mode that hands whole bytes to an underlying synchronous serial peripheral" (rule R75) -/
  | block
deriving DecidableEq, Repr

/-- The parameters of one block, fixed for its lifetime (rules R3, R5, R6, R7, R10).
They stand in `State` as plain data that no step changes, so that a statement over every state is a
statement over every configuration (log entry 1). -/
structure Config where
  /-- `COUNT`, the user-supplied chip count: any integer (rule R3). -/
  count : Int
  /-- `BACKEND` (rule R5). -/
  backend : Backend
  /-- `GLYPH`, the read-only table of 128 bytes (rules R6, R15). -/
  glyph : Vector Byte 128
  /-- `GETROW_OOR`, the byte an out-of-range GETROW returns (rules R7, R90). -/
  getrowOor : Byte
deriving DecidableEq, Repr

/-- The glyph bytes of the launch configuration: "externally specified" (rule R6), no value in the spec, so
no body here. DESIGN CHOICE (log entry 3), safe: nothing can be proved of a value. -/
opaque Config.glyphFree : Nat → Byte

/-- The configuration `State.reset` is built with. DESIGN CHOICE (log entry 2): the spec leaves COUNT and
BACKEND open; no statement rests on these two values. `GETROW_OOR` is at its default (rule R7). -/
def Config.launch : Config :=
  { count := 2
    backend := .bitbang
    glyph := ⟨((List.range 128).map Config.glyphFree).toArray, by simp⟩
    getrowOor := 0x00 }

end Sys2Proof
end

