-- ==== Sys2Proof/Syntax.lean ====
section
/-! DEFINITION. `Instr`: one constructor for each of the 30 rows of the opcode table, the 16 commands of
format CW32 (rule R57), executed by the block, and the 14 frames of format FRAME16 (rule R51), executed by
the chip that latches them. Index operands are integers, as the abstract commands have them (00_scope.md
section 5); bytes are bytes. -/

namespace Sys2Proof

inductive Instr where
  /-- TRANSACT t, op, data (rule R70) -/
  | transact (t : Int) (op data : Byte)
  /-- GETROW d, r (rule R90) -/
  | getrow (d r : Int)
  /-- SETROW d, r, v (rule R91) -/
  | setrow (d r : Int) (v : Byte)
  /-- SETPIXEL d, r, c, on|off (rule R100) -/
  | setpixel (d r c : Int) (on : Bool)
  /-- SETROWBITS d, r, v (rule R101) -/
  | setrowbits (d r : Int) (v : Byte)
  /-- SETCOLBITS d, c, v (rule R102) -/
  | setcolbits (d c : Int) (v : Byte)
  /-- SETDIGIT d, p, value, dp|nodp (rule R103) -/
  | setdigit (d p value : Int) (dp : Bool)
  /-- SETCHAR d, p, code, dp|nodp (rule R104) -/
  | setchar (d p code : Int) (dp : Bool)
  /-- CLEARDEV d (rule R105) -/
  | cleardev (d : Int)
  /-- CLEARALL (rule R106) -/
  | clearall
  /-- SETSHUTDOWN d, on|off (rule R120) -/
  | setshutdown (d : Int) (enabled : Bool)
  /-- SETSCANLIMIT d, limit (rule R121) -/
  | setscanlimit (d limit : Int)
  /-- SETINTENSITY d, i (rule R122) -/
  | setintensity (d i : Int)
  /-- INITDEV d (rule R123) -/
  | initdev (d : Int)
  /-- STARTDEV d, i (rule R124) -/
  | startdev (d i : Int)
  /-- DRAWPIXEL x, y, color (rule R107) -/
  | drawpixel (x y color : Int)
  /-- frame NOOP, opcode 0 (rules R51, R40) -/
  | noop (data : Byte)
  /-- frame DIGIT0, opcode 1 -/
  | digit0 (data : Byte)
  /-- frame DIGIT1, opcode 2 -/
  | digit1 (data : Byte)
  /-- frame DIGIT2, opcode 3 -/
  | digit2 (data : Byte)
  /-- frame DIGIT3, opcode 4 -/
  | digit3 (data : Byte)
  /-- frame DIGIT4, opcode 5 -/
  | digit4 (data : Byte)
  /-- frame DIGIT5, opcode 6 -/
  | digit5 (data : Byte)
  /-- frame DIGIT6, opcode 7 -/
  | digit6 (data : Byte)
  /-- frame DIGIT7, opcode 8 -/
  | digit7 (data : Byte)
  /-- frame DECODEMODE, opcode 9 -/
  | decodemode (data : Byte)
  /-- frame INTENSITY, opcode 10 -/
  | intensity (data : Byte)
  /-- frame SCANLIMIT, opcode 11 -/
  | scanlimit (data : Byte)
  /-- frame SHUTDOWN, opcode 12 -/
  | shutdown (data : Byte)
  /-- frame DISPLAYTEST, opcode 15 -/
  | displaytest (data : Byte)
deriving DecidableEq, Repr

end Sys2Proof
end

