-- ==== Sys2Proof/WellFormed.lean ====
section
/-! DEFINITION. `Instr.wellFormed`: the instructions the two encodings can express. A command's integer
operands must fit the unsigned 8-bit fields of CW32 (rule R56: "negative arguments, which the abstract
commands accept and ignore, cannot be expressed in CW32"). Frames carry bytes and are always well formed. -/

namespace Sys2Proof

/-- The integer fits an unsigned 8-bit field (rule R56: "range 0..255"). -/
def fitsField (x : Int) : Bool := decide (0 ≤ x) && decide (x ≤ 255)

def Instr.wellFormed : Instr → Bool
  | .transact t _ _ => fitsField t
  | .getrow d r => fitsField d && fitsField r
  | .setrow d r _ => fitsField d && fitsField r
  | .setpixel d r c _ => fitsField d && fitsField r && fitsField c
  | .setrowbits d r _ => fitsField d && fitsField r
  | .setcolbits d c _ => fitsField d && fitsField c
  | .setdigit d p value _ => fitsField d && fitsField p && fitsField value
  | .setchar d p code _ => fitsField d && fitsField p && fitsField code
  | .cleardev d => fitsField d
  | .clearall => true
  | .setshutdown d _ => fitsField d
  | .setscanlimit d limit => fitsField d && fitsField limit
  | .setintensity d i => fitsField d && fitsField i
  | .initdev d => fitsField d
  | .startdev d i => fitsField d && fitsField i
  | .drawpixel x y color => fitsField x && fitsField y && fitsField color
  | .noop _ => true
  | .digit0 _ => true
  | .digit1 _ => true
  | .digit2 _ => true
  | .digit3 _ => true
  | .digit4 _ => true
  | .digit5 _ => true
  | .digit6 _ => true
  | .digit7 _ => true
  | .decodemode _ => true
  | .intensity _ => true
  | .scanlimit _ => true
  | .shutdown _ => true
  | .displaytest _ => true

end Sys2Proof
end

