-- ==== Sys2Proof/Decode.lean ====
section
/-! DEFINITION. Decoding and encoding of the two formats: the command word CW32 (rules R55 to R59) and the
wire frame FRAME16 (rules R50 to R52). Decoding is total on every word and rejects by name. -/

namespace Sys2Proof

/-- What can arrive to be executed: a command word at the block's command port, or a frame at a chip. Each
format has one fixed length (rule R61), so a packet is one whole word. -/
inductive Packet where
  /-- a CW32 word at the command port (rule R55) -/
  | command (w : CmdWord)
  /-- a FRAME16 frame at a chip (rule R50) -/
  | frame (f : FrameWord)
deriving DecidableEq, Repr

/-- Why a word names no instruction. -/
inductive DecodeError where
  /-- `CMD` in 16..31 (rules R57, R58) -/
  | reservedCommand (cmd : Nat)
  /-- `RSV` is not 00 (rule R58) -/
  | reservedBits (rsv : Nat)
  /-- wire opcode 13, 14 or 16..255 (rule R52) -/
  | unassignedOpcode (op : Nat)
deriving DecidableEq, Repr

/-! ## Fields of a command word (rule R55) -/

/-- `CMD`, bits 31..27 -/
def cmdField (w : CmdWord) : Nat := (w.extractLsb' 27 5).toNat

/-- `F`, bit 26 -/
def flagField (w : CmdWord) : Bool := w.getLsbD 26

/-- `RSV`, bits 25..24 -/
def rsvField (w : CmdWord) : Nat := (w.extractLsb' 24 2).toNat

/-- `DEV`, bits 23..16 -/
def devField (w : CmdWord) : Byte := w.extractLsb' 16 8

/-- `A`, bits 15..8 -/
def aField (w : CmdWord) : Byte := w.extractLsb' 8 8

/-- `B`, bits 7..0 -/
def bField (w : CmdWord) : Byte := w.extractLsb' 0 8

/-- A field as the integer argument `zext(field)` (rule R56). -/
def fieldInt (b : Byte) : Int := Int.ofNat b.toNat

/-! ## Fields of a frame (rule R50) -/

/-- `OP`, bits 15..8 -/
def opField (f : FrameWord) : Byte := f.extractLsb' 8 8

/-- `DATA`, bits 7..0 -/
def dataField (f : FrameWord) : Byte := f.extractLsb' 0 8

/-! ## Decoding -/

/-- The command map of CW32 (rule R57). Fields a command does not use are ignored (rule R59). -/
def decodeCommand (w : CmdWord) : Except DecodeError Instr :=
  if rsvField w = 0 then
    match cmdField w with
    | 0 => .ok (.transact (fieldInt (devField w)) (aField w) (bField w))
    | 1 => .ok (.getrow (fieldInt (devField w)) (fieldInt (aField w)))
    | 2 => .ok (.setrow (fieldInt (devField w)) (fieldInt (aField w)) (bField w))
    | 3 => .ok (.setpixel (fieldInt (devField w)) (fieldInt (aField w)) (fieldInt (bField w)) (flagField w))
    | 4 => .ok (.setrowbits (fieldInt (devField w)) (fieldInt (aField w)) (bField w))
    | 5 => .ok (.setcolbits (fieldInt (devField w)) (fieldInt (aField w)) (bField w))
    | 6 => .ok (.setdigit (fieldInt (devField w)) (fieldInt (aField w)) (fieldInt (bField w)) (flagField w))
    | 7 => .ok (.setchar (fieldInt (devField w)) (fieldInt (aField w)) (fieldInt (bField w)) (flagField w))
    | 8 => .ok (.cleardev (fieldInt (devField w)))
    | 9 => .ok .clearall
    | 10 => .ok (.setshutdown (fieldInt (devField w)) (flagField w))
    | 11 => .ok (.setscanlimit (fieldInt (devField w)) (fieldInt (bField w)))
    | 12 => .ok (.setintensity (fieldInt (devField w)) (fieldInt (bField w)))
    | 13 => .ok (.initdev (fieldInt (devField w)))
    | 14 => .ok (.startdev (fieldInt (devField w)) (fieldInt (bField w)))
    | 15 => .ok (.drawpixel (fieldInt (aField w)) (fieldInt (bField w)) (fieldInt (devField w)))
    | c => .error (.reservedCommand c)
  else .error (.reservedBits (rsvField w))

/-- The opcode map of FRAME16 (rules R51, R52). -/
def decodeFrame (f : FrameWord) : Except DecodeError Instr :=
  match (opField f).toNat with
  | 0 => .ok (.noop (dataField f))
  | 1 => .ok (.digit0 (dataField f))
  | 2 => .ok (.digit1 (dataField f))
  | 3 => .ok (.digit2 (dataField f))
  | 4 => .ok (.digit3 (dataField f))
  | 5 => .ok (.digit4 (dataField f))
  | 6 => .ok (.digit5 (dataField f))
  | 7 => .ok (.digit6 (dataField f))
  | 8 => .ok (.digit7 (dataField f))
  | 9 => .ok (.decodemode (dataField f))
  | 10 => .ok (.intensity (dataField f))
  | 11 => .ok (.scanlimit (dataField f))
  | 12 => .ok (.shutdown (dataField f))
  | 15 => .ok (.displaytest (dataField f))
  | op => .error (.unassignedOpcode op)

/-- The decoder: total on every packet. -/
def decode : Packet → Except DecodeError Instr
  | .command w => decodeCommand w
  | .frame f => decodeFrame f

/-! ## Encoding -/

/-- A CW32 word from its fields, `RSV` written as 00 (rules R55, R62). -/
def commandWord (cmd : Nat) (f : Bool) (dev a b : Byte) : CmdWord :=
  BitVec.ofNat 5 cmd ++ BitVec.ofBool f ++ (0#2) ++ dev ++ a ++ b

/-- A FRAME16 word from its fields (rule R50). -/
def frameWord (op data : Byte) : FrameWord := op ++ data

/-- An integer operand as an 8-bit field. -/
def intField (x : Int) : Byte := BitVec.ofInt 8 x

/-- The packet of an instruction; "when assembling, unused fields and `RSV` are written as 0" (rule R62). -/
def encode : Instr → Packet
  | .transact t op data => .command (commandWord 0 false (intField t) op data)
  | .getrow d r => .command (commandWord 1 false (intField d) (intField r) 0)
  | .setrow d r v => .command (commandWord 2 false (intField d) (intField r) v)
  | .setpixel d r c on => .command (commandWord 3 on (intField d) (intField r) (intField c))
  | .setrowbits d r v => .command (commandWord 4 false (intField d) (intField r) v)
  | .setcolbits d c v => .command (commandWord 5 false (intField d) (intField c) v)
  | .setdigit d p value dp => .command (commandWord 6 dp (intField d) (intField p) (intField value))
  | .setchar d p code dp => .command (commandWord 7 dp (intField d) (intField p) (intField code))
  | .cleardev d => .command (commandWord 8 false (intField d) 0 0)
  | .clearall => .command (commandWord 9 false 0 0 0)
  | .setshutdown d enabled => .command (commandWord 10 enabled (intField d) 0 0)
  | .setscanlimit d limit => .command (commandWord 11 false (intField d) 0 (intField limit))
  | .setintensity d i => .command (commandWord 12 false (intField d) 0 (intField i))
  | .initdev d => .command (commandWord 13 false (intField d) 0 0)
  | .startdev d i => .command (commandWord 14 false (intField d) 0 (intField i))
  | .drawpixel x y color => .command (commandWord 15 false (intField color) (intField x) (intField y))
  | .noop data => .frame (frameWord 0 data)
  | .digit0 data => .frame (frameWord 1 data)
  | .digit1 data => .frame (frameWord 2 data)
  | .digit2 data => .frame (frameWord 3 data)
  | .digit3 data => .frame (frameWord 4 data)
  | .digit4 data => .frame (frameWord 5 data)
  | .digit5 data => .frame (frameWord 6 data)
  | .digit6 data => .frame (frameWord 7 data)
  | .digit7 data => .frame (frameWord 8 data)
  | .decodemode data => .frame (frameWord 9 data)
  | .intensity data => .frame (frameWord 10 data)
  | .scanlimit data => .frame (frameWord 11 data)
  | .shutdown data => .frame (frameWord 12 data)
  | .displaytest data => .frame (frameWord 15 data)

/-! ## Words as the opcode table numbers them -/

/-- The packet a table word of `nbits` bits stands for: 16 bits are a frame, 32 bits a command word. The
spec has no other length (rule R61). A frame's bit 15 is its opcode's bit 7 (rule R50), and a command word is
presented whole, so the table's numbering is the formats' own. -/
def packetOf (nbits w : Nat) : Option Packet :=
  if nbits = 16 then some (.frame (BitVec.ofNat 16 w))
  else if nbits = 32 then some (.command (BitVec.ofNat 32 w))
  else none

/-- The instruction the decoder reads from a table word. -/
def decodeTableWord (nbits w : Nat) : Option Instr :=
  match packetOf nbits w with
  | none => none
  | some p =>
    match decode p with
    | .ok i => some i
    | .error _ => none

end Sys2Proof
end

