-- ==== Sys2Proof/Machine/Params.lean ====
section
/-! DEFINITION. The fixed parameters of rule R7, the number of devices, the wire opcodes and the glyph read. -/

namespace Sys2Proof

/-- `N = max(1, COUNT)` (rule R3). -/
def Config.n (c : Config) : Nat := (max 1 c.count).toNat

/-- `GLYPH[i]`, `0 <= i <= 127` (rule R6); every caller has checked or remapped the index (rules R103, R104). -/
def Config.glyphAt (c : Config) (i : Nat) : Byte := c.glyph.get (Fin.ofNat 128 i)

namespace Machine

/-- `ROWS`: 8 rows per device (rules R7, R11). -/
def rows : Nat := 8

/-- `DIGIT_OFFSET` (rules R38, R91). -/
def digitOffset : Nat := 1

/-- `DP_BIT`, mask 0x80 (rule R103). -/
def dpMask : Byte := 0x80

/-- `SPACE_CODE` (rule R104). -/
def spaceCode : Nat := 32

/-- `INIT_SCANLIMIT` (rule R123). -/
def initScanLimit : Int := 7

/-- `SHUTDOWN_ON_DATA` (rules R7, R120). PRESUMED by the spec itself (D12, G1): log entry 4. -/
def shutdownOnData : Byte := 0x00

/-- `SHUTDOWN_OFF_DATA` (rules R7, R120). PRESUMED by the spec itself (D12, G1): log entry 4. -/
def shutdownOffData : Byte := 0x01

/-- `DECODE_OFF_DATA` (rules R7, R123). PRESUMED by the spec itself (D13, G2): log entry 4. -/
def decodeOffData : Byte := 0x00

/-- `TEST_OFF_DATA` (rules R7, R123). PRESUMED by the spec itself (D13, G2): log entry 4. -/
def testOffData : Byte := 0x00

/-! Wire opcodes (rules R38, R51). -/

def opNoop : Byte := 0
def opDecodeMode : Byte := 9
def opIntensity : Byte := 10
def opScanLimit : Byte := 11
def opShutdown : Byte := 12
def opDisplayTest : Byte := 15

/-- The opcode has a name: 0..12 or 15; 13, 14 and 16..255 are unassigned (rule R52). -/
def assignedOpcode (op : Byte) : Bool := decide (op.toNat ≤ 12) || decide (op.toNat = 15)

end Machine
end Sys2Proof
end

