-- ==== Sys2Proof/Machine/Wire.lean ====
section
/-! DEFINITION. The wire: frames, transactions as lists of frames, bytes and wire operations, the events
each operation puts on the wire in either backend, and the three views of the wire trace (rule R19). -/

namespace Sys2Proof.Machine

/-- A Frame: "a transient (opcode, data) byte pair" (rule R14). -/
structure Frame where
  op : Byte
  data : Byte
deriving DecidableEq, Repr

/-- The no-op frame (NOOP, 0) (rule R70). -/
def Frame.noop : Frame := ⟨opNoop, 0⟩

/-- One event of the wire trace (rules R19, R73, R74, R75). -/
inductive WireEvent where
  /-- the block took exclusive bus ownership (BLOCK backend) -/
  | acq
  /-- the block gave bus ownership back (BLOCK backend) -/
  | rel
  /-- chip select driven to this level: `CS(0)` selects, `CS(1)` releases -/
  | cs (level : Bool)
  /-- a whole byte handed to the serial peripheral (BLOCK backend), or a byte of the byte view -/
  | byte (b : Byte)
  /-- the data line driven to this level (BITBANG backend) -/
  | mosi (level : Bool)
  /-- the clock line driven to this level (BITBANG backend) -/
  | sclk (level : Bool)
deriving DecidableEq, Repr

/-- One thing the FRAMER does on the wire (rules R73, R74, R75). -/
inductive WireOp where
  /-- take bus ownership; waits for the environment's grant (rules R75, R78) -/
  | acquire
  /-- assert chip select -/
  | csLow
  /-- send one byte; in the BLOCK backend waits for the peripheral (rule R78) -/
  | byte (b : Byte)
  /-- release chip select; every chip latches its frame (rule R40) -/
  | csHigh
  /-- give bus ownership back -/
  | release
deriving DecidableEq, Repr

/-- The frames of a transaction in the order sent: positions `n-1` down to 0, the real frame at position
`t`, a no-op frame everywhere else (rules R70, R71). -/
def txFrames (t : Nat) (f : Frame) : Nat → List Frame
  | 0 => []
  | i + 1 => (if i = t then f else Frame.noop) :: txFrames t f i

/-- The bytes of a list of frames: opcode first, then data (rule R32). -/
def frameBytes : List Frame → List Byte
  | [] => []
  | f :: fs => f.op :: f.data :: frameBytes fs

/-- The bytes of one transaction on `n` devices. -/
def txBytes (n t : Nat) (f : Frame) : List Byte := frameBytes (txFrames t f n)

/-- The wire operations of one transaction (rules R73, R75): in the BLOCK backend inside one acquire and
release. -/
def txOps (backend : Backend) (bytes : List Byte) : List WireOp :=
  match backend with
  | .bitbang => .csLow :: (bytes.map .byte ++ [.csHigh])
  | .block => .acquire :: .csLow :: (bytes.map .byte ++ [.csHigh, .release])

/-- The events of one bit in the BITBANG backend: data, clock up, clock down (rule R74). -/
def bitEvents (level : Bool) : List WireEvent := [.mosi level, .sclk true, .sclk false]

/-- The events of one byte in the BITBANG backend, bit 7 first (rule R74). -/
def byteEvents (b : Byte) : List WireEvent :=
  [7, 6, 5, 4, 3, 2, 1, 0].flatMap fun i => bitEvents (b.getLsbD i)

/-- What a wire operation appends to the wire trace. -/
def opEvents (backend : Backend) : WireOp → List WireEvent
  | .acquire => [.acq]
  | .csLow => [.cs false]
  | .byte b =>
    match backend with
    | .bitbang => byteEvents b
    | .block => [.byte b]
  | .csHigh => [.cs true]
  | .release => [.rel]

/-- The events of one whole transaction. -/
def txEvents (backend : Backend) (bytes : List Byte) : List WireEvent :=
  (txOps backend bytes).flatMap (opEvents backend)

/-! ## The views of the wire trace (rule R19) -/

/-- The byte whose bits, most significant first, are in the list. -/
def byteOfBits (bits : List Bool) : Byte :=
  bits.foldl (fun v bit => (v <<< 1) ||| (if bit then 1 else 0)) 0

/-- The byte view from a point where the data line stands at `level` and `bits` have been clocked in: the
chips sample the data line on the rising clock edge (rule R74), and eight samples are a byte. -/
def byteViewFrom : Bool → List Bool → List WireEvent → List WireEvent
  | _, _, [] => []
  | _, bits, .mosi l :: es => byteViewFrom l bits es
  | level, bits, .sclk true :: es =>
    if bits.length = 7 then .byte (byteOfBits (bits ++ [level])) :: byteViewFrom level [] es
    else byteViewFrom level (bits ++ [level]) es
  | level, bits, .sclk false :: es => byteViewFrom level bits es
  | level, _, .cs l :: es => .cs l :: byteViewFrom level [] es
  | level, bits, .byte b :: es => .byte b :: byteViewFrom level bits es
  | level, bits, .acq :: es => .acq :: byteViewFrom level bits es
  | level, bits, .rel :: es => .rel :: byteViewFrom level bits es

/-- View (b) of rule R19, the byte view. -/
def byteView (w : List WireEvent) : List WireEvent := byteViewFrom false [] w

/-- The byte view "with `ACQ` and `REL` events removed" (rule R76). -/
def sharedView (w : List WireEvent) : List WireEvent :=
  (byteView w).filter fun e => decide (e ≠ .acq) && decide (e ≠ .rel)

/-- Pair the bytes of a window into frames, opcode then data (rule R32). -/
def framesOf : List Byte → List Frame
  | op :: data :: rest => ⟨op, data⟩ :: framesOf rest
  | _ => []

/-- The transactions of a byte view; `window` holds the bytes of the chip-select window being read. -/
def txLogFrom : Option (List Byte) → List WireEvent → List (List Frame)
  | _, [] => []
  | _, .cs false :: es => txLogFrom (some []) es
  | some bs, .cs true :: es => framesOf bs :: txLogFrom none es
  | some bs, .byte b :: es => txLogFrom (some (bs ++ [b])) es
  | window, _ :: es => txLogFrom window es

/-- View (a) of rule R19, the transaction log `TXLOG`. -/
def txLog (w : List WireEvent) : List (List Frame) := txLogFrom none (byteView w)

end Sys2Proof.Machine
end

