-- ==== Sys2Proof/Machine/State.lean ====
section
/-! DEFINITION. `State`: every piece of state the spec gives the machine (spec 10_state.md), the chips of the
chain (rule R25), and the inputs the outside world has presented; the reasons a step can stop; reset. -/

namespace Sys2Proof.Machine

/-- Space S, the SHADOW FILE, by linear address `8*d + r` (rules R11, R30, R31): a list of (address, byte),
addresses strictly rising, no listed byte 0x00. An unlisted address reads 0x00, what the reset sequence
leaves there (rule R27). -/
abbrev Memory := List Host.Cell

/-- One chip's registers by wire opcode (rules R25, R38, R40): addresses strictly rising; an unlisted opcode
is "unknown (no value)". -/
abbrev RegFile := List Host.Cell

/-- One driver chip as the block's environment sees it (rules R25, R40). -/
structure Chip where
  /-- the registers whose content is known: the last byte latched for each opcode since reset -/
  regs : RegFile
  /-- the chip has latched a frame with an unassigned opcode since reset, after which "nothing may be assumed
  about any register" (U2); log entry 9 -/
  disturbed : Bool
deriving DecidableEq, Repr

/-- A chip of whose registers nothing is known (rule R27, "unknown"). -/
def Chip.unknown : Chip := ⟨[], false⟩

/-- One subroutine call that a command is made of (00_scope.md section 5: `Transact`, `SetRow`, `SetPixel`). -/
inductive Call where
  /-- `Transact(t, op, data)` (rule R70) -/
  | transact (t : Int) (op data : Byte)
  /-- `SetRow(d, r, v)` (rule R91) -/
  | setRow (d r : Int) (v : Byte)
  /-- `SetPixel(d, r, c, on)` (rule R100) -/
  | setPixel (d r c : Int) (on : Bool)
deriving DecidableEq, Repr

/-- The sequencer while a command runs (rule R18): the command with its arguments, the calls its loops have
still to make, and what is left of the transaction in progress. Log entry 8. -/
structure Sequencer where
  /-- the command being executed; `none` is the reset sequence (rule R160) -/
  cmd : Option Instr
  /-- the calls still to make, in order: the loop indices of rule R18 -/
  calls : List Call
  /-- the wire operations left of the transaction in progress: the frame and byte indices of rule R18 -/
  wire : List WireOp
deriving DecidableEq, Repr

/-- What the environment of the BLOCK backend will still give (rule R78): `none` without limit, `some k`
`k` more times and then it stalls. Log entry 7. -/
abbrev Credit := Option Nat

/-- The bus and the serial peripheral, seen from the block (rules R75, R78). -/
structure Bus where
  /-- grants of exclusive ownership -/
  grants : Credit
  /-- bytes the peripheral will take -/
  slots : Credit
deriving DecidableEq, Repr

/-- A change of mind of the bus environment (rule R78: "the grant as a step of the environment"). -/
inductive BusEvent where
  | setGrants (c : Credit)
  | setSlots (c : Credit)
deriving DecidableEq, Repr

/-- The machine: the block, its configuration, the chips of the chain, and the inputs presented to both. -/
structure State where
  /-- the parameters (rules R3, R5, R6, R7, R10); no step changes them -/
  cfg : Config
  /-- `SHADOW` (rule R11) -/
  shadow : Memory
  /-- `RDATA`, the response register (rule R17) -/
  rdata : Byte
  /-- `CS_N`, chip select, low asserts (rule R16) -/
  csN : Bool
  /-- `SCLK`, serial clock (rule R16) -/
  sclk : Bool
  /-- `MOSI`, serial data out (rule R16) -/
  mosi : Bool
  /-- `OWN`, exclusive bus ownership (rule R20) -/
  own : Bool
  /-- the sequencer; present exactly while `BUSY = 1` (rules R17, R18) -/
  seq : Option Sequencer
  /-- `WIRE`, everything put on the outputs since reset, oldest first (rule R19); `TXLOG` and the byte view
  are the functions `txLog` and `byteView` of it -/
  wire : List WireEvent
  /-- the chips physically in the chain, index 0 nearest the block (rules R4, R25) -/
  chips : List Chip
  /-- the chips' shift registers as one path, the byte shifted in last first: two bytes per chip (rules R33,
  R171) -/
  chain : List Byte
  /-- the BLOCK backend's environment (rule R78) -/
  bus : Bus
  /-- the chip that executes the next frame instruction; the model's own field, log entry 6 -/
  rxChip : Nat
  /-- command words waiting at the command port, oldest first (rules R17, R22) -/
  port : List CmdWord
  /-- frames that chips latch without the block having sent them, oldest first: (chip, frame) (rules R173,
  R176); log entry 6 -/
  latches : List (Nat × FrameWord)
  /-- changes of the bus environment, oldest first (rule R78) -/
  busEvents : List BusEvent
  /-- the reset input is asserted and about to be released (rules R160, R161) -/
  resetIn : Bool
deriving DecidableEq, Repr

/-- Faults: there are none. "fault: none exists" (rule R155), "The block raises no exception" (rule R140). -/
inductive Fault
deriving DecidableEq, Repr

/-- Refusals: what the spec gives no meaning. -/
inductive Refusal where
  /-- raised by `exec` for an instruction without a meaning yet: no arm of this model. Safe. -/
  | notModelled (mnemonic : String)
  /-- raised by a command's meaning when the block is busy: "refused: overlapping commands" (rules R152, R155,
  U4). Safe: no claim is made of what the spec gives no meaning. -/
  | overlappingCommand
  /-- raised by the step when reset is asserted while the block is busy (rules R155, R161, U5). Safe. -/
  | resetWhileBusy
deriving DecidableEq, Repr

/-! ## Reset (rules R27, R160) -/

/-- The real frames of the initialisation sequence of one device, in order (rule R123). -/
def initFrames : List Frame :=
  [⟨9, 0x00⟩, ⟨11, 0x07⟩, ⟨15, 0x00⟩, ⟨1, 0⟩, ⟨2, 0⟩, ⟨3, 0⟩, ⟨4, 0⟩, ⟨5, 0⟩, ⟨6, 0⟩, ⟨7, 0⟩, ⟨8, 0⟩, ⟨12, 0x00⟩]

/-- The wire trace of the reset sequence: devices in ascending order (rule R160). -/
def resetWire (c : Config) : List WireEvent :=
  (List.range c.n).flatMap fun d => initFrames.flatMap fun f => txEvents c.backend (txBytes c.n d f)

/-- A chip after the reset sequence: SAFE, intensity never written (rules R27, R126). -/
def Chip.afterReset : Chip :=
  ⟨[(1, 0), (2, 0), (3, 0), (4, 0), (5, 0), (6, 0), (7, 0), (8, 0), (9, 0x00), (11, 0x07), (12, 0x00), (15, 0x00)], false⟩

/-- The state after the reset sequence, column "after the reset sequence" of rule R27, for any parameters, with
as many chips in the chain as the block was told (rule R162, requirement 1), a bus that never stalls and no
input presented. -/
def State.afterReset (c : Config) : State :=
  { cfg := c
    shadow := []
    rdata := 0x00
    csN := true
    sclk := false
    mosi := false
    own := false
    seq := none
    wire := resetWire c
    chips := List.replicate c.n Chip.afterReset
    chain := (txBytes c.n (c.n - 1) ⟨12, 0x00⟩).reverse
    bus := ⟨none, none⟩
    rxChip := 0
    port := []
    latches := []
    busEvents := []
    resetIn := false }

/-- The machine after reset: "A model may take the post-reset state of rule R27 as its launch state" (rule R161).
Log entries 2 and 5. -/
def State.reset : State := State.afterReset Config.launch

end Sys2Proof.Machine
end

