-- ==== Sys2Proof/Machine/Flags.lean ====
section
/-! DEFINITION. The one status bit of the block. "The block has no flags, no condition codes, no status
register, no error latch" (rule R23); what it has is `BUSY` (rule R17). -/

namespace Sys2Proof.Machine

/-- `BUSY`: 1 from the acceptance of a command, or the start of the reset sequence, until its last wire event
(rule R17). Stored once, as the presence of the sequencer (rule R18). -/
def State.busy (s : State) : Bool := s.seq.isSome

/-- `BUSY` as the bit on the port. -/
def State.busyBit (s : State) : BitVec 1 := BitVec.ofBool s.busy

end Sys2Proof.Machine
end

