-- ==== Sys2Proof/Machine/Operands.lean ====
section
/-! DEFINITION. Operand checks and operand assembly: the bounds of rule R141, and the three computations of
rule R54 ("and there are no others"). -/

namespace Sys2Proof.Machine

/-! ## Bounds (rules R35, R108, R141) -/

/-- `0 <= d < N` -/
def deviceOk (c : Config) (d : Int) : Bool := decide (0 ≤ d) && decide (d < Int.ofNat c.n)

/-- `0 <= r <= 7`: a row, a position, a column, an x, a y or a scan limit -/
def rowOk (r : Int) : Bool := decide (0 ≤ r) && decide (r ≤ 7)

/-- `0 <= value <= 15`: a digit value or an intensity -/
def nibbleOk (v : Int) : Bool := decide (0 ≤ v) && decide (v ≤ 15)

/-- `0 <= code <= 127` -/
def codeOk (code : Int) : Bool := decide (0 ≤ code) && decide (code ≤ 127)

/-! ## Assembly (rule R54) -/

/-- (a) row to wire opcode: `DIGIT_OFFSET + row`. -/
def rowOpcode (r : Nat) : Byte := BitVec.ofNat 8 (digitOffset + r)

/-- (b) column to mask: `1 << (7 - col)`. -/
def columnMask (c : Nat) : Byte := 1#8 <<< (7 - c)

/-- (c) decimal point: set bit 7 when the flag is set, change nothing when it is clear. -/
def withPoint (dp : Bool) (pattern : Byte) : Byte := if dp then pattern ||| dpMask else pattern

/-- The new row byte of a pixel edit (rule R100). -/
def pixelByte (cur : Byte) (c : Nat) (on : Bool) : Byte :=
  if on then cur ||| columnMask c else cur &&& ~~~(columnMask c)

/-- The bit a column value gives row `r`: `v[7 - r]` (rules R34, R102). -/
def columnBit (v : Byte) (r : Nat) : Bool := v.getLsbD (7 - r)

/-- The table index of a character code: outside 0..127 the space code (rule R104). -/
def charIndex (code : Int) : Nat := if codeOk code then code.toNat else spaceCode

/-- The shutdown data byte (rule R120). -/
def shutdownData (enabled : Bool) : Byte := if enabled then shutdownOnData else shutdownOffData

/-- The linear shadow address `8*d + r` (rule R31). -/
def shadowAddr (d r : Nat) : Nat := rows * d + r

end Sys2Proof.Machine
end

