-- ==== Sys2Proof/Machine/Ops.lean ====
section
/-! DEFINITION. The shared operations: sparse storage, the SHADOW FILE's two ports, the chips, the wire
operations of the FRAMER in both backends, the subroutine calls of 00_scope.md section 5, and running a
command's calls. Taking an exception and returning from one have no operation here because "the block has no
trap mechanism of any kind" (rules R140, R145, R146); a bad argument is `skip`, a step with no effect. -/

namespace Sys2Proof.Machine

/-! ## Sparse storage in canonical form -/

/-- Addresses strictly rise along the list. -/
def cellsRise : List Host.Cell → Bool
  | [] => true
  | [_] => true
  | x :: y :: rest => decide (x.1 < y.1) && cellsRise (y :: rest)

/-- What the list holds for an address. -/
def findCell : List Host.Cell → Nat → Option Byte
  | [], _ => none
  | (a, v) :: rest, k => if k = a then some v else findCell rest k

/-- Put a byte at an address, keeping the addresses rising. -/
def putCell : List Host.Cell → Nat → Byte → List Host.Cell
  | [], k, v => [(k, v)]
  | (a, w) :: rest, k, v =>
    if k < a then (k, v) :: (a, w) :: rest
    else if k = a then (k, v) :: rest
    else (a, w) :: putCell rest k v

/-- Take an address out of the list. -/
def dropCell (m : List Host.Cell) (k : Nat) : List Host.Cell := m.filter fun x => decide (x.1 ≠ k)

/-! ## Space S: the SHADOW FILE -/

/-- What an unlisted shadow address reads as: 0x00, "In range before any write since reset: 0x00" (rule R90). -/
def Memory.unlisted : Byte := 0x00

/-- `MemRead(addr, 1)` (rule R31). -/
def Memory.read (m : Memory) (addr : Nat) : Byte := (findCell m addr).getD Memory.unlisted

/-- `MemWrite(addr, 1, v)` (rule R31); writing what an unlisted address reads as removes the entry. -/
def Memory.write (m : Memory) (addr : Nat) (v : Byte) : Memory :=
  if v = Memory.unlisted then dropCell m addr else putCell m addr v

/-- The canonical form: addresses rise and no listed byte equals the unlisted one. -/
def Memory.wf (m : Memory) : Bool := cellsRise m && m.all fun x => decide (x.2 ≠ Memory.unlisted)

/-- `SHADOW[d][r]` (rule R11). -/
def State.shadowAt (s : State) (d r : Nat) : Byte := Memory.read s.shadow (shadowAddr d r)

/-- `SHADOW[d][r] <- v` with no wire traffic (00_scope.md section 5, `MemWrite`). -/
def State.putShadow (s : State) (d r : Nat) (v : Byte) : State :=
  { s with shadow := Memory.write s.shadow (shadowAddr d r) v }

/-- `RDATA <- v` (rules R17, R90). -/
def State.putRdata (s : State) (v : Byte) : State := { s with rdata := v }

/-! ## Space W: the chips (rules R25, R38, R40) -/

/-- `CHIP[k].REG[op]` where its content is known; `none` is "unknown (no value)". -/
def Chip.read (c : Chip) (op : Nat) : Option Byte := findCell c.regs op

/-- The chip takes a frame (rule R40): a NOOP changes nothing, an opcode with a name writes that register, and
after an unassigned one (rule R52, U2) nothing is known of any register. -/
def Chip.latch (c : Chip) (op data : Byte) : Chip :=
  if op = opNoop then c
  else if assignedOpcode op then { c with regs := putCell c.regs op.toNat data }
  else ⟨[], true⟩

/-- `CHIP[k].REG[op]` in a state. -/
def State.chipReg (s : State) (k op : Nat) : Option Byte := (s.chips[k]?).bind fun c => c.read op

/-- Every chip takes the frame that stands in its part of the shift path: the byte shifted in last is its data,
the one before it its opcode (rules R32, R33, R40). -/
def latchChips : List Chip → List Byte → List Chip
  | c :: cs, data :: op :: rest => c.latch op data :: latchChips cs rest
  | cs, _ => cs

/-- A byte is shifted into the path at the near end; what leaves the far end is lost (rules R33, R171). -/
def shiftIn (nChips : Nat) (chain : List Byte) (b : Byte) : List Byte := (b :: chain).take (2 * nChips)

/-- One chip alone takes a frame; no other chip changes. -/
def State.latchAt (s : State) (k : Nat) (op data : Byte) : State :=
  { s with chips := s.chips.modify k fun c => c.latch op data }

/-! ## The wire (rules R73, R74, R75, R78) -/

/-- Use one unit of what the environment gives; `none` when it gives nothing now. -/
def Credit.take : Credit → Option Credit
  | none => some none
  | some 0 => none
  | some (k + 1) => some (some k)

/-- One wire operation; `none` while the environment does not let it happen (rule R78). -/
def State.wireOp (s : State) : WireOp → Option State
  | .acquire =>
    match s.bus.grants.take with
    | none => none
    | some g =>
      some { s with
        bus := { s.bus with grants := g }, own := true, wire := s.wire ++ opEvents s.cfg.backend .acquire }
  | .csLow => some { s with csN := false, wire := s.wire ++ opEvents s.cfg.backend .csLow }
  | .byte b =>
    match s.cfg.backend with
    | .bitbang =>
      some { s with
        mosi := b.getLsbD 0, sclk := false, chain := shiftIn s.chips.length s.chain b,
        wire := s.wire ++ opEvents s.cfg.backend (.byte b) }
    | .block =>
      match s.bus.slots.take with
      | none => none
      | some k =>
        some { s with
          bus := { s.bus with slots := k }, chain := shiftIn s.chips.length s.chain b,
          wire := s.wire ++ opEvents s.cfg.backend (.byte b) }
  | .csHigh =>
    some { s with
      csN := true, chips := latchChips s.chips s.chain, wire := s.wire ++ opEvents s.cfg.backend .csHigh }
  | .release => some { s with own := false, wire := s.wire ++ opEvents s.cfg.backend .release }

/-- Run wire operations in order until one has to wait; what is left of them is the second part. -/
def State.runWire (s : State) : List WireOp → State × List WireOp
  | [] => (s, [])
  | op :: ops =>
    match s.wireOp op with
    | some s' => s'.runWire ops
    | none => (s, op :: ops)

/-! ## The subroutine calls (rules R70, R91, R100) -/

/-- The wire operations of `Transact(t, op, data)`; none when `t` is out of range (rules R70, R72). -/
def transactOps (c : Config) (t : Int) (op data : Byte) : List WireOp :=
  if deviceOk c t then txOps c.backend (txBytes c.n t.toNat ⟨op, data⟩) else []

/-- `SetRow` up to its transaction: the shadow byte is written first (rules R42, R91). -/
def State.beginSetRow (s : State) (d r : Int) (v : Byte) : State × List WireOp :=
  if deviceOk s.cfg d && rowOk r then
    (s.putShadow d.toNat r.toNat v, transactOps s.cfg d (rowOpcode r.toNat) v)
  else (s, [])

/-- A call up to its transaction. `SetPixel` checks all three bounds before it reads (rule R100). -/
def State.beginCall (s : State) : Call → State × List WireOp
  | .transact t op data => (s, transactOps s.cfg t op data)
  | .setRow d r v => s.beginSetRow d r v
  | .setPixel d r c on =>
    if deviceOk s.cfg d && rowOk r && rowOk c then
      s.beginSetRow d r (pixelByte (s.shadowAt d.toNat r.toNat) c.toNat on)
    else (s, [])

/-- Run calls in order, each complete before the next starts (rule R8), until the bus makes one wait; the second
and third parts are the calls and the wire operations left. -/
def State.runCalls (s : State) : List Call → State × List Call × List WireOp
  | [] => (s, [], [])
  | c :: cs =>
    match (s.beginCall c).1.runWire (s.beginCall c).2 with
    | (s', []) => s'.runCalls cs
    | (s', op :: ops) => (s', cs, op :: ops)

/-! ## Commands (rules R8, R17, R18) -/

/-- The end of a run: with nothing left `BUSY` falls, otherwise the sequencer holds what is left. -/
def State.settle (cmd : Option Instr) : State × List Call × List WireOp → State
  | (s, [], []) => { s with seq := none }
  | (s, calls, ops) => { s with seq := some ⟨cmd, calls, ops⟩ }

/-- A command that is these calls, from acceptance to its end or to where the bus makes it wait. The port takes no
command while the block is busy (rules R17, R152, R155). -/
def State.perform (s : State) (cmd : Instr) (calls : List Call) : Host.Outcome State Fault Refusal :=
  if s.busy then .refused .overlappingCommand else .next (State.settle (some cmd) (s.runCalls calls))

/-- What is left of a command goes on: first the transaction in progress, then the other calls. -/
def State.runRest (s : State) (calls : List Call) (ops : List WireOp) : State × List Call × List WireOp :=
  match s.runWire ops with
  | (s', []) => s'.runCalls calls
  | (s', op :: rest) => (s', calls, op :: rest)

/-- The sequencer goes on where it waited (rule R78: "not final"). -/
def State.resume (s : State) (q : Sequencer) : State := State.settle q.cmd (s.runRest q.calls q.wire)

/-- The bus environment changes what it gives (rule R78). -/
def State.applyBusEvent (s : State) : BusEvent → State
  | .setGrants c => { s with bus := { s.bus with grants := c } }
  | .setSlots c => { s with bus := { s.bus with slots := c } }

end Sys2Proof.Machine
end

