-- ==== Sys2Proof/Machine/Addressed.lean ====
section
/-! DEFINITION. The editing commands (rules R100 to R107): each as the calls its rule makes, in order. -/

namespace Sys2Proof.Machine

/-- `SetColumnBits`: one `SetPixel` per row, rows 0 to 7 (rule R102). -/
def columnCalls (d c : Int) (v : Byte) : List Call :=
  (List.range rows).map fun r => .setPixel d (Int.ofNat r) c (columnBit v r)

/-- `SetDigit`: one `SetRow` of the glyph, nothing when `value` is out of range (rule R103); the device and
position bounds are `SetRow`'s own. -/
def digitCalls (c : Config) (d p value : Int) (dp : Bool) : List Call :=
  if nibbleOk value then [.setRow d p (withPoint dp (c.glyphAt value.toNat))] else []

/-- `SetChar`: one `SetRow` of the glyph of the code or of the space (rule R104). -/
def charCalls (c : Config) (d p code : Int) (dp : Bool) : List Call :=
  [.setRow d p (withPoint dp (c.glyphAt (charIndex code)))]

/-- `ClearDevice`: rows 0 to 7 (rule R105). -/
def clearDeviceCalls (d : Int) : List Call := (List.range rows).map fun r => .setRow d (Int.ofNat r) 0x00

/-- `ClearAll`: devices in ascending order (rule R106). -/
def clearAllCalls (c : Config) : List Call := (List.range c.n).flatMap fun d => clearDeviceCalls (Int.ofNat d)

/-- `DrawPixel`: column `x`, row `y` of device 0 (rule R107); its bounds are `SetPixel`'s. -/
def drawPixelCalls (x y color : Int) : List Call :=
  if rowOk x && rowOk y then [.setPixel 0 y x (decide (color ≠ 0))] else []

/-- SETPIXEL (rule R100). -/
def execSetpixel (d r c : Int) (on : Bool) (s : State) : Host.Outcome State Fault Refusal :=
  s.perform (.setpixel d r c on) [.setPixel d r c on]

/-- SETROWBITS: "differs from SETROW in nothing but its command code" (rule R101). -/
def execSetrowbits (d r : Int) (v : Byte) (s : State) : Host.Outcome State Fault Refusal :=
  s.perform (.setrowbits d r v) [.setRow d r v]

/-- SETCOLBITS (rule R102). -/
def execSetcolbits (d c : Int) (v : Byte) (s : State) : Host.Outcome State Fault Refusal :=
  s.perform (.setcolbits d c v) (columnCalls d c v)

/-- SETDIGIT (rule R103). -/
def execSetdigit (d p value : Int) (dp : Bool) (s : State) : Host.Outcome State Fault Refusal :=
  s.perform (.setdigit d p value dp) (digitCalls s.cfg d p value dp)

/-- SETCHAR (rule R104). -/
def execSetchar (d p code : Int) (dp : Bool) (s : State) : Host.Outcome State Fault Refusal :=
  s.perform (.setchar d p code dp) (charCalls s.cfg d p code dp)

/-- CLEARDEV (rule R105). -/
def execCleardev (d : Int) (s : State) : Host.Outcome State Fault Refusal :=
  s.perform (.cleardev d) (clearDeviceCalls d)

/-- CLEARALL (rule R106). -/
def execClearall (s : State) : Host.Outcome State Fault Refusal := s.perform .clearall (clearAllCalls s.cfg)

/-- DRAWPIXEL (rule R107). -/
def execDrawpixel (x y color : Int) (s : State) : Host.Outcome State Fault Refusal :=
  s.perform (.drawpixel x y color) (drawPixelCalls x y color)

end Sys2Proof.Machine
end

