-- ==== Sys2Proof/Machine/Framer.lean ====
section
/-! DEFINITION. The FRAMER's command: TRANSACT (rules R70, R72, R77). -/

namespace Sys2Proof.Machine

/-- TRANSACT (rule R70): no check but the target's (rules R72, R77). -/
def execTransact (t : Int) (op data : Byte) (s : State) : Host.Outcome State Fault Refusal :=
  s.perform (.transact t op data) [.transact t op data]

end Sys2Proof.Machine
end

