-- ==== Sys2Proof/Machine/Frames.lean ====
section
/-! DEFINITION. The 14 frames of FRAME16 as a chip executes them (rules R40, R51): the chip `rxChip` takes the
frame. The same operation `Chip.latch` is what every chip does with its own frame when a transaction of the block
releases chip select. -/

namespace Sys2Proof.Machine

/-- frame NOOP: nothing in the chip changes (rule R40). -/
def execNoop (data : Byte) (s : State) : Host.Outcome State Fault Refusal :=
  .next (s.latchAt s.rxChip 0 data)

/-- frame DIGIT0: `REG[1] <- data` (rule R40). -/
def execDigit0 (data : Byte) (s : State) : Host.Outcome State Fault Refusal :=
  .next (s.latchAt s.rxChip 1 data)

/-- frame DIGIT1: `REG[2] <- data` (rule R40). -/
def execDigit1 (data : Byte) (s : State) : Host.Outcome State Fault Refusal :=
  .next (s.latchAt s.rxChip 2 data)

/-- frame DIGIT2: `REG[3] <- data` (rule R40). -/
def execDigit2 (data : Byte) (s : State) : Host.Outcome State Fault Refusal :=
  .next (s.latchAt s.rxChip 3 data)

/-- frame DIGIT3: `REG[4] <- data` (rule R40). -/
def execDigit3 (data : Byte) (s : State) : Host.Outcome State Fault Refusal :=
  .next (s.latchAt s.rxChip 4 data)

/-- frame DIGIT4: `REG[5] <- data` (rule R40). -/
def execDigit4 (data : Byte) (s : State) : Host.Outcome State Fault Refusal :=
  .next (s.latchAt s.rxChip 5 data)

/-- frame DIGIT5: `REG[6] <- data` (rule R40). -/
def execDigit5 (data : Byte) (s : State) : Host.Outcome State Fault Refusal :=
  .next (s.latchAt s.rxChip 6 data)

/-- frame DIGIT6: `REG[7] <- data` (rule R40). -/
def execDigit6 (data : Byte) (s : State) : Host.Outcome State Fault Refusal :=
  .next (s.latchAt s.rxChip 7 data)

/-- frame DIGIT7: `REG[8] <- data` (rule R40). -/
def execDigit7 (data : Byte) (s : State) : Host.Outcome State Fault Refusal :=
  .next (s.latchAt s.rxChip 8 data)

/-- frame DECODEMODE: `REG[9] <- data` (rule R40). -/
def execDecodemode (data : Byte) (s : State) : Host.Outcome State Fault Refusal :=
  .next (s.latchAt s.rxChip 9 data)

/-- frame INTENSITY: `REG[10] <- data` (rule R40). -/
def execIntensity (data : Byte) (s : State) : Host.Outcome State Fault Refusal :=
  .next (s.latchAt s.rxChip 10 data)

/-- frame SCANLIMIT: `REG[11] <- data` (rule R40). -/
def execScanlimit (data : Byte) (s : State) : Host.Outcome State Fault Refusal :=
  .next (s.latchAt s.rxChip 11 data)

/-- frame SHUTDOWN: `REG[12] <- data` (rule R40). -/
def execShutdown (data : Byte) (s : State) : Host.Outcome State Fault Refusal :=
  .next (s.latchAt s.rxChip 12 data)

/-- frame DISPLAYTEST: `REG[15] <- data` (rule R40). -/
def execDisplaytest (data : Byte) (s : State) : Host.Outcome State Fault Refusal :=
  .next (s.latchAt s.rxChip 15 data)

end Sys2Proof.Machine
end

