-- ==== Sys2Proof/Machine/Lifecycle.lean ====
section
/-! DEFINITION. The control-register commands, initialisation, start and the reset sequence (rules R120 to
R124, R160). -/

namespace Sys2Proof.Machine

/-- `SetShutdown` (rule R120). -/
def shutdownCalls (d : Int) (enabled : Bool) : List Call := [.transact d opShutdown (shutdownData enabled)]

/-- `SetScanLimit`: nothing when the limit is out of range (rule R121). -/
def scanLimitCalls (d limit : Int) : List Call :=
  if rowOk limit then [.transact d opScanLimit (BitVec.ofInt 8 limit)] else []

/-- `SetIntensity`: nothing when the intensity is out of range (rule R122). -/
def intensityCalls (d i : Int) : List Call :=
  if nibbleOk i then [.transact d opIntensity (BitVec.ofInt 8 i)] else []

/-- `InitDevice`: decode mode off, scan limit, test off, rows cleared, shutdown on (rule R123); every step has the
device bound of its own rule, so an out-of-range device makes every step skip. -/
def initDeviceCalls (d : Int) : List Call :=
  [.transact d opDecodeMode decodeOffData] ++ scanLimitCalls d initScanLimit ++
    [.transact d opDisplayTest testOffData] ++ clearDeviceCalls d ++ shutdownCalls d true

/-- `StartDevice`: shutdown off, intensity, rows cleared; each step with its own validation (rule R124). -/
def startDeviceCalls (d i : Int) : List Call := shutdownCalls d false ++ intensityCalls d i ++ clearDeviceCalls d

/-- SETSHUTDOWN (rule R120). -/
def execSetshutdown (d : Int) (enabled : Bool) (s : State) : Host.Outcome State Fault Refusal :=
  s.perform (.setshutdown d enabled) (shutdownCalls d enabled)

/-- SETSCANLIMIT (rule R121). -/
def execSetscanlimit (d limit : Int) (s : State) : Host.Outcome State Fault Refusal :=
  s.perform (.setscanlimit d limit) (scanLimitCalls d limit)

/-- SETINTENSITY (rule R122). -/
def execSetintensity (d i : Int) (s : State) : Host.Outcome State Fault Refusal :=
  s.perform (.setintensity d i) (intensityCalls d i)

/-- INITDEV (rule R123). -/
def execInitdev (d : Int) (s : State) : Host.Outcome State Fault Refusal :=
  s.perform (.initdev d) (initDeviceCalls d)

/-- STARTDEV (rule R124). -/
def execStartdev (d i : Int) (s : State) : Host.Outcome State Fault Refusal :=
  s.perform (.startdev d i) (startDeviceCalls d i)

/-! ## The reset input (rules R160, R161) -/

/-- `for d in 0..N-1: InitDevice(d)`. -/
def resetCalls (c : Config) : List Call := (List.range c.n).flatMap fun d => initDeviceCalls (Int.ofNat d)

/-- The moment the reset input is released, column "at reset" of rule R27. SHADOW keeps whatever it held, which is
"unspecified (no value)" (D24); of the chips' registers nothing is known (rules R27, R126; log entry 10). -/
def State.atReset (s : State) : State :=
  { s with
    rdata := 0x00
    csN := true
    sclk := false
    mosi := false
    own := false
    seq := none
    wire := []
    chips := s.chips.map fun _ => Chip.unknown
    resetIn := false }

/-- Reset while idle: the reset sequence runs to its end or to where the bus makes it wait (rule R160). -/
def State.restart (s : State) : State := State.settle none (s.atReset.runCalls (resetCalls s.cfg))

end Sys2Proof.Machine
end

