-- ==== Sys2Proof/Machine/ShadowPorts.lean ====
section
/-! DEFINITION. The SHADOW FILE's ports: GETROW (rule R90) and SETROW (rule R91). -/

namespace Sys2Proof.Machine

/-- `GetRow(d, r)`: the byte, or `GETROW_OOR` out of range (rule R90). -/
def getRow (s : State) (d r : Int) : Byte :=
  if deviceOk s.cfg d && rowOk r then s.shadowAt d.toNat r.toNat else s.cfg.getrowOor

/-- GETROW (rule R90): writes `RDATA` and nothing else. -/
def execGetrow (d r : Int) (s : State) : Host.Outcome State Fault Refusal :=
  if s.busy then .refused .overlappingCommand else .next (s.putRdata (getRow s d r))

/-- SETROW (rule R91). -/
def execSetrow (d r : Int) (v : Byte) (s : State) : Host.Outcome State Fault Refusal :=
  s.perform (.setrow d r v) [.setRow d r v]

end Sys2Proof.Machine
end

