-- ==== Sys2Proof/Machine/Dispatch.lean ====
section
/-! DEFINITION. `exec`: one arm per constructor of `Instr`, each one call of its meaning. -/

namespace Sys2Proof.Machine

def exec (i : Instr) (s : State) : Host.Outcome State Fault Refusal :=
  match i with
  | .transact t op data => Sys2Proof.Machine.execTransact t op data s
  | .getrow d r => Sys2Proof.Machine.execGetrow d r s
  | .setrow d r v => Sys2Proof.Machine.execSetrow d r v s
  | .setpixel d r c on => Sys2Proof.Machine.execSetpixel d r c on s
  | .setrowbits d r v => Sys2Proof.Machine.execSetrowbits d r v s
  | .setcolbits d c v => Sys2Proof.Machine.execSetcolbits d c v s
  | .setdigit d p value dp => Sys2Proof.Machine.execSetdigit d p value dp s
  | .setchar d p code dp => Sys2Proof.Machine.execSetchar d p code dp s
  | .cleardev d => Sys2Proof.Machine.execCleardev d s
  | .clearall => Sys2Proof.Machine.execClearall s
  | .setshutdown d enabled => Sys2Proof.Machine.execSetshutdown d enabled s
  | .setscanlimit d limit => Sys2Proof.Machine.execSetscanlimit d limit s
  | .setintensity d i0 => Sys2Proof.Machine.execSetintensity d i0 s
  | .initdev d => Sys2Proof.Machine.execInitdev d s
  | .startdev d i0 => Sys2Proof.Machine.execStartdev d i0 s
  | .drawpixel x y color => Sys2Proof.Machine.execDrawpixel x y color s
  | .noop data => Sys2Proof.Machine.execNoop data s
  | .digit0 data => Sys2Proof.Machine.execDigit0 data s
  | .digit1 data => Sys2Proof.Machine.execDigit1 data s
  | .digit2 data => Sys2Proof.Machine.execDigit2 data s
  | .digit3 data => Sys2Proof.Machine.execDigit3 data s
  | .digit4 data => Sys2Proof.Machine.execDigit4 data s
  | .digit5 data => Sys2Proof.Machine.execDigit5 data s
  | .digit6 data => Sys2Proof.Machine.execDigit6 data s
  | .digit7 data => Sys2Proof.Machine.execDigit7 data s
  | .decodemode data => Sys2Proof.Machine.execDecodemode data s
  | .intensity data => Sys2Proof.Machine.execIntensity data s
  | .scanlimit data => Sys2Proof.Machine.execScanlimit data s
  | .shutdown data => Sys2Proof.Machine.execShutdown data s
  | .displaytest data => Sys2Proof.Machine.execDisplaytest data s

end Sys2Proof.Machine
end

