-- ==== Sys2Proof/Machine/Fetch.lean ====
section
/-! DEFINITION. Which of the waiting inputs moves next, and placing an instruction where the step takes it. The
block has no program counter and fetches from no memory (rules R22, R45): commands arrive at the command port one
at a time. The order between inputs that wait together is the model's (log entry 11). -/

namespace Sys2Proof.Machine

/-- Who moves in a step. -/
inductive Turn where
  /-- the reset input (rules R160, R161) -/
  | reset
  /-- chip `chip` latches a frame the block did not send -/
  | latch (chip : Nat) (f : FrameWord)
  /-- the bus environment (rule R78) -/
  | bus (e : BusEvent)
  /-- the sequencer of a command that waits for the bus -/
  | sequencer (q : Sequencer)
  /-- the host: a command word at the port of the idle block (rule R17) -/
  | command (w : CmdWord)
  /-- nobody: the block is idle and nothing is presented -/
  | idle
deriving DecidableEq, Repr

def State.turn (s : State) : Turn :=
  if s.resetIn then .reset
  else
    match s.latches, s.busEvents, s.seq, s.port with
    | (k, f) :: _, _, _, _ => .latch k f
    | [], e :: _, _, _ => .bus e
    | [], [], some q, _ => .sequencer q
    | [], [], none, w :: _ => .command w
    | [], [], none, [] => .idle

/-- The first waiting command word leaves the port. -/
def State.popPort (s : State) : State := { s with port := s.port.tail }

/-- The first waiting frame leaves its queue and chip `k` is about to execute it. -/
def State.popLatch (s : State) (k : Nat) : State := { s with latches := s.latches.tail, rxChip := k }

/-- The first change of the bus environment leaves its queue. -/
def State.popBusEvent (s : State) : State := { s with busEvents := s.busEvents.tail }

/-- A packet stands where the step takes it next, with nothing before it: a command at the port of the idle block, a
frame at chip 0. -/
def State.present (s : State) : Packet → State
  | .command w => { s with resetIn := false, latches := [], busEvents := [], seq := none, port := w :: s.port }
  | .frame f => { s with resetIn := false, latches := (0, f) :: s.latches }

end Sys2Proof.Machine
end

