-- ==== Sys2Proof/Machine/Step.lean ====
section
/-! DEFINITION. One step of the machine, and placing a table word for the next step. -/

namespace Sys2Proof.Machine

/-- One step. A command runs from its acceptance to its end, or to where the bus makes it wait (rules R8, R78); a word
that names no command is skipped (rule R58); an idle block with nothing presented stays as it is. -/
def step (s : State) : Host.Outcome State Fault Refusal :=
  match s.turn with
  | .reset => if s.busy then .refused .resetWhileBusy else .next s.restart
  | .latch k f =>
    match decode (.frame f) with
    | .ok i => exec i (s.popLatch k)
    | .error _ => .next ((s.popLatch k).latchAt k (opField f) (dataField f))
  | .bus e => .next (s.popBusEvent.applyBusEvent e)
  | .sequencer q => .next (s.resume q)
  | .command w =>
    match decode (.command w) with
    | .ok i => exec i s.popPort
    | .error _ => .next s.popPort
  | .idle => .next s

/-- The instruction of a table word, presented so that the very next step runs it (log entry 5). -/
def State.withFetchWord (s : State) (nbits w : Nat) : State :=
  match packetOf nbits w with
  | some p => s.present p
  | none => s

end Sys2Proof.Machine
end

