-- ==== Sys2Proof/Machine/Pseudo.lean ====
section
/-! DEFINITION. The pseudo-commands (rule R63) as the command words they expand to, and the assembler spelling of an
instruction (rule R62). Neither has a meaning of its own: the machine sees only the words. -/

namespace Sys2Proof.Machine

/-- The command word of a command; a frame has none. -/
def wordOf (i : Instr) : Option CmdWord :=
  match encode i with
  | .command w => some w
  | .frame _ => none

/-- `INITALL`: `for d in 0..N-1: INITDEV d` (rule R63). -/
def initAll (c : Config) : List Instr := (List.range c.n).map fun d => .initdev (Int.ofNat d)

/-- `STARTALL i`: `for d in 0..N-1: STARTDEV d, i` (rule R63). -/
def startAll (c : Config) (i : Int) : List Instr := (List.range c.n).map fun d => .startdev (Int.ofNat d) i

/-- `WAKE d`: `SETSHUTDOWN d, off` (rule R63). -/
def wake (d : Int) : Instr := .setshutdown d false

/-- `SLEEP d`: `SETSHUTDOWN d, on` (rule R63). -/
def sleep (d : Int) : Instr := .setshutdown d true

/-- `NOP`: the canonical reserved word 0x80000000 (rule R63). -/
def nopWord : CmdWord := 0x80000000

/-- `MNEMONIC arg, arg, ...` -/
def spell (mnemonic : String) (args : List String) : String :=
  if args.isEmpty then mnemonic else mnemonic ++ " " ++ String.intercalate ", " args

def spellByte (b : Byte) : String := toString b.toNat
def spellOn (b : Bool) : String := if b then "on" else "off"
def spellPoint (b : Bool) : String := if b then "dp" else "nodp"

/-- The assembler spelling (rule R62); a frame, which the spec gives no syntax, is its name and its data byte. -/
def assembly : Instr → String
  | .transact t op data => spell "TRANSACT" [toString t, spellByte op, spellByte data]
  | .getrow d r => spell "GETROW" [toString d, toString r]
  | .setrow d r v => spell "SETROW" [toString d, toString r, spellByte v]
  | .setpixel d r c on => spell "SETPIXEL" [toString d, toString r, toString c, spellOn on]
  | .setrowbits d r v => spell "SETROWBITS" [toString d, toString r, spellByte v]
  | .setcolbits d c v => spell "SETCOLBITS" [toString d, toString c, spellByte v]
  | .setdigit d p value dp => spell "SETDIGIT" [toString d, toString p, toString value, spellPoint dp]
  | .setchar d p code dp => spell "SETCHAR" [toString d, toString p, toString code, spellPoint dp]
  | .cleardev d => spell "CLEARDEV" [toString d]
  | .clearall => spell "CLEARALL" []
  | .setshutdown d enabled => spell "SETSHUTDOWN" [toString d, spellOn enabled]
  | .setscanlimit d limit => spell "SETSCANLIMIT" [toString d, toString limit]
  | .setintensity d i => spell "SETINTENSITY" [toString d, toString i]
  | .initdev d => spell "INITDEV" [toString d]
  | .startdev d i => spell "STARTDEV" [toString d, toString i]
  | .drawpixel x y color => spell "DRAWPIXEL" [toString x, toString y, toString color]
  | .noop data => spell "NOOP" [spellByte data]
  | .digit0 data => spell "DIGIT0" [spellByte data]
  | .digit1 data => spell "DIGIT1" [spellByte data]
  | .digit2 data => spell "DIGIT2" [spellByte data]
  | .digit3 data => spell "DIGIT3" [spellByte data]
  | .digit4 data => spell "DIGIT4" [spellByte data]
  | .digit5 data => spell "DIGIT5" [spellByte data]
  | .digit6 data => spell "DIGIT6" [spellByte data]
  | .digit7 data => spell "DIGIT7" [spellByte data]
  | .decodemode data => spell "DECODEMODE" [spellByte data]
  | .intensity data => spell "INTENSITY" [spellByte data]
  | .scanlimit data => spell "SCANLIMIT" [spellByte data]
  | .shutdown data => spell "SHUTDOWN" [spellByte data]
  | .displaytest data => spell "DISPLAYTEST" [spellByte data]

end Sys2Proof.Machine
end

