-- ==== Sys2Proof/Safety.lean ====
section
/-! DEFINITION. The terms claims are made in: idle and unstalled states, what a list of transactions leaves behind,
the lifecycle predicates (rule R126), the shadow invariant (rule R13), the well-formed states, two states that differ
in the backend (rule R76), and the transaction counts (rule R180). -/

namespace Sys2Proof.Machine

/-! ## Several instructions in order -/

/-- Instructions one after another, each from the state the one before it leaves (rule R41). -/
def execAll : List Instr → State → Host.Outcome State Fault Refusal
  | [], s => .next s
  | i :: is, s =>
    match exec i s with
    | .next t => execAll is t
    | .fault f => .fault f
    | .refused r => .refused r

/-! ## When a command can run -/

/-- No command is in progress (`BUSY = 0`). -/
def State.idle (s : State) : Prop := s.seq = none

/-- The bus makes nothing wait: always so in the BITBANG backend, and in the BLOCK backend when the environment gives
without limit ("given a fair bus", rule R181). -/
def State.busFair (s : State) : Prop := s.cfg.backend = .bitbang ∨ (s.bus.grants = none ∧ s.bus.slots = none)

/-- `0 <= d < N` on a target index. -/
def State.hasDevice (s : State) (d : Int) : Prop := 0 ≤ d ∧ d < Int.ofNat s.cfg.n

/-- The chip at the other end is as the spec has it: as many chips as `N` (rule R162, requirement 1). -/
def State.chainMatches (s : State) : Prop := s.chips.length = s.cfg.n

/-! ## What transactions leave behind -/

/-- The wire events of these transactions, each a target and its real frame, one chip-select window each. -/
def sentWire (c : Config) (txs : List (Nat × Frame)) : List WireEvent :=
  txs.flatMap fun x => txEvents c.backend (txBytes c.n x.1 x.2)

/-- The last data byte these transactions carry to chip `k` for opcode `op`. -/
def lastSent : List (Nat × Frame) → Nat → Nat → Option Byte
  | [], _, _ => none
  | x :: xs, k, op =>
    match lastSent xs k op with
    | some v => some v
    | none => if x.1 = k ∧ x.2.op.toNat = op then some x.2.data else none

/-- The last bit these transactions put on the data line: the real frame's last bit when its target is device 0,
else the last bit of a no-op frame; `level` when there is no transaction. -/
def lastBit : List (Nat × Frame) → Bool → Bool
  | [], level => level
  | x :: xs, _ => lastBit xs (if x.1 = 0 then x.2.data.getLsbD 0 else false)

/-- From `s` to `t` exactly these transactions were sent, to their end, and nothing but the wire, its lines, the shift
path and the chips changed on their account; the shadow is left for each claim to speak of. The levels of the lines and
the order of events rest on log entry 18, with 17 and 32 for the lines a backend does not drive; the moment at which a
chip latches rests on log entry 30, and that no byte is lost on log entry 22. -/
structure Sends (s t : State) (txs : List (Nat × Frame)) : Prop where
  /-- the wire trace grew by these transactions in this order -/
  wire : t.wire = s.wire ++ sentWire s.cfg txs
  /-- every chip that has a device index holds what was last sent to it, and otherwise what it held (rule R40) -/
  chips : ∀ k, k < s.cfg.n → k < s.chips.length → ∀ op,
    t.chipReg k op = match lastSent txs k op with
      | some v => some v
      | none => s.chipReg k op
  chipCount : t.chips.length = s.chips.length
  /-- chip select is released; it was not touched when nothing was sent -/
  csN : t.csN = if txs = [] then s.csN else true
  /-- the clock rests low in the BITBANG backend and is the peripheral's in the BLOCK backend (rules R16, R74) -/
  sclk : t.sclk = if txs = [] ∨ s.cfg.backend = .block then s.sclk else false
  /-- the data line keeps the last bit driven (rule R16) -/
  mosi : t.mosi = if s.cfg.backend = .block then s.mosi else lastBit txs s.mosi
  /-- ownership is given back (rules R20, R75) -/
  own : t.own = if txs = [] ∨ s.cfg.backend = .bitbang then s.own else false
  /-- the command is over -/
  seq : t.seq = none
  cfg : t.cfg = s.cfg
  rdata : t.rdata = s.rdata
  bus : t.bus = s.bus
  rxChip : t.rxChip = s.rxChip
  port : t.port = s.port
  latches : t.latches = s.latches
  busEvents : t.busEvents = s.busEvents
  resetIn : t.resetIn = s.resetIn

/-- Every shadow address but this cell reads as before. -/
def State.onlyCell (s t : State) (d r : Nat) : Prop :=
  ∀ a, a ≠ shadowAddr d r → Memory.read t.shadow a = Memory.read s.shadow a

/-- Every shadow address outside the eight rows of device `d` reads as before. -/
def State.onlyDevice (s t : State) (d : Nat) : Prop :=
  ∀ a, (∀ r, r < 8 → a ≠ shadowAddr d r) → Memory.read t.shadow a = Memory.read s.shadow a

/-- One row of one device now holds `v`, by one transaction, and no other cell changed: the effect of `SetRow` in range
(rule R91). -/
def RowWritten (s t : State) (d r : Nat) (v : Byte) : Prop :=
  t.shadowAt d r = v ∧ s.onlyCell t d r ∧ Sends s t [(d, ⟨BitVec.ofNat 8 (1 + r), v⟩)]

/-- The eight row writes of 0x00 to one device, as transactions (rule R105). -/
def clearTxs (d : Nat) : List (Nat × Frame) := (List.range 8).map fun r => (d, ⟨BitVec.ofNat 8 (1 + r), 0x00⟩)

/-- The twelve transactions of the initialisation of one device (rule R123). -/
def initTxs (d : Nat) : List (Nat × Frame) :=
  [(d, ⟨9, 0x00⟩), (d, ⟨11, 0x07⟩), (d, ⟨15, 0x00⟩)] ++ clearTxs d ++ [(d, ⟨12, 0x00⟩)]

/-! ## Lifecycle predicates over the chips (rule R126) -/

/-- UNINITIALIZED: no register written since reset. -/
def State.uninitialized (s : State) (d : Nat) : Prop := s.chips[d]? = some Chip.unknown

/-- SAFE: "decode-mode off, scan-limit=7, test-mode off, display cleared, shutdown=on". -/
def State.safe (s : State) (d : Nat) : Prop :=
  s.chipReg d 9 = some 0x00 ∧ s.chipReg d 11 = some 0x07 ∧ s.chipReg d 15 = some 0x00 ∧
    (∀ r, r < 8 → s.chipReg d (1 + r) = some 0x00) ∧ s.chipReg d 12 = some 0x00

/-- The clauses of ACTIVE that are not tied to the entry: "shutdown=off, intensity set". -/
def State.lit (s : State) (d : Nat) : Prop :=
  s.chipReg d 12 = some 0x01 ∧ ∃ i : Byte, i.toNat ≤ 15 ∧ s.chipReg d 10 = some i

/-- The clause of ACTIVE that is tied to the entry: "cleared". -/
def State.cleared (s : State) (d : Nat) : Prop := ∀ r, r < 8 → s.chipReg d (1 + r) = some 0x00

/-- ACTIVE at the moment of entry: "shutdown=off, intensity set, cleared". -/
def State.entersActive (s : State) (d : Nat) : Prop := s.lit d ∧ s.cleared d

/-- ACTIVE in the newest state of a history, newest state first: it is entered with the rows cleared, and lasts, whatever
the rows show later, for as long as the shutdown is off and the intensity is set. Log entry 23. -/
def activeNow (d : Nat) : List State → Prop
  | [] => False
  | s :: past => s.lit d ∧ (s.cleared d ∨ activeNow d past)

/-! ## The shadow invariant (rule R13) -/

/-- `SHADOW[d][r] = CHIP[d].REG[1 + r]` for every device and row. -/
def State.mirrored (s : State) : Prop :=
  ∀ d r, d < s.cfg.n → r < 8 → s.chipReg d (1 + r) = some (s.shadowAt d r)

/-- A frame with this opcode leaves every row register of its chip as it was: a NOOP, or a named control register. A raw
frame to a row register is what rule R172 warns of, and after an unassigned opcode nothing is known (rule R52). -/
def sparesRows (op : Byte) : Prop := op = 0 ∨ (9 ≤ op.toNat ∧ assignedOpcode op = true)

/-- The command word is no raw TRANSACT to a row register (rules R13, R172) nor to an unassigned opcode (rule R52). -/
def keepsMirror (w : CmdWord) : Prop :=
  ∀ t op data, decode (.command w) = .ok (.transact t op data) → sparesRows op

/-- The call is no such raw transaction. -/
def Call.keepsMirror : Call → Prop
  | .transact _ op _ => sparesRows op
  | .setRow _ _ _ => True
  | .setPixel _ _ _ _ => True

/-- The transaction a sequencer waits in, real frame `f` to device `d`: not begun, or with the bytes `sent` in the shift
path, the last one first. -/
def Sequencer.pending (q : Sequencer) (s : State) (d : Nat) (f : Frame) : Prop :=
  d < s.cfg.n ∧
    (q.wire = txOps .block (txBytes s.cfg.n d f) ∨
      ∃ sent rest, txBytes s.cfg.n d f = sent ++ rest ∧ q.wire = rest.map .byte ++ [.csHigh, .release] ∧
        s.chain.take sent.length = sent.reverse)

/-- The invariant in a command that waits in the transaction of frame `f` to device `d`: every cell but the one this
frame carries is mirrored, and the shadow of that one already holds the byte (rule R42). While the reset sequence
waits, the cells it has still to clear are not mirrored either. -/
def State.mirroredBut (s : State) (q : Sequencer) (d : Nat) (f : Frame) : Prop :=
  (sparesRows f.op ∨ ∃ r, r < 8 ∧ f = ⟨BitVec.ofNat 8 (1 + r), s.shadowAt d r⟩) ∧
    ∀ d' r', d' < s.cfg.n → r' < 8 →
      s.chipReg d' (1 + r') = some (s.shadowAt d' r') ∨ (d' = d ∧ f.op.toNat = 1 + r') ∨
        (q.cmd = none ∧ .setRow (Int.ofNat d') (Int.ofNat r') 0x00 ∈ q.calls)

/-- The shadow invariant with the conditions of rule R13: the chain has N chips, and no raw TRANSACT that rule R172 warns
of is at the port or in a waiting command, nor such a frame from elsewhere at a chip (rule R173). The bus may stall
anywhere: whenever the block is idle every cell is mirrored, and in a waiting command every cell but the pending one. -/
structure MirrorInv (s : State) : Prop where
  chain : s.chainMatches
  frames : ∀ x, x ∈ s.latches → sparesRows (opField x.2)
  port : ∀ w, w ∈ s.port → keepsMirror w
  idle : s.idle → s.mirrored
  waiting : ∀ q, s.seq = some q → s.cfg.backend = .block ∧ (∀ c, c ∈ q.calls → c.keepsMirror) ∧
    ∃ d f, q.pending s d f ∧ s.mirroredBut q d f

/-! ## Well-formed states -/

/-- What a waiting sequencer holds: it waits only in the BLOCK backend, either for the grant with the whole transaction
still to send, or for the peripheral with a rest of the window still to send. -/
def Sequencer.wf (q : Sequencer) (c : Config) (csN own : Bool) : Prop :=
  c.backend = .block ∧ ∃ d f, d < c.n ∧
    ((q.wire = txOps .block (txBytes c.n d f) ∧ csN = true ∧ own = false) ∨
      ∃ sent b rest, txBytes c.n d f = sent ++ b :: rest ∧
        q.wire = (b :: rest).map .byte ++ [.csHigh, .release] ∧ csN = false ∧ own = true)

/-- Storage in canonical form and inside its space, shift path as long as the chips, lines at their idle levels
whenever no command runs (rules R11, R16, R20, R30, R38). -/
structure State.Wf (s : State) : Prop where
  shadow : Memory.wf s.shadow = true
  shadowSpace : ∀ x, x ∈ s.shadow → x.1 < 8 * s.cfg.n
  regs : ∀ c, c ∈ s.chips → cellsRise c.regs = true
  regSpace : ∀ c, c ∈ s.chips → ∀ x, x ∈ c.regs → (1 ≤ x.1 ∧ x.1 ≤ 12) ∨ x.1 = 15
  path : s.chain.length = 2 * s.chips.length
  sclk : s.sclk = false
  idleLines : s.seq = none → s.csN = true ∧ s.own = false
  waiting : ∀ q, s.seq = some q → q.wf s.cfg s.csN s.own

/-! ## The two backends (rule R76) -/

/-- A BITBANG block and a BLOCK block with an unstalled bus that agree on everything but the backend and its lines. -/
structure BackendRel (s t : State) : Prop where
  bitbang : s.cfg.backend = .bitbang
  block : t.cfg = { s.cfg with backend := .block }
  fair : t.bus.grants = none ∧ t.bus.slots = none
  idle : s.seq = none ∧ t.seq = none
  shadow : t.shadow = s.shadow
  rdata : t.rdata = s.rdata
  chips : t.chips = s.chips
  chain : t.chain = s.chain
  view : sharedView t.wire = sharedView s.wire
  log : txLog t.wire = txLog s.wire
  rxChip : t.rxChip = s.rxChip
  port : t.port = s.port
  latches : t.latches = s.latches
  resetIn : t.resetIn = s.resetIn
  noBusEvents : s.busEvents = [] ∧ t.busEvents = []

/-! ## Transaction counts (rule R180) -/

/-- Transactions of an instruction: the table of rule R180; a frame executed by a chip sends none. -/
def txCount (c : Config) : Instr → Nat
  | .transact t _ _ => if 0 ≤ t ∧ t < c.n then 1 else 0
  | .getrow _ _ => 0
  | .setrow d r _ => if (0 ≤ d ∧ d < c.n) ∧ 0 ≤ r ∧ r ≤ 7 then 1 else 0
  | .setpixel d r k _ => if (0 ≤ d ∧ d < c.n) ∧ (0 ≤ r ∧ r ≤ 7) ∧ 0 ≤ k ∧ k ≤ 7 then 1 else 0
  | .setrowbits d r _ => if (0 ≤ d ∧ d < c.n) ∧ 0 ≤ r ∧ r ≤ 7 then 1 else 0
  | .setcolbits d k _ => if (0 ≤ d ∧ d < c.n) ∧ 0 ≤ k ∧ k ≤ 7 then 8 else 0
  | .setdigit d p v _ => if (0 ≤ d ∧ d < c.n) ∧ (0 ≤ p ∧ p ≤ 7) ∧ 0 ≤ v ∧ v ≤ 15 then 1 else 0
  | .setchar d p _ _ => if (0 ≤ d ∧ d < c.n) ∧ 0 ≤ p ∧ p ≤ 7 then 1 else 0
  | .cleardev d => if 0 ≤ d ∧ d < c.n then 8 else 0
  | .clearall => 8 * c.n
  | .setshutdown d _ => if 0 ≤ d ∧ d < c.n then 1 else 0
  | .setscanlimit d l => if (0 ≤ d ∧ d < c.n) ∧ 0 ≤ l ∧ l ≤ 7 then 1 else 0
  | .setintensity d i => if (0 ≤ d ∧ d < c.n) ∧ 0 ≤ i ∧ i ≤ 15 then 1 else 0
  | .initdev d => if 0 ≤ d ∧ d < c.n then 12 else 0
  | .startdev d i => if 0 ≤ d ∧ d < c.n then (if 0 ≤ i ∧ i ≤ 15 then 10 else 9) else 0
  | .drawpixel x y _ => if (0 ≤ x ∧ x ≤ 7) ∧ 0 ≤ y ∧ y ≤ 7 then 1 else 0
  | .noop _ => 0
  | .digit0 _ => 0
  | .digit1 _ => 0
  | .digit2 _ => 0
  | .digit3 _ => 0
  | .digit4 _ => 0
  | .digit5 _ => 0
  | .digit6 _ => 0
  | .digit7 _ => 0
  | .decodemode _ => 0
  | .intensity _ => 0
  | .scanlimit _ => 0
  | .shutdown _ => 0
  | .displaytest _ => 0

/-! ## Bad arguments (rule R141) and the cells a command may write (rule R92) -/

/-- The command has an argument that makes the whole of it `skip`: causes 1, 3, 5 to 9 and 11 of rule R141. GETROW answers
out of range (causes 2 and 4), STARTDEV skips its intensity step alone (cause 10), and a frame has no checked argument. -/
def badArgument (c : Config) : Instr → Prop
  | .transact t _ _ => ¬ (0 ≤ t ∧ t < c.n)
  | .getrow _ _ => False
  | .setrow d r _ => ¬ ((0 ≤ d ∧ d < c.n) ∧ 0 ≤ r ∧ r ≤ 7)
  | .setpixel d r k _ => ¬ ((0 ≤ d ∧ d < c.n) ∧ (0 ≤ r ∧ r ≤ 7) ∧ 0 ≤ k ∧ k ≤ 7)
  | .setrowbits d r _ => ¬ ((0 ≤ d ∧ d < c.n) ∧ 0 ≤ r ∧ r ≤ 7)
  | .setcolbits d k _ => ¬ ((0 ≤ d ∧ d < c.n) ∧ 0 ≤ k ∧ k ≤ 7)
  | .setdigit d p v _ => ¬ ((0 ≤ d ∧ d < c.n) ∧ (0 ≤ p ∧ p ≤ 7) ∧ 0 ≤ v ∧ v ≤ 15)
  | .setchar d p _ _ => ¬ ((0 ≤ d ∧ d < c.n) ∧ 0 ≤ p ∧ p ≤ 7)
  | .cleardev d => ¬ (0 ≤ d ∧ d < c.n)
  | .clearall => False
  | .setshutdown d _ => ¬ (0 ≤ d ∧ d < c.n)
  | .setscanlimit d l => ¬ ((0 ≤ d ∧ d < c.n) ∧ 0 ≤ l ∧ l ≤ 7)
  | .setintensity d i => ¬ ((0 ≤ d ∧ d < c.n) ∧ 0 ≤ i ∧ i ≤ 15)
  | .initdev d => ¬ (0 ≤ d ∧ d < c.n)
  | .startdev d _ => ¬ (0 ≤ d ∧ d < c.n)
  | .drawpixel x y _ => ¬ ((0 ≤ x ∧ x ≤ 7) ∧ 0 ≤ y ∧ y ≤ 7)
  | .noop _ => False
  | .digit0 _ => False
  | .digit1 _ => False
  | .digit2 _ => False
  | .digit3 _ => False
  | .digit4 _ => False
  | .digit5 _ => False
  | .digit6 _ => False
  | .digit7 _ => False
  | .decodemode _ => False
  | .intensity _ => False
  | .scanlimit _ => False
  | .shutdown _ => False
  | .displaytest _ => False

/-- The instruction makes a `SetRow` on row `row` of device `dev`. -/
def setsRow (dev row : Nat) : Instr → Prop
  | .transact _ _ _ => False
  | .getrow _ _ => False
  | .setrow d r _ => d = dev ∧ r = row
  | .setpixel d r _ _ => d = dev ∧ r = row
  | .setrowbits d r _ => d = dev ∧ r = row
  | .setcolbits d _ _ => d = dev
  | .setdigit d p _ _ => d = dev ∧ p = row
  | .setchar d p _ _ => d = dev ∧ p = row
  | .cleardev d => d = dev
  | .clearall => True
  | .setshutdown _ _ => False
  | .setscanlimit _ _ => False
  | .setintensity _ _ => False
  | .initdev d => d = dev
  | .startdev d _ => d = dev
  | .drawpixel _ y _ => dev = 0 ∧ y = row
  | .noop _ => False
  | .digit0 _ => False
  | .digit1 _ => False
  | .digit2 _ => False
  | .digit3 _ => False
  | .digit4 _ => False
  | .digit5 _ => False
  | .digit6 _ => False
  | .digit7 _ => False
  | .decodemode _ => False
  | .intensity _ => False
  | .scanlimit _ => False
  | .shutdown _ => False
  | .displaytest _ => False

/-- The call writes the shadow byte of row `row` of device `dev` when it is in range. -/
def Call.sets (dev row : Nat) : Call → Prop
  | .transact _ _ _ => False
  | .setRow d r _ => d = dev ∧ r = row
  | .setPixel d r _ _ => d = dev ∧ r = row

/-- The next step may make a `SetRow` on row `row` of device `dev`: it takes a command that makes one, goes on with a
waiting command that has one still to make, or runs the reset sequence. -/
def State.startsSetRow (s : State) (dev row : Nat) : Prop :=
  match s.turn with
  | .reset => True
  | .latch _ _ => False
  | .bus _ => False
  | .sequencer q => ∃ c, c ∈ q.calls ∧ c.sets dev row
  | .command w =>
    match decode (.command w) with
    | .ok i => setsRow dev row i
    | .error _ => False
  | .idle => False

/-! ## What may end ACTIVE (rule R126) -/

/-- The instruction may write SHUTDOWN or INTENSITY of chip `k`, or leave them unknown (rule R52), when frames standing
alone are executed by chip `rx`. -/
def touchesPower (k rx : Nat) : Instr → Prop
  | .transact t op _ => t = k ∧ (op = 10 ∨ op = 12 ∨ assignedOpcode op = false)
  | .getrow _ _ => False
  | .setrow _ _ _ => False
  | .setpixel _ _ _ _ => False
  | .setrowbits _ _ _ => False
  | .setcolbits _ _ _ => False
  | .setdigit _ _ _ _ => False
  | .setchar _ _ _ _ => False
  | .cleardev _ => False
  | .clearall => False
  | .setshutdown d _ => d = k
  | .setscanlimit _ _ => False
  | .setintensity d _ => d = k
  | .initdev d => d = k
  | .startdev d _ => d = k
  | .drawpixel _ _ _ => False
  | .noop _ => False
  | .digit0 _ => False
  | .digit1 _ => False
  | .digit2 _ => False
  | .digit3 _ => False
  | .digit4 _ => False
  | .digit5 _ => False
  | .digit6 _ => False
  | .digit7 _ => False
  | .decodemode _ => False
  | .intensity _ => rx = k
  | .scanlimit _ => False
  | .shutdown _ => rx = k
  | .displaytest _ => False

/-- The 16 commands of CW32, executed by the block (rule R57). -/
def isCommand : Instr → Bool
  | .transact _ _ _ => true
  | .getrow _ _ => true
  | .setrow _ _ _ => true
  | .setpixel _ _ _ _ => true
  | .setrowbits _ _ _ => true
  | .setcolbits _ _ _ => true
  | .setdigit _ _ _ _ => true
  | .setchar _ _ _ _ => true
  | .cleardev _ => true
  | .clearall => true
  | .setshutdown _ _ => true
  | .setscanlimit _ _ => true
  | .setintensity _ _ => true
  | .initdev _ => true
  | .startdev _ _ => true
  | .drawpixel _ _ _ => true
  | .noop _ => false
  | .digit0 _ => false
  | .digit1 _ => false
  | .digit2 _ => false
  | .digit3 _ => false
  | .digit4 _ => false
  | .digit5 _ => false
  | .digit6 _ => false
  | .digit7 _ => false
  | .decodemode _ => false
  | .intensity _ => false
  | .scanlimit _ => false
  | .shutdown _ => false
  | .displaytest _ => false

end Sys2Proof.Machine
end

