-- ==== Sys2Proof/Certificates/Slice0/Obligations.lean ====
section
/-! DEFINITION. The statements for the provers, one `def Obligations.<Name> : Prop` each. -/

open Sys2Proof Sys2Proof.Machine

/-! ## Encodings -/

/-- Every well-formed instruction of both formats is read back from its own word (rules R55 to R57, R50, R51). The command words
are those of the spec's own decision D2 (log entry 31, PRESUMED). -/
def Obligations.DecodeOfEncodeIsTheInstruction : Prop :=
  ∀ i : Instr, i.wellFormed = true → decode (encode i) = .ok i

/-- Rule R57: `W & 0xFB000000 = match` selects the command, its operands are the fields of R55 as unsigned numbers. The word
format CW32 and its command codes are the spec's own decision D2, a choice and no rule of the source (log entry 31, PRESUMED). -/
def Obligations.CommandSelectedByMatchAndMask : Prop :=
  ∀ w : CmdWord,
    let dev : Int := Int.ofNat (w.toNat / 2 ^ 16 % 2 ^ 8)
    let a : Int := Int.ofNat (w.toNat / 2 ^ 8 % 2 ^ 8)
    let b : Int := Int.ofNat (w.toNat % 2 ^ 8)
    let aByte : Byte := BitVec.ofNat 8 (w.toNat / 2 ^ 8)
    let bByte : Byte := BitVec.ofNat 8 w.toNat
    let f : Bool := w.toNat.testBit 26
    (w &&& 0xFB000000 = 0x00000000 → decode (.command w) = .ok (.transact dev aByte bByte)) ∧
    (w &&& 0xFB000000 = 0x08000000 → decode (.command w) = .ok (.getrow dev a)) ∧
    (w &&& 0xFB000000 = 0x10000000 → decode (.command w) = .ok (.setrow dev a bByte)) ∧
    (w &&& 0xFB000000 = 0x18000000 → decode (.command w) = .ok (.setpixel dev a b f)) ∧
    (w &&& 0xFB000000 = 0x20000000 → decode (.command w) = .ok (.setrowbits dev a bByte)) ∧
    (w &&& 0xFB000000 = 0x28000000 → decode (.command w) = .ok (.setcolbits dev a bByte)) ∧
    (w &&& 0xFB000000 = 0x30000000 → decode (.command w) = .ok (.setdigit dev a b f)) ∧
    (w &&& 0xFB000000 = 0x38000000 → decode (.command w) = .ok (.setchar dev a b f)) ∧
    (w &&& 0xFB000000 = 0x40000000 → decode (.command w) = .ok (.cleardev dev)) ∧
    (w &&& 0xFB000000 = 0x48000000 → decode (.command w) = .ok .clearall) ∧
    (w &&& 0xFB000000 = 0x50000000 → decode (.command w) = .ok (.setshutdown dev f)) ∧
    (w &&& 0xFB000000 = 0x58000000 → decode (.command w) = .ok (.setscanlimit dev b)) ∧
    (w &&& 0xFB000000 = 0x60000000 → decode (.command w) = .ok (.setintensity dev b)) ∧
    (w &&& 0xFB000000 = 0x68000000 → decode (.command w) = .ok (.initdev dev)) ∧
    (w &&& 0xFB000000 = 0x70000000 → decode (.command w) = .ok (.startdev dev b)) ∧
    (w &&& 0xFB000000 = 0x78000000 → decode (.command w) = .ok (.drawpixel a b dev)) ∧
    (2 ^ 31 ≤ w.toNat → ∃ e, decode (.command w) = .error e)

/-- Rule R58: a reserved word, CMD in 16..31 or RSV not 00, is taken from the port of the idle block and changes nothing else:
`RDATA`, the wire and `BUSY` are as before. That such a word is skipped is the spec's own decision D22, a choice (log entry 31,
PRESUMED). -/
def Obligations.ReservedWordIsSkipped : Prop :=
  ∀ (s : State) (w : CmdWord), s.turn = .command w →
    (16 ≤ w.toNat / 2 ^ 27 ∨ w.toNat / 2 ^ 24 % 4 ≠ 0) →
    step s = .next { s with port := s.port.tail }

/-- Rule R59: two words that agree on the bits a command uses are the same command. Each pair is a command's `match` and the mask
of `CMD`, `RSV` and the fields the table of R57 gives it. The rule's own three words are at the end. That unused fields are
ignored is the spec's own decision D22, a choice, over the format of D2 (log entry 31, PRESUMED). -/
def Obligations.UnusedFieldsHaveNoEffect : Prop :=
  (∀ p ∈ ([(0x00000000, 0xFBFFFFFF), (0x08000000, 0xFBFFFF00), (0x10000000, 0xFBFFFFFF), (0x18000000, 0xFFFFFFFF),
      (0x20000000, 0xFBFFFFFF), (0x28000000, 0xFBFFFFFF), (0x30000000, 0xFFFFFFFF), (0x38000000, 0xFFFFFFFF),
      (0x40000000, 0xFBFF0000), (0x48000000, 0xFB000000), (0x50000000, 0xFFFF0000), (0x58000000, 0xFBFF00FF),
      (0x60000000, 0xFBFF00FF), (0x68000000, 0xFBFF0000), (0x70000000, 0xFBFF00FF), (0x78000000, 0xFBFFFFFF)] :
      List (CmdWord × CmdWord)),
    ∀ w w' : CmdWord, w &&& 0xFB000000 = p.1 → w &&& p.2 = w' &&& p.2 → decode (.command w) = decode (.command w')) ∧
  decode (.command 0x48000000) = .ok .clearall ∧ decode (.command 0x4C12FFFF) = .ok .clearall ∧
  decode (.command 0x49000000) = .error (.reservedBits 1)

/-- Rules R50 to R52: a frame is its opcode byte and its data byte, the fourteen named opcodes are the fourteen frames, and
13, 14 and 16..255 name none. -/
def Obligations.FrameOpcodeMap : Prop :=
  ∀ op data : Byte,
    (∀ p ∈ ([(0, Instr.noop), (1, .digit0), (2, .digit1), (3, .digit2), (4, .digit3), (5, .digit4), (6, .digit5),
        (7, .digit6), (8, .digit7), (9, .decodemode), (10, .intensity), (11, .scanlimit), (12, .shutdown),
        (15, .displaytest)] : List (Nat × (Byte → Instr))),
      op.toNat = p.1 → decode (.frame (op ++ data)) = .ok (p.2 data)) ∧
    (op.toNat = 13 ∨ op.toNat = 14 ∨ 16 ≤ op.toNat →
      decode (.frame (op ++ data)) = .error (.unassignedOpcode op.toNat))

/-- Words written out from the encodings and the test vectors of 95_test_vectors.md: a sanity statement. The command words are
those of the spec's own decision D2 (log entry 31, PRESUMED). -/
def Obligations.SampleWordsDecode : Prop :=
  decode (.command 0x00010A0F) = .ok (.transact 1 0x0A 0x0F) ∧
  decode (.command 0x100100AA) = .ok (.setrow 1 0 0xAA) ∧
  decode (.command 0x34010705) = .ok (.setdigit 1 7 5 true) ∧
  decode (.command 0x58010007) = .ok (.setscanlimit 1 7) ∧
  decode (.command 0x78010304) = .ok (.drawpixel 3 4 1) ∧
  decode (.frame 0x0A0F) = .ok (.intensity 0x0F)

/-! ## The wire -/

/-- Rule R71: positions are sent from `N-1` down to 0, so the real frame of target `t` is the `(N-1-t)`-th sent, counting from 0,
and a no-op frame stands everywhere else: for the frame lists every transaction is made of, and for the transaction a TRANSACT puts
in `TXLOG`, in either backend. -/
def Obligations.FramesAreSentFarChipFirst : Prop :=
  (∀ (n t : Nat) (f : Frame), (txFrames t f n).length = n ∧
    (∀ j, j < n → (txFrames t f n)[j]? = some (if n - 1 - j = t then f else ⟨0, 0⟩))) ∧
  ∀ (s : State) (t : Int) (op data : Byte), s.idle → s.busFair → s.hasDevice t →
    ∃ u sent, exec (.transact t op data) s = .next u ∧ txLog u.wire = txLog s.wire ++ [sent] ∧ sent.length = s.cfg.n ∧
      ∀ j, j < s.cfg.n → sent[j]? = some (if j = s.cfg.n - 1 - t.toNat then ⟨op, data⟩ else ⟨0, 0⟩)

/-- Rule R73: the byte view of a transaction is one chip-select window of exactly its bytes, opcode before data, with `ACQ`
before and `REL` after in the BLOCK backend only; whatever was on the wire before. The nesting of `ACQ`, chip select and `REL` is
the spec's decision D7 (log entry 18, PRESUMED). -/
def Obligations.TransactionByteView : Prop :=
  ∀ (w : List WireEvent) (n t : Nat) (f : Frame),
    (txBytes n t f).length = 2 * n ∧
    byteView (w ++ txEvents .bitbang (txBytes n t f)) =
      byteView w ++ [.cs false] ++ (txBytes n t f).map .byte ++ [.cs true] ∧
    byteView (w ++ txEvents .block (txBytes n t f)) =
      byteView w ++ [.acq, .cs false] ++ (txBytes n t f).map .byte ++ [.cs true, .rel]

/-- Rule R74: in the BITBANG backend every bit, bit 7 first, is data, clock up, clock down, inside the window; a transaction
is `16*N` pulses. The order data, clock up, clock down is the spec's from general knowledge (D6, G3; log entry 18, PRESUMED). -/
def Obligations.BitbangSendsEveryBitWithOnePulse : Prop :=
  (∀ bytes : List Byte,
    txEvents .bitbang bytes =
      [.cs false] ++ (bytes.flatMap fun b => (List.range 8).flatMap fun i =>
        [.mosi (b.getLsbD (7 - i)), .sclk true, .sclk false]) ++ [.cs true]) ∧
  ∀ (n t : Nat) (f : Frame), (txEvents .bitbang (txBytes n t f)).count (.sclk true) = 16 * n

/-- `TXLOG`, the view (a) of rule R19, grows by the frames of each transaction sent, in order, whatever was on the wire
before and in either backend. -/
def Obligations.TransactionLogListsEveryTransaction : Prop :=
  ∀ (w : List WireEvent) (c : Config) (txs : List (Nat × Frame)),
    txLog (w ++ sentWire c txs) = txLog w ++ txs.map fun x => txFrames x.1 x.2 c.n

/-- Rule R76: two machines that agree on everything but the backend and its lines answer next states that agree again after any
number of steps, so any command sequence gives the same `SHADOW`, `RDATA`, `TXLOG` and byte view without `ACQ` and `REL`. -/
def Obligations.BackendsAgreeOnEveryRun : Prop :=
  ∀ (k : Nat) (s t : State), BackendRel s t →
    ∃ s' t' : State, Host.Core.run Sys2Proof.core k s = .next s' ∧ Host.Core.run Sys2Proof.core k t = .next t' ∧ BackendRel s' t'

/-! ## TRANSACT -/

/-- Rules R70 and R72: in range, exactly one transaction, with the real frame at the target and whatever opcode and data were
given, the shadow untouched, the target's register written and every other chip as it was; out of range, nothing. What a chip does
with an unassigned opcode is not said. The levels and order of `CS_N`, `SCLK`, `MOSI` and `OWN` are the spec's decisions D5, D6
and D7 (log entry 18, PRESUMED); that `SCLK` and `MOSI` keep their value in the BLOCK backend is log entry 17 and that `OWN` keeps
its value in the BITBANG backend log entry 32 (both DEDUCED). That a chip latches at the release of chip select and looks at the
whole opcode byte is the spec's decision D26 (log entry 30, PRESUMED). -/
def Obligations.TransactSendsOneTransaction : Prop :=
  ∀ (s : State) (t : Int) (op data : Byte), s.idle → s.busFair →
    (s.hasDevice t → ∃ u, exec (.transact t op data) s = .next u ∧
      u.wire = s.wire ++ txEvents s.cfg.backend (txBytes s.cfg.n t.toNat ⟨op, data⟩) ∧
      txLog u.wire = txLog s.wire ++ [txFrames t.toNat ⟨op, data⟩ s.cfg.n] ∧
      u.shadow = s.shadow ∧ u.rdata = s.rdata ∧ u.cfg = s.cfg ∧ u.seq = none ∧ u.csN = true ∧
      (s.cfg.backend = .bitbang → u.sclk = false ∧ u.own = s.own ∧
        u.mosi = if t = 0 then data.getLsbD 0 else false) ∧
      (s.cfg.backend = .block → u.own = false ∧ u.sclk = s.sclk ∧ u.mosi = s.mosi) ∧
      u.bus = s.bus ∧ u.rxChip = s.rxChip ∧ u.port = s.port ∧ u.latches = s.latches ∧ u.busEvents = s.busEvents ∧
      u.resetIn = s.resetIn ∧ u.chips.length = s.chips.length ∧
      (∀ k, k < s.cfg.n → k ≠ t.toNat → u.chips[k]? = s.chips[k]?) ∧
      (op = 0 → u.chips[t.toNat]? = s.chips[t.toNat]?) ∧
      (op ≠ 0 → assignedOpcode op = true → t.toNat < s.chips.length →
        ∀ j, u.chipReg t.toNat j = if j = op.toNat then some data else s.chipReg t.toNat j)) ∧
    (¬ s.hasDevice t → exec (.transact t op data) s = .next s)

/-- Rule R171: with more chips than `N` the first `N` are addressed as ever, and the farther ones latch what the nearer ones held
in the shift path before: chip `N + j` takes the frame that stood at chip `j`. The rule is marked derived by the spec, and the
shift path is log entry 13 (DEDUCED). That a chip latches at the release of chip select is the spec's decision D26 (log entry 30,
PRESUMED). -/
def Obligations.FartherChipsLatchStaleFrames : Prop :=
  ∀ (s u : State) (t : Int) (op data : Byte) (j : Nat) (o v : Byte), s.idle → s.busFair → s.hasDevice t →
    exec (.transact t op data) s = .next u → s.chain[2 * j]? = some v → s.chain[2 * j + 1]? = some o →
    u.chips[s.cfg.n + j]? = (s.chips[s.cfg.n + j]?).map fun c => c.latch o v

/-- Rule R172: a raw TRANSACT to a row register writes the chip and not the shadow, and GETROW then answers the stale byte. That a
chip latches at the release of chip select is the spec's decision D26 (log entry 30, PRESUMED). -/
def Obligations.RawRowTransactLeavesShadowStale : Prop :=
  ∀ (s : State) (d r : Nat) (v : Byte), s.idle → s.busFair → d < s.cfg.n → d < s.chips.length → r < 8 →
    ∃ u w, exec (.transact d (BitVec.ofNat 8 (1 + r)) v) s = .next u ∧ u.chipReg d (1 + r) = some v ∧
      u.shadow = s.shadow ∧ exec (.getrow d r) u = .next w ∧ w.rdata = s.shadowAt d r

/-! ## The SHADOW FILE ports -/

/-- Rule R90: GETROW writes `RDATA`, with the shadow byte in range and `GETROW_OOR` out of range, and nothing else. The
out-of-range answer is a choice: the source gives no byte, and that it is one fixed parameter of the machine is the spec's
decision D9; the free draw per call that U1 offers instead is not taken (log entry 20, DEDUCED). -/
def Obligations.GetrowAnswersTheShadowByte : Prop :=
  ∀ (s : State) (d r : Int), s.idle →
    (s.hasDevice d ∧ 0 ≤ r ∧ r ≤ 7 →
      exec (.getrow d r) s = .next { s with rdata := Memory.read s.shadow (8 * d.toNat + r.toNat) }) ∧
    (¬ (s.hasDevice d ∧ 0 ≤ r ∧ r ≤ 7) → exec (.getrow d r) s = .next { s with rdata := s.cfg.getrowOor })

/-- Rule R91: in range SETROW writes one byte and sends one transaction, opcode `1 + r`; out of range it changes nothing. -/
def Obligations.SetrowWritesThrough : Prop :=
  ∀ (s : State) (d r : Int) (v : Byte), s.idle → s.busFair →
    (s.hasDevice d ∧ 0 ≤ r ∧ r ≤ 7 → ∃ t, exec (.setrow d r v) s = .next t ∧ RowWritten s t d.toNat r.toNat v) ∧
    (¬ (s.hasDevice d ∧ 0 ≤ r ∧ r ≤ 7) → exec (.setrow d r v) s = .next s)

/-- Rule R92: SETROW followed by GETROW of the same row answers the byte written, and GETROW of any other row answers what it
would have answered before. -/
def Obligations.SetrowThenGetrowReturnsTheByte : Prop :=
  ∀ (s : State) (d r d' r' : Int) (v : Byte), s.idle → s.busFair → s.hasDevice d ∧ 0 ≤ r ∧ r ≤ 7 →
    s.hasDevice d' ∧ 0 ≤ r' ∧ r' ≤ 7 →
    ∃ t u, exec (.setrow d r v) s = .next t ∧ exec (.getrow d' r') t = .next u ∧
      u.rdata = if d' = d ∧ r' = r then v else s.shadowAt d'.toNat r'.toNat

/-- Rule R92 whole: after a SETROW, GETROW of that row in an idle block answers the byte written, first after any instructions
run on their own that make no `SetRow` on its row, then after any number of steps of the machine none of which starts one: there
the SETROW may have been stopped by the bus, and the steps take in its resumption, bus changes, foreign frames and other commands,
stalled or not. -/
def Obligations.RoundTripUntilTheNextSetRow : Prop :=
  (∀ (s t u : State) (d r : Int) (v : Byte) (is : List Instr), s.hasDevice d ∧ 0 ≤ r ∧ r ≤ 7 →
    exec (.setrow d r v) s = .next t → execAll is t = .next u → (∀ i, i ∈ is → ¬ setsRow d.toNat r.toNat i) → u.idle →
    ∃ w, exec (.getrow d r) u = .next w ∧ w.rdata = v) ∧
  ∀ (s t u : State) (d r : Int) (v : Byte) (k : Nat), s.hasDevice d ∧ 0 ≤ r ∧ r ≤ 7 →
    exec (.setrow d r v) s = .next t → Host.Core.run Sys2Proof.core k t = .next u →
    (∀ (j : Nat) (m : State), j < k → Host.Core.run Sys2Proof.core j t = .next m → ¬ m.startsSetRow d.toNat r.toNat) → u.idle →
    ∃ w, exec (.getrow d r) u = .next w ∧ w.rdata = v

/-- Rule R92, "until the next `setRow` on that (device,row)": whatever the bus does, an instruction that makes no `SetRow` on a
row leaves its shadow byte as it was, and so does every step that starts none, the resumption of a waiting command included. -/
def Obligations.OnlySetRowChangesARow : Prop :=
  (∀ (i : Instr) (s t : State) (d r : Nat), exec i s = .next t → d < s.cfg.n → r < 8 → ¬ setsRow d r i →
    t.shadowAt d r = s.shadowAt d r) ∧
  ∀ (s t : State) (d r : Nat), step s = .next t → d < s.cfg.n → r < 8 → ¬ s.startsSetRow d r →
    t.shadowAt d r = s.shadowAt d r

/-- Rule R93 and the table of R141: a command with a bad argument changes nothing at all, whatever the bus. -/
def Obligations.BadArgumentIsASilentNoOp : Prop :=
  ∀ (i : Instr) (s : State), s.idle → badArgument s.cfg i → exec i s = .next s

/-- Rules R29 and R39: a repeated SETROW leaves the same shadow and sends its transaction again. -/
def Obligations.RepeatedSetrowIsSentAgain : Prop :=
  ∀ (s : State) (d r : Int) (v : Byte), s.idle → s.busFair → s.hasDevice d ∧ 0 ≤ r ∧ r ≤ 7 →
    ∃ t u, exec (.setrow d r v) s = .next t ∧ exec (.setrow d r v) t = .next u ∧
      (∀ a, Memory.read u.shadow a = Memory.read t.shadow a) ∧
      txLog u.wire = txLog s.wire ++ List.replicate 2 (txFrames d.toNat ⟨BitVec.ofNat 8 (1 + r.toNat), v⟩ s.cfg.n)

/-! ## The editing commands -/

/-- Rule R100: in range SETPIXEL writes one row byte that differs from the old one at most in bit `7 - c`, which becomes `on`;
out of range, a column included, it changes nothing. -/
def Obligations.SetpixelChangesOneBit : Prop :=
  ∀ (s : State) (d r c : Int) (on : Bool), s.idle → s.busFair →
    (s.hasDevice d ∧ (0 ≤ r ∧ r ≤ 7) ∧ (0 ≤ c ∧ c ≤ 7) →
      ∃ t v, exec (.setpixel d r c on) s = .next t ∧ RowWritten s t d.toNat r.toNat v ∧
        v.getLsbD (7 - c.toNat) = on ∧
        ∀ j, j < 8 → j ≠ 7 - c.toNat → v.getLsbD j = (s.shadowAt d.toNat r.toNat).getLsbD j) ∧
    (¬ (s.hasDevice d ∧ (0 ≤ r ∧ r ≤ 7) ∧ (0 ≤ c ∧ c ≤ 7)) → exec (.setpixel d r c on) s = .next s)

/-- Rule R110: on then off leaves the pixel off and gives back the other seven bits in every case, so it gives back the whole
byte when the pixel was off before. -/
def Obligations.PixelOnThenOff : Prop :=
  ∀ (s : State) (d r c : Int), s.idle → s.busFair → s.hasDevice d → 0 ≤ r ∧ r ≤ 7 → 0 ≤ c ∧ c ≤ 7 →
    ∃ t u, exec (.setpixel d r c true) s = .next t ∧ exec (.setpixel d r c false) t = .next u ∧
      ((s.shadowAt d.toNat r.toNat).getLsbD (7 - c.toNat) = false →
        u.shadowAt d.toNat r.toNat = s.shadowAt d.toNat r.toNat) ∧
      (u.shadowAt d.toNat r.toNat).getLsbD (7 - c.toNat) = false ∧
      ∀ j, j < 8 → j ≠ 7 - c.toNat →
        (u.shadowAt d.toNat r.toNat).getLsbD j = (s.shadowAt d.toNat r.toNat).getLsbD j

/-- Rule R101: SETROWBITS has the effect of SETROW. -/
def Obligations.SetrowbitsOverwritesTheRow : Prop :=
  ∀ (s : State) (d r : Int) (v : Byte), s.idle → s.busFair →
    (s.hasDevice d ∧ 0 ≤ r ∧ r ≤ 7 →
      ∃ t, exec (.setrowbits d r v) s = .next t ∧ exec (.setrow d r v) s = .next t ∧
        RowWritten s t d.toNat r.toNat v) ∧
    (¬ (s.hasDevice d ∧ 0 ≤ r ∧ r ≤ 7) → exec (.setrowbits d r v) s = .next s)

/-- Rule R102: in range SETCOLBITS sets bit `7 - c` of every row `r` to bit `7 - r` of the value, keeps the other columns, and
sends 8 transactions, rows 0 to 7, each with the row's new byte; out of range it changes nothing. The ascending order of the rows
is the spec's decision D19 (log entry 26, PRESUMED). -/
def Obligations.SetcolbitsWritesOneColumn : Prop :=
  ∀ (s : State) (d c : Int) (v : Byte), s.idle → s.busFair →
    (s.hasDevice d ∧ 0 ≤ c ∧ c ≤ 7 → ∃ t, exec (.setcolbits d c v) s = .next t ∧
      (∀ r, r < 8 → (t.shadowAt d.toNat r).getLsbD (7 - c.toNat) = v.getLsbD (7 - r) ∧
        ∀ j, j < 8 → j ≠ 7 - c.toNat → (t.shadowAt d.toNat r).getLsbD j = (s.shadowAt d.toNat r).getLsbD j) ∧
      s.onlyDevice t d.toNat ∧
      Sends s t ((List.range 8).map fun r => (d.toNat, ⟨BitVec.ofNat 8 (1 + r), t.shadowAt d.toNat r⟩))) ∧
    (¬ (s.hasDevice d ∧ 0 ≤ c ∧ c ≤ 7) → exec (.setcolbits d c v) s = .next s)

/-- Rule R103: in range SETDIGIT writes the table's byte of the digit, with bit 7 set as well when the point is asked for; out
of range, a value above 15 included, it changes nothing. That the digits are entries 0 to 15 of the one table is the spec's
decision D21 (log entry 27, PRESUMED). -/
def Obligations.SetdigitWritesTheGlyph : Prop :=
  ∀ (s : State) (d p value : Int) (dp : Bool), s.idle → s.busFair →
    (s.hasDevice d ∧ (0 ≤ p ∧ p ≤ 7) ∧ (0 ≤ value ∧ value ≤ 15) →
      ∃ t g, exec (.setdigit d p value dp) s = .next t ∧ s.cfg.glyph[value.toNat]? = some g ∧
        RowWritten s t d.toNat p.toNat (if dp then g ||| 0x80 else g)) ∧
    (¬ (s.hasDevice d ∧ (0 ≤ p ∧ p ≤ 7) ∧ (0 ≤ value ∧ value ≤ 15)) →
      exec (.setdigit d p value dp) s = .next s)

/-- Rule R104: SETCHAR writes the table's byte of the code, or of code 32 when the code is outside 0..127; a bad device or
position changes nothing. The one table for digits and characters is the spec's decision D21 (log entry 27, PRESUMED). -/
def Obligations.SetcharWritesTheGlyphOrTheSpace : Prop :=
  ∀ (s : State) (d p code : Int) (dp : Bool), s.idle → s.busFair →
    (s.hasDevice d ∧ 0 ≤ p ∧ p ≤ 7 →
      ∃ t g, exec (.setchar d p code dp) s = .next t ∧
        s.cfg.glyph[if 0 ≤ code ∧ code ≤ 127 then code.toNat else 32]? = some g ∧
        RowWritten s t d.toNat p.toNat (if dp then g ||| 0x80 else g)) ∧
    (¬ (s.hasDevice d ∧ 0 ≤ p ∧ p ≤ 7) → exec (.setchar d p code dp) s = .next s)

/-- Rule R105: in range CLEARDEV leaves the eight rows of its device 0x00, by 8 transactions in row order, and every other cell
as it was; out of range it changes nothing. The ascending order of the rows is the spec's decision D18 (log entry 26,
PRESUMED). -/
def Obligations.CleardevClearsEightRows : Prop :=
  ∀ (s : State) (d : Int), s.idle → s.busFair →
    (s.hasDevice d → ∃ t, exec (.cleardev d) s = .next t ∧ (∀ r, r < 8 → t.shadowAt d.toNat r = 0x00) ∧
      s.onlyDevice t d.toNat ∧ Sends s t (clearTxs d.toNat)) ∧
    (¬ s.hasDevice d → exec (.cleardev d) s = .next s)

/-- Rule R106: CLEARALL leaves every shadow byte 0x00 by `8*N` transactions, devices in ascending order. The order of rows
and devices is the spec's decision D18 (log entry 26, PRESUMED). -/
def Obligations.ClearallClearsEveryDevice : Prop :=
  ∀ s : State, s.idle → s.busFair → ∃ t, exec .clearall s = .next t ∧
    (∀ d r, d < s.cfg.n → r < 8 → t.shadowAt d r = 0x00) ∧
    (∀ a, 8 * s.cfg.n ≤ a → Memory.read t.shadow a = Memory.read s.shadow a) ∧
    Sends s t ((List.range s.cfg.n).flatMap clearTxs)

/-- Rule R107: in range DRAWPIXEL does what SETPIXEL does on device 0, row `y`, column `x`, on for any color but 0; out of range
it changes nothing. That `x` is the column and `y` the row is the spec's decision D20 (log entry 26, PRESUMED). -/
def Obligations.DrawpixelEditsDeviceZero : Prop :=
  ∀ (s : State) (x y color : Int), s.idle → s.busFair →
    ((0 ≤ x ∧ x ≤ 7) ∧ (0 ≤ y ∧ y ≤ 7) →
      ∃ t v, exec (.drawpixel x y color) s = .next t ∧ RowWritten s t 0 y.toNat v ∧
        v.getLsbD (7 - x.toNat) = decide (color ≠ 0) ∧
        ∀ j, j < 8 → j ≠ 7 - x.toNat → v.getLsbD j = (s.shadowAt 0 y.toNat).getLsbD j) ∧
    (¬ ((0 ≤ x ∧ x ≤ 7) ∧ (0 ≤ y ∧ y ≤ 7)) → exec (.drawpixel x y color) s = .next s)

/-! ## Control registers, initialisation, start -/

/-- Rule R120: in range SETSHUTDOWN sends one transaction, (12, 0x00) for on and (12, 0x01) for off, and no shadow byte changes;
out of range it changes nothing. The two data bytes are the spec's from general knowledge (D12, G1; log entry 4, PRESUMED). -/
def Obligations.SetshutdownSendsOneFrame : Prop :=
  ∀ (s : State) (d : Int) (enabled : Bool), s.idle → s.busFair →
    (s.hasDevice d → ∃ t, exec (.setshutdown d enabled) s = .next t ∧ t.shadow = s.shadow ∧
      Sends s t [(d.toNat, ⟨12, if enabled then 0x00 else 0x01⟩)]) ∧
    (¬ s.hasDevice d → exec (.setshutdown d enabled) s = .next s)

/-- Rule R121: in range SETSCANLIMIT sends one transaction (11, limit); a limit outside 0..7 is no clamp but a no-op. That
the data byte is the argument is the spec's decision D14 (log entry 4, PRESUMED). -/
def Obligations.SetscanlimitSendsTheLimit : Prop :=
  ∀ (s : State) (d limit : Int), s.idle → s.busFair →
    (s.hasDevice d ∧ 0 ≤ limit ∧ limit ≤ 7 → ∃ t, exec (.setscanlimit d limit) s = .next t ∧ t.shadow = s.shadow ∧
      Sends s t [(d.toNat, ⟨11, BitVec.ofNat 8 limit.toNat⟩)]) ∧
    (¬ (s.hasDevice d ∧ 0 ≤ limit ∧ limit ≤ 7) → exec (.setscanlimit d limit) s = .next s)

/-- Rule R122: in range SETINTENSITY sends one transaction (10, i); an intensity outside 0..15 is a no-op. That the
data byte is the argument is the spec's decision D14 (log entry 4, PRESUMED). -/
def Obligations.SetintensitySendsTheIntensity : Prop :=
  ∀ (s : State) (d i : Int), s.idle → s.busFair →
    (s.hasDevice d ∧ 0 ≤ i ∧ i ≤ 15 → ∃ t, exec (.setintensity d i) s = .next t ∧ t.shadow = s.shadow ∧
      Sends s t [(d.toNat, ⟨10, BitVec.ofNat 8 i.toNat⟩)]) ∧
    (¬ (s.hasDevice d ∧ 0 ≤ i ∧ i ≤ 15) → exec (.setintensity d i) s = .next s)

/-- Rule R123: in range INITDEV sends the 12 transactions of its table in order and leaves the device's rows 0x00 and its chip
SAFE; out of range it changes nothing. The order of the 12 is the spec's decision D15 (log entry 26, PRESUMED), and the data bytes of
opcodes 9, 12 and 15 are the spec's from general knowledge (D12, D13, G1, G2; log entry 4, PRESUMED). -/
def Obligations.InitdevMakesTheDeviceSafe : Prop :=
  ∀ (s : State) (d : Int), s.idle → s.busFair →
    (s.hasDevice d → ∃ t, exec (.initdev d) s = .next t ∧ (∀ r, r < 8 → t.shadowAt d.toNat r = 0x00) ∧
      s.onlyDevice t d.toNat ∧ Sends s t (initTxs d.toNat) ∧ (d.toNat < s.chips.length → t.safe d.toNat)) ∧
    (¬ s.hasDevice d → exec (.initdev d) s = .next s)

/-- Rule R124: in range STARTDEV sends shutdown off, the intensity if it is 0..15, and the eight row clears, and the chip enters
ACTIVE when the intensity was sent; out of range it changes nothing. The make-up and order of STARTDEV are the spec's decisions
D17 and D30 (log entry 26, PRESUMED), and the data byte 0x01 is from general knowledge (D12, G1; log entry 4, PRESUMED). -/
def Obligations.StartdevMakesTheDeviceActive : Prop :=
  ∀ (s : State) (d i : Int), s.idle → s.busFair →
    (s.hasDevice d → ∃ t, exec (.startdev d i) s = .next t ∧ (∀ r, r < 8 → t.shadowAt d.toNat r = 0x00) ∧
      s.onlyDevice t d.toNat ∧
      Sends s t ([(d.toNat, ⟨12, 0x01⟩)] ++
        (if 0 ≤ i ∧ i ≤ 15 then [(d.toNat, ⟨10, BitVec.ofNat 8 i.toNat⟩)] else []) ++ clearTxs d.toNat) ∧
      (0 ≤ i ∧ i ≤ 15 → d.toNat < s.chips.length → t.entersActive d.toNat)) ∧
    (¬ s.hasDevice d → exec (.startdev d i) s = .next s)

/-- Rule R126: ACTIVE outlasts its entry. A device ACTIVE in a history of states is ACTIVE after any instruction, stalled or not,
that cannot write its SHUTDOWN or INTENSITY: row writes, other devices' commands, a bad argument. How the history is kept is log
entry 23 (DEDUCED). -/
def Obligations.ActiveOutlastsItsEntry : Prop :=
  ∀ (i : Instr) (s t : State) (past : List State) (d : Nat), d < s.cfg.n → exec i s = .next t → ¬ touchesPower d s.rxChip i →
    activeNow d (s :: past) → activeNow d (t :: s :: past)

/-- Rule R180: the number of transactions of every command, in and out of range, from every idle state with a fair bus. The rows of
INITDEV and STARTDEV rest on the spec's decisions D15, D17 and D30 (log entry 26, PRESUMED). -/
def Obligations.TransactionCountOfEveryCommand : Prop :=
  ∀ (i : Instr) (s : State), s.idle → s.busFair →
    ∃ t, exec i s = .next t ∧ (txLog t.wire).length = (txLog s.wire).length + txCount s.cfg i

/-! ## Frames at a chip -/

/-- Rule R40 for the named opcodes but NOOP: the chip's register of that opcode takes the data, and no other register, chip or
field changes, the chip's own mark of an unassigned opcode included; with no such chip nothing changes. That a frame stands alone
at one chip is the model's form (log entry 6, DESIGN CHOICE). -/
def Obligations.FrameWritesTheChipsRegister : Prop :=
  ∀ (s : State) (data : Byte),
    ∀ p ∈ ([(1, Instr.digit0), (2, .digit1), (3, .digit2), (4, .digit3), (5, .digit4), (6, .digit5), (7, .digit6),
        (8, .digit7), (9, .decodemode), (10, .intensity), (11, .scanlimit), (12, .shutdown), (15, .displaytest)] :
        List (Nat × (Byte → Instr))),
      ∃ t, exec (p.2 data) s = .next t ∧ { t with chips := s.chips } = s ∧ t.chips.length = s.chips.length ∧
        (∀ m, m ≠ s.rxChip → t.chips[m]? = s.chips[m]?) ∧
        (t.chips[s.rxChip]?).map Chip.disturbed = (s.chips[s.rxChip]?).map Chip.disturbed ∧
        ∀ k j, t.chipReg k j =
          if k = s.rxChip ∧ k < s.chips.length ∧ j = p.1 then some data else s.chipReg k j

/-- Rule R40: a NOOP frame changes nothing, whatever its data. -/
def Obligations.NoopFrameChangesNothing : Prop :=
  ∀ (s : State) (data : Byte), exec (.noop data) s = .next s

/-- Rule R52 as the model takes it (log entry 9): a frame with an unassigned opcode leaves every register of its chip unknown and
everything else as it was. That a waiting frame moves before the other inputs but reset is log entry 11 (DESIGN CHOICE). -/
def Obligations.UnassignedFrameLeavesTheChipUnknown : Prop :=
  ∀ (s : State) (k : Nat) (f : FrameWord) (rest : List (Nat × FrameWord)), s.resetIn = false →
    s.latches = (k, f) :: rest → (f.toNat / 256 = 13 ∨ f.toNat / 256 = 14 ∨ 16 ≤ f.toNat / 256) →
    ∃ t, step s = .next t ∧ { t with chips := s.chips } = { s with latches := rest, rxChip := k } ∧
      (∀ j, t.chipReg k j = none) ∧ ∀ m, m ≠ k → t.chips[m]? = s.chips[m]?

/-! ## The step -/

/-- A step of the idle block with a command word at its port is the meaning of the decoded instruction, the word taken from the
port. That commands come as words is the spec's own decision D2 (log entry 31, PRESUMED). -/
def Obligations.StepRunsTheDecodedCommand : Prop :=
  ∀ (s : State) (w : CmdWord) (rest : List CmdWord) (i : Instr), s.resetIn = false → s.latches = [] → s.busEvents = [] →
    s.seq = none → s.port = w :: rest → decode (.command w) = .ok i → step s = exec i { s with port := rest }

/-- A step with a frame standing at a chip is the meaning of the decoded frame at that chip. The queue of such frames is the
model's own (log entry 6, DESIGN CHOICE). That a waiting frame moves before the other inputs but reset is log entry 11 (DESIGN
CHOICE). -/
def Obligations.StepRunsTheDecodedFrame : Prop :=
  ∀ (s : State) (k : Nat) (f : FrameWord) (rest : List (Nat × FrameWord)) (i : Instr), s.resetIn = false →
    s.latches = (k, f) :: rest → decode (.frame f) = .ok i →
    step s = exec i { s with latches := rest, rxChip := k }

/-- Rules R155 and R152: `exec` of a command in a busy state is refused by name. No step asks for it: a word presented early waits
at the port, as `BusyBlockTakesNoCommand` says (log entry 14, DEDUCED). -/
def Obligations.CommandInABusyBlockIsRefused : Prop :=
  ∀ (i : Instr) (s : State), isCommand i = true → s.busy = true → exec i s = .refused .overlappingCommand

/-- Rule R17: a busy block takes no command word from its port, and answers a next state, unless reset is asserted. The rule says
that no command is accepted; that a word presented early waits at the port and is not lost is the model's reading (log entry 14,
DEDUCED), and that a busy block which stalls answers a next state, itself, is the model's form (log entry 7, DESIGN CHOICE). -/
def Obligations.BusyBlockTakesNoCommand : Prop :=
  ∀ s : State, s.busy = true → s.resetIn = false → ∃ t, step s = .next t ∧ t.port = s.port

/-- Rule R17: `RDATA` is left unchanged by every instruction but GETROW, whatever the bus, and by every step that neither takes a
GETROW from the port nor resets, the resumption of a waiting command included. -/
def Obligations.OnlyGetrowWritesRdata : Prop :=
  (∀ (i : Instr) (s t : State), exec i s = .next t → (∀ d r, i ≠ .getrow d r) → t.rdata = s.rdata) ∧
  ∀ s t : State, step s = .next t → s.turn ≠ .reset →
    (∀ w d r, s.turn = .command w → decode (.command w) ≠ .ok (.getrow d r)) → t.rdata = s.rdata

/-- Rule R3: `N = max(1, COUNT)`, and no step changes it or any other parameter. -/
def Obligations.ConfigurationIsFixed : Prop :=
  ∀ s t : State, step s = .next t → t.cfg = s.cfg ∧ (t.cfg.n : Int) = max 1 s.cfg.count

/-! ## A stalled bus -/

/-- Rules R42 and R177: with no grant coming, SETROW has written its shadow byte and the block is busy, with nothing on the wire
and no chip changed. -/
def Obligations.StalledSetrowIsAheadOfTheChip : Prop :=
  ∀ (s : State) (d r : Int) (v : Byte), s.idle → s.cfg.backend = .block → s.bus.grants = some 0 →
    s.hasDevice d ∧ 0 ≤ r ∧ r ≤ 7 →
    ∃ t, exec (.setrow d r v) s = .next t ∧ t.busy = true ∧ t.shadowAt d.toNat r.toNat = v ∧
      s.onlyCell t d.toNat r.toNat ∧ t.wire = s.wire ∧ t.chips = s.chips ∧ t.rdata = s.rdata ∧ t.csN = s.csN ∧
      t.own = s.own

/-- Rule R78: a block that waits for a grant or for the peripheral, with nothing else presented, stays exactly as it is: no
timeout, no fault. That its step answers the same state is the model's form of the stuck state, to which the rule gives no step
(log entry 7, DESIGN CHOICE). -/
def Obligations.StalledBlockStaysAsItIs : Prop :=
  ∀ (s : State) (q : Sequencer), s.resetIn = false → s.latches = [] → s.busEvents = [] → s.seq = some q →
    s.cfg.backend = .block →
    ((∃ rest, q.wire = .acquire :: rest) ∧ s.bus.grants = some 0 ∨
      (∃ b rest, q.wire = .byte b :: rest) ∧ s.bus.slots = some 0) →
    step s = .next s

/-- Rules R78, "not final", and R160, "can stall like any command": a command stopped anywhere by the bus, and a reset sequence
stopped anywhere, end, once the bus gives again, in the very state they would have ended in without the stall. That what is left
ends in one step is the model's (log entries 7 and 8, DESIGN CHOICE). -/
def Obligations.StallThenGrantEndsAsWithoutStall : Prop :=
  (∀ (i : Instr) (s t u : State), s.idle → s.resetIn = false → s.latches = [] → s.busEvents = [] →
    exec i s = .next t → exec i { s with bus := ⟨none, none⟩ } = .next u →
    (t.seq = none → { t with bus := ⟨none, none⟩ } = u) ∧
    (∀ q, t.seq = some q → step { t with bus := ⟨none, none⟩ } = .next u)) ∧
  ∀ s t u : State, s.idle → s.resetIn = true → s.latches = [] → s.busEvents = [] →
    step s = .next t → step { s with bus := ⟨none, none⟩ } = .next u →
    (t.seq = none → { t with bus := ⟨none, none⟩ } = u) ∧
    (∀ q, t.seq = some q → step { t with bus := ⟨none, none⟩ } = .next u)

/-! ## Reset -/

/-- Rule R160: reset of the idle block clears the wire trace and runs INITDEV for every device in ascending order: every shadow
byte 0x00, every device SAFE with its intensity unknown, the lines at rest, `BUSY` and `RDATA` 0. The order of writes and devices
is the spec's decisions D15 and D16 (log entry 26, PRESUMED), the data bytes of opcodes 9, 12 and 15 (D12, D13, G1, G2; log entry
4) and the levels of the lines (D5; log entry 18) are PRESUMED as well. A reset sequence that stalls has statements of its own.
That reset comes before the other inputs is log entry 11 (DESIGN CHOICE), and when a chip latches log entry 30 (D26, PRESUMED). -/
def Obligations.ResetSequenceMakesEveryDeviceSafe : Prop :=
  ∀ s : State, s.idle → s.busFair → s.chainMatches → s.resetIn = true →
    ∃ t, step s = .next t ∧ t.wire = sentWire s.cfg ((List.range s.cfg.n).flatMap initTxs) ∧
      (∀ d r, d < s.cfg.n → r < 8 → t.shadowAt d r = 0x00) ∧
      (∀ d, d < s.cfg.n → t.safe d ∧ t.chipReg d 10 = none) ∧
      t.csN = true ∧ t.sclk = false ∧ t.mosi = false ∧ t.own = false ∧ t.busy = false ∧ t.rdata = 0x00 ∧
      t.resetIn = false ∧ t.cfg = s.cfg ∧ t.chips.length = s.chips.length ∧ t.port = s.port ∧ t.latches = s.latches ∧
      t.busEvents = s.busEvents ∧ t.bus = s.bus ∧ t.rxChip = s.rxChip

/-- Rules R160 and R126: reset of the idle BLOCK block whose environment gives no grant. The sequence waits before its first
event: the block is busy, the trace is empty, `RDATA` is 0, the lines are at rest and every chip is UNINITIALIZED. The reset
levels of the lines are the spec's decision D5 (log entry 18, PRESUMED), and that the registers are then unknown is the column "at
reset" of R27 (log entry 10). What the shadow holds is not said. That reset comes before the other inputs is log entry 11 (DESIGN
CHOICE). -/
def Obligations.StalledResetIsBusyAndUninitialized : Prop :=
  ∀ s : State, s.idle → s.cfg.backend = .block → s.bus.grants = some 0 → s.resetIn = true →
    ∃ t, step s = .next t ∧ t.busy = true ∧ t.wire = [] ∧ t.rdata = 0x00 ∧ t.csN = true ∧ t.sclk = false ∧ t.mosi = false ∧
      t.own = false ∧ (∀ k, k < s.chips.length → t.uninitialized k) ∧ t.chips.length = s.chips.length ∧ t.resetIn = false ∧
      t.cfg = s.cfg ∧ t.bus = s.bus ∧ t.port = s.port ∧ t.latches = s.latches ∧ t.busEvents = s.busEvents ∧
      t.rxChip = s.rxChip

/-- Rule R161: reset asserted while a command runs has no meaning and is refused by name. The refusal is the spec's decision D31
(log entry 15, DEDUCED), and that reset comes before the other inputs is log entry 11 (DESIGN CHOICE). -/
def Obligations.ResetWhileBusyIsRefused : Prop :=
  ∀ s : State, s.resetIn = true → s.busy = true → step s = .refused .resetWhileBusy

/-- Rule R27, column "after the reset sequence", for every configuration, as the launch state that rule R161 allows (log entry 5).
The data bytes (log entry 4), the order of the trace (log entry 26) and the levels of the lines (log entry 18) are PRESUMED. -/
def Obligations.ResetStateIsTheResetTable : Prop :=
  ∀ c : Config, let s := State.afterReset c
    s.cfg = c ∧ (∀ d r, s.shadowAt d r = 0x00) ∧ s.csN = true ∧ s.sclk = false ∧ s.mosi = false ∧ s.busy = false ∧
    s.rdata = 0x00 ∧ s.own = false ∧ s.wire = sentWire c ((List.range c.n).flatMap initTxs) ∧
    (txLog s.wire).length = 12 * c.n ∧ s.chips.length = c.n ∧ ∀ d, d < c.n → s.safe d ∧ s.chipReg d 10 = none

/-! ## Invariants -/

/-- Rule R13: every step keeps the shadow invariant, whether the bus stalls or not: in every idle moment every cell is mirrored,
and in a waiting command every cell but the one its transaction carries. That a chip latches at the release of chip select is the
spec's decision D26 (log entry 30, PRESUMED). The bus is assumed never to lose a byte the block sends (R79, D25; log entry 22,
DEDUCED), and the order of waiting inputs is log entry 11 (DESIGN CHOICE). -/
def Obligations.ShadowMirrorsTheChips : Prop :=
  ∀ s t : State, MirrorInv s → step s = .next t → MirrorInv t

/-- Rule R13: the invariant holds at the end of the reset sequence, for every configuration. -/
def Obligations.ShadowMirrorsTheChipsAfterReset : Prop := ∀ c : Config, MirrorInv (State.afterReset c)

/-- Every step, stalled or not, keeps the states well formed: storage canonical and inside its space, the shift path as long as
the chips, chip select released and ownership given back whenever no command runs, a wait only inside a transaction. That chip
select is 1 when released is the spec's decision D5, and that it is released before ownership is given back D7 (log entry 18,
PRESUMED). -/
def Obligations.StepKeepsStatesWellFormed : Prop :=
  ∀ s t : State, s.Wf → step s = .next t → t.Wf

/-- The state after reset is well formed, for every configuration. -/
def Obligations.ResetStateIsWellFormed : Prop := ∀ c : Config, (State.afterReset c).Wf
end

