-- ==== Sys2Proof/Laws/Memory.lean ====
section
/-! SUPPORT. The laws of sparse storage: reading what was written, every other address as before, and the canonical
form kept. -/

namespace Sys2Proof.Machine

/-! ## Lists of cells -/

theorem findCell_putCell_same (m : List Host.Cell) (k : Nat) (v : Byte) : findCell (putCell m k v) k = some v := by
  induction m with
  | nil => simp [putCell, findCell]
  | cons x rest ih =>
    obtain ⟨a, w⟩ := x
    unfold putCell
    split
    · simp [findCell]
    · split
      · simp [findCell]
      · next h => simp [findCell, h, ih]

theorem findCell_putCell_other (m : List Host.Cell) {k j : Nat} (v : Byte) (h : j ≠ k) :
    findCell (putCell m k v) j = findCell m j := by
  induction m with
  | nil => simp [putCell, findCell, h]
  | cons x rest ih =>
    obtain ⟨a, w⟩ := x
    unfold putCell
    split
    · simp [findCell, h]
    · split
      · next e => subst e; simp [findCell, h]
      · simp [findCell, ih]

theorem findCell_dropCell_same (m : List Host.Cell) (k : Nat) : findCell (dropCell m k) k = none := by
  induction m with
  | nil => rfl
  | cons x rest ih =>
    obtain ⟨a, w⟩ := x
    by_cases h : a = k
    · simpa [dropCell, h] using ih
    · simpa [dropCell, h, findCell, Ne.symm h] using ih

theorem findCell_dropCell_other (m : List Host.Cell) {k j : Nat} (h : j ≠ k) :
    findCell (dropCell m k) j = findCell m j := by
  induction m with
  | nil => rfl
  | cons x rest ih =>
    obtain ⟨a, w⟩ := x
    by_cases e : a = k
    · subst e
      simpa [dropCell, findCell, h] using ih
    · by_cases ej : j = a
      · simp [dropCell, e, findCell, ej]
      · simpa [dropCell, e, findCell, ej] using ih

theorem mem_putCell {m : List Host.Cell} {k : Nat} {v : Byte} {x : Host.Cell} (h : x ∈ putCell m k v) :
    x = (k, v) ∨ x ∈ m := by
  induction m with
  | nil => simpa [putCell] using h
  | cons y rest ih =>
    obtain ⟨a, w⟩ := y
    unfold putCell at h
    split at h
    · simpa using h
    · split at h
      · rcases List.mem_cons.mp h with h | h
        · exact .inl h
        · exact .inr (List.mem_cons_of_mem _ h)
      · rcases List.mem_cons.mp h with h | h
        · exact .inr (h ▸ List.mem_cons_self ..)
        · exact (ih h).imp_right (List.mem_cons_of_mem _)

theorem cellsRise_iff (m : List Host.Cell) : cellsRise m = true ↔ m.Pairwise fun x y => x.1 < y.1 := by
  induction m with
  | nil => simp [cellsRise]
  | cons x rest ih =>
    cases rest with
    | nil => simp [cellsRise]
    | cons y rest =>
      simp only [cellsRise, Bool.and_eq_true, decide_eq_true_eq, ih]
      refine ⟨fun ⟨hxy, hp⟩ => ?_, fun hp => ?_⟩
      · refine List.pairwise_cons.mpr ⟨fun z hz => ?_, hp⟩
        rcases List.mem_cons.mp hz with rfl | hz
        · exact hxy
        · exact Nat.lt_trans hxy ((List.pairwise_cons.mp hp).1 z hz)
      · exact ⟨(List.pairwise_cons.mp hp).1 y (List.mem_cons_self ..), (List.pairwise_cons.mp hp).2⟩

theorem cellsRise_putCell {m : List Host.Cell} (k : Nat) (v : Byte) (h : cellsRise m = true) :
    cellsRise (putCell m k v) = true := by
  rw [cellsRise_iff] at *
  induction m with
  | nil => simp [putCell]
  | cons x rest ih =>
    obtain ⟨a, w⟩ := x
    obtain ⟨hx, hr⟩ := List.pairwise_cons.mp h
    unfold putCell
    split
    · next hk =>
      refine List.pairwise_cons.mpr ⟨fun z hz => ?_, h⟩
      rcases List.mem_cons.mp hz with rfl | hz
      · exact hk
      · exact Nat.lt_trans hk (hx z hz)
    · split
      · next hk => subst hk; exact List.pairwise_cons.mpr ⟨hx, hr⟩
      · next h1 h2 =>
        refine List.pairwise_cons.mpr ⟨fun z hz => ?_, ih hr⟩
        rcases mem_putCell hz with rfl | hz
        · show a < k
          omega
        · exact hx z hz

theorem cellsRise_dropCell {m : List Host.Cell} (k : Nat) (h : cellsRise m = true) :
    cellsRise (dropCell m k) = true := by
  rw [cellsRise_iff] at *
  exact h.filter _

/-! ## The SHADOW FILE -/

theorem Memory.read_write_same (m : Memory) (a : Nat) (v : Byte) : Memory.read (Memory.write m a v) a = v := by
  unfold Memory.read Memory.write
  split
  · next h => simp [findCell_dropCell_same, h]
  · simp [findCell_putCell_same]

theorem Memory.read_write_other (m : Memory) {a b : Nat} (v : Byte) (h : b ≠ a) :
    Memory.read (Memory.write m a v) b = Memory.read m b := by
  unfold Memory.read Memory.write
  split
  · rw [findCell_dropCell_other m h]
  · rw [findCell_putCell_other m v h]

theorem Memory.mem_write {m : Memory} {a : Nat} {v : Byte} {x : Host.Cell} (h : x ∈ Memory.write m a v) :
    (x = (a, v) ∧ v ≠ Memory.unlisted) ∨ x ∈ m := by
  unfold Memory.write at h
  split at h
  · exact .inr (List.mem_of_mem_filter h)
  · next hv => exact (mem_putCell h).imp_left fun e => ⟨e, hv⟩

/-- Every write keeps the canonical form. -/
theorem Memory.wf_write {m : Memory} (a : Nat) (v : Byte) (h : Memory.wf m = true) :
    Memory.wf (Memory.write m a v) = true := by
  simp only [Memory.wf, Bool.and_eq_true, List.all_eq_true, decide_eq_true_eq] at *
  refine ⟨?_, fun x hx => ?_⟩
  · unfold Memory.write
    split
    · exact cellsRise_dropCell a h.1
    · exact cellsRise_putCell a v h.1
  · rcases Memory.mem_write hx with ⟨rfl, hv⟩ | hx
    · exact hv
    · exact h.2 x hx

theorem Memory.wf_reset : Memory.wf State.reset.shadow = true := rfl

theorem shadowAddr_inj {d r d' r' : Nat} (hr : r < 8) (hr' : r' < 8) (h : shadowAddr d r = shadowAddr d' r') :
    d = d' ∧ r = r' := by
  simp only [shadowAddr, rows] at h
  omega

theorem State.shadowAt_putShadow_same (s : State) (d r : Nat) (v : Byte) : (s.putShadow d r v).shadowAt d r = v :=
  Memory.read_write_same ..

theorem State.read_putShadow_other (s : State) {d r a : Nat} (v : Byte) (h : a ≠ shadowAddr d r) :
    Memory.read (s.putShadow d r v).shadow a = Memory.read s.shadow a :=
  Memory.read_write_other _ _ h

/-! ## The chips -/

theorem Chip.read_latch (c : Chip) (op data : Byte) (j : Nat) (ha : op = opNoop ∨ assignedOpcode op = true) :
    (c.latch op data).read j = if op ≠ opNoop ∧ op.toNat = j then some data else c.read j := by
  unfold Chip.latch Chip.read
  split
  · next h => simp [h]
  · next h =>
    rw [if_pos (ha.resolve_left h)]
    by_cases hj : op.toNat = j
    · subst hj
      simp [h, findCell_putCell_same]
    · simp [hj, findCell_putCell_other _ _ (Ne.symm hj)]

theorem Chip.latch_noop (c : Chip) (data : Byte) : c.latch opNoop data = c := by simp [Chip.latch]

end Sys2Proof.Machine
end

