-- ==== Sys2Proof/Laws/State.lean ====
section
/-! SUPPORT. One lemma per field of `State` for each named update: what the update leaves there. -/

namespace Sys2Proof.Machine

/-! ## `putShadow` -/

@[simp] theorem State.putShadow_cfg (s : State) (d r : Nat) (v : Byte) :
    (s.putShadow d r v).cfg = s.cfg := rfl
@[simp] theorem State.putShadow_shadow (s : State) (d r : Nat) (v : Byte) :
    (s.putShadow d r v).shadow = Memory.write s.shadow (shadowAddr d r) v := rfl
@[simp] theorem State.putShadow_rdata (s : State) (d r : Nat) (v : Byte) :
    (s.putShadow d r v).rdata = s.rdata := rfl
@[simp] theorem State.putShadow_csN (s : State) (d r : Nat) (v : Byte) :
    (s.putShadow d r v).csN = s.csN := rfl
@[simp] theorem State.putShadow_sclk (s : State) (d r : Nat) (v : Byte) :
    (s.putShadow d r v).sclk = s.sclk := rfl
@[simp] theorem State.putShadow_mosi (s : State) (d r : Nat) (v : Byte) :
    (s.putShadow d r v).mosi = s.mosi := rfl
@[simp] theorem State.putShadow_own (s : State) (d r : Nat) (v : Byte) :
    (s.putShadow d r v).own = s.own := rfl
@[simp] theorem State.putShadow_seq (s : State) (d r : Nat) (v : Byte) :
    (s.putShadow d r v).seq = s.seq := rfl
@[simp] theorem State.putShadow_wire (s : State) (d r : Nat) (v : Byte) :
    (s.putShadow d r v).wire = s.wire := rfl
@[simp] theorem State.putShadow_chips (s : State) (d r : Nat) (v : Byte) :
    (s.putShadow d r v).chips = s.chips := rfl
@[simp] theorem State.putShadow_chain (s : State) (d r : Nat) (v : Byte) :
    (s.putShadow d r v).chain = s.chain := rfl
@[simp] theorem State.putShadow_bus (s : State) (d r : Nat) (v : Byte) :
    (s.putShadow d r v).bus = s.bus := rfl
@[simp] theorem State.putShadow_rxChip (s : State) (d r : Nat) (v : Byte) :
    (s.putShadow d r v).rxChip = s.rxChip := rfl
@[simp] theorem State.putShadow_port (s : State) (d r : Nat) (v : Byte) :
    (s.putShadow d r v).port = s.port := rfl
@[simp] theorem State.putShadow_latches (s : State) (d r : Nat) (v : Byte) :
    (s.putShadow d r v).latches = s.latches := rfl
@[simp] theorem State.putShadow_busEvents (s : State) (d r : Nat) (v : Byte) :
    (s.putShadow d r v).busEvents = s.busEvents := rfl
@[simp] theorem State.putShadow_resetIn (s : State) (d r : Nat) (v : Byte) :
    (s.putShadow d r v).resetIn = s.resetIn := rfl

/-! ## `putRdata` -/

@[simp] theorem State.putRdata_cfg (s : State) (v : Byte) :
    (s.putRdata v).cfg = s.cfg := rfl
@[simp] theorem State.putRdata_shadow (s : State) (v : Byte) :
    (s.putRdata v).shadow = s.shadow := rfl
@[simp] theorem State.putRdata_rdata (s : State) (v : Byte) :
    (s.putRdata v).rdata = v := rfl
@[simp] theorem State.putRdata_csN (s : State) (v : Byte) :
    (s.putRdata v).csN = s.csN := rfl
@[simp] theorem State.putRdata_sclk (s : State) (v : Byte) :
    (s.putRdata v).sclk = s.sclk := rfl
@[simp] theorem State.putRdata_mosi (s : State) (v : Byte) :
    (s.putRdata v).mosi = s.mosi := rfl
@[simp] theorem State.putRdata_own (s : State) (v : Byte) :
    (s.putRdata v).own = s.own := rfl
@[simp] theorem State.putRdata_seq (s : State) (v : Byte) :
    (s.putRdata v).seq = s.seq := rfl
@[simp] theorem State.putRdata_wire (s : State) (v : Byte) :
    (s.putRdata v).wire = s.wire := rfl
@[simp] theorem State.putRdata_chips (s : State) (v : Byte) :
    (s.putRdata v).chips = s.chips := rfl
@[simp] theorem State.putRdata_chain (s : State) (v : Byte) :
    (s.putRdata v).chain = s.chain := rfl
@[simp] theorem State.putRdata_bus (s : State) (v : Byte) :
    (s.putRdata v).bus = s.bus := rfl
@[simp] theorem State.putRdata_rxChip (s : State) (v : Byte) :
    (s.putRdata v).rxChip = s.rxChip := rfl
@[simp] theorem State.putRdata_port (s : State) (v : Byte) :
    (s.putRdata v).port = s.port := rfl
@[simp] theorem State.putRdata_latches (s : State) (v : Byte) :
    (s.putRdata v).latches = s.latches := rfl
@[simp] theorem State.putRdata_busEvents (s : State) (v : Byte) :
    (s.putRdata v).busEvents = s.busEvents := rfl
@[simp] theorem State.putRdata_resetIn (s : State) (v : Byte) :
    (s.putRdata v).resetIn = s.resetIn := rfl

/-! ## `latchAt` -/

@[simp] theorem State.latchAt_cfg (s : State) (k : Nat) (op data : Byte) :
    (s.latchAt k op data).cfg = s.cfg := rfl
@[simp] theorem State.latchAt_shadow (s : State) (k : Nat) (op data : Byte) :
    (s.latchAt k op data).shadow = s.shadow := rfl
@[simp] theorem State.latchAt_rdata (s : State) (k : Nat) (op data : Byte) :
    (s.latchAt k op data).rdata = s.rdata := rfl
@[simp] theorem State.latchAt_csN (s : State) (k : Nat) (op data : Byte) :
    (s.latchAt k op data).csN = s.csN := rfl
@[simp] theorem State.latchAt_sclk (s : State) (k : Nat) (op data : Byte) :
    (s.latchAt k op data).sclk = s.sclk := rfl
@[simp] theorem State.latchAt_mosi (s : State) (k : Nat) (op data : Byte) :
    (s.latchAt k op data).mosi = s.mosi := rfl
@[simp] theorem State.latchAt_own (s : State) (k : Nat) (op data : Byte) :
    (s.latchAt k op data).own = s.own := rfl
@[simp] theorem State.latchAt_seq (s : State) (k : Nat) (op data : Byte) :
    (s.latchAt k op data).seq = s.seq := rfl
@[simp] theorem State.latchAt_wire (s : State) (k : Nat) (op data : Byte) :
    (s.latchAt k op data).wire = s.wire := rfl
@[simp] theorem State.latchAt_chips (s : State) (k : Nat) (op data : Byte) :
    (s.latchAt k op data).chips = s.chips.modify k fun c => c.latch op data := rfl
@[simp] theorem State.latchAt_chain (s : State) (k : Nat) (op data : Byte) :
    (s.latchAt k op data).chain = s.chain := rfl
@[simp] theorem State.latchAt_bus (s : State) (k : Nat) (op data : Byte) :
    (s.latchAt k op data).bus = s.bus := rfl
@[simp] theorem State.latchAt_rxChip (s : State) (k : Nat) (op data : Byte) :
    (s.latchAt k op data).rxChip = s.rxChip := rfl
@[simp] theorem State.latchAt_port (s : State) (k : Nat) (op data : Byte) :
    (s.latchAt k op data).port = s.port := rfl
@[simp] theorem State.latchAt_latches (s : State) (k : Nat) (op data : Byte) :
    (s.latchAt k op data).latches = s.latches := rfl
@[simp] theorem State.latchAt_busEvents (s : State) (k : Nat) (op data : Byte) :
    (s.latchAt k op data).busEvents = s.busEvents := rfl
@[simp] theorem State.latchAt_resetIn (s : State) (k : Nat) (op data : Byte) :
    (s.latchAt k op data).resetIn = s.resetIn := rfl

/-! ## `popPort` -/

@[simp] theorem State.popPort_cfg (s : State) :
    s.popPort.cfg = s.cfg := rfl
@[simp] theorem State.popPort_shadow (s : State) :
    s.popPort.shadow = s.shadow := rfl
@[simp] theorem State.popPort_rdata (s : State) :
    s.popPort.rdata = s.rdata := rfl
@[simp] theorem State.popPort_csN (s : State) :
    s.popPort.csN = s.csN := rfl
@[simp] theorem State.popPort_sclk (s : State) :
    s.popPort.sclk = s.sclk := rfl
@[simp] theorem State.popPort_mosi (s : State) :
    s.popPort.mosi = s.mosi := rfl
@[simp] theorem State.popPort_own (s : State) :
    s.popPort.own = s.own := rfl
@[simp] theorem State.popPort_seq (s : State) :
    s.popPort.seq = s.seq := rfl
@[simp] theorem State.popPort_wire (s : State) :
    s.popPort.wire = s.wire := rfl
@[simp] theorem State.popPort_chips (s : State) :
    s.popPort.chips = s.chips := rfl
@[simp] theorem State.popPort_chain (s : State) :
    s.popPort.chain = s.chain := rfl
@[simp] theorem State.popPort_bus (s : State) :
    s.popPort.bus = s.bus := rfl
@[simp] theorem State.popPort_rxChip (s : State) :
    s.popPort.rxChip = s.rxChip := rfl
@[simp] theorem State.popPort_port (s : State) :
    s.popPort.port = s.port.tail := rfl
@[simp] theorem State.popPort_latches (s : State) :
    s.popPort.latches = s.latches := rfl
@[simp] theorem State.popPort_busEvents (s : State) :
    s.popPort.busEvents = s.busEvents := rfl
@[simp] theorem State.popPort_resetIn (s : State) :
    s.popPort.resetIn = s.resetIn := rfl

/-! ## `popLatch` -/

@[simp] theorem State.popLatch_cfg (s : State) (k : Nat) :
    (s.popLatch k).cfg = s.cfg := rfl
@[simp] theorem State.popLatch_shadow (s : State) (k : Nat) :
    (s.popLatch k).shadow = s.shadow := rfl
@[simp] theorem State.popLatch_rdata (s : State) (k : Nat) :
    (s.popLatch k).rdata = s.rdata := rfl
@[simp] theorem State.popLatch_csN (s : State) (k : Nat) :
    (s.popLatch k).csN = s.csN := rfl
@[simp] theorem State.popLatch_sclk (s : State) (k : Nat) :
    (s.popLatch k).sclk = s.sclk := rfl
@[simp] theorem State.popLatch_mosi (s : State) (k : Nat) :
    (s.popLatch k).mosi = s.mosi := rfl
@[simp] theorem State.popLatch_own (s : State) (k : Nat) :
    (s.popLatch k).own = s.own := rfl
@[simp] theorem State.popLatch_seq (s : State) (k : Nat) :
    (s.popLatch k).seq = s.seq := rfl
@[simp] theorem State.popLatch_wire (s : State) (k : Nat) :
    (s.popLatch k).wire = s.wire := rfl
@[simp] theorem State.popLatch_chips (s : State) (k : Nat) :
    (s.popLatch k).chips = s.chips := rfl
@[simp] theorem State.popLatch_chain (s : State) (k : Nat) :
    (s.popLatch k).chain = s.chain := rfl
@[simp] theorem State.popLatch_bus (s : State) (k : Nat) :
    (s.popLatch k).bus = s.bus := rfl
@[simp] theorem State.popLatch_rxChip (s : State) (k : Nat) :
    (s.popLatch k).rxChip = k := rfl
@[simp] theorem State.popLatch_port (s : State) (k : Nat) :
    (s.popLatch k).port = s.port := rfl
@[simp] theorem State.popLatch_latches (s : State) (k : Nat) :
    (s.popLatch k).latches = s.latches.tail := rfl
@[simp] theorem State.popLatch_busEvents (s : State) (k : Nat) :
    (s.popLatch k).busEvents = s.busEvents := rfl
@[simp] theorem State.popLatch_resetIn (s : State) (k : Nat) :
    (s.popLatch k).resetIn = s.resetIn := rfl

/-! ## `popBusEvent` -/

@[simp] theorem State.popBusEvent_cfg (s : State) :
    s.popBusEvent.cfg = s.cfg := rfl
@[simp] theorem State.popBusEvent_shadow (s : State) :
    s.popBusEvent.shadow = s.shadow := rfl
@[simp] theorem State.popBusEvent_rdata (s : State) :
    s.popBusEvent.rdata = s.rdata := rfl
@[simp] theorem State.popBusEvent_csN (s : State) :
    s.popBusEvent.csN = s.csN := rfl
@[simp] theorem State.popBusEvent_sclk (s : State) :
    s.popBusEvent.sclk = s.sclk := rfl
@[simp] theorem State.popBusEvent_mosi (s : State) :
    s.popBusEvent.mosi = s.mosi := rfl
@[simp] theorem State.popBusEvent_own (s : State) :
    s.popBusEvent.own = s.own := rfl
@[simp] theorem State.popBusEvent_seq (s : State) :
    s.popBusEvent.seq = s.seq := rfl
@[simp] theorem State.popBusEvent_wire (s : State) :
    s.popBusEvent.wire = s.wire := rfl
@[simp] theorem State.popBusEvent_chips (s : State) :
    s.popBusEvent.chips = s.chips := rfl
@[simp] theorem State.popBusEvent_chain (s : State) :
    s.popBusEvent.chain = s.chain := rfl
@[simp] theorem State.popBusEvent_bus (s : State) :
    s.popBusEvent.bus = s.bus := rfl
@[simp] theorem State.popBusEvent_rxChip (s : State) :
    s.popBusEvent.rxChip = s.rxChip := rfl
@[simp] theorem State.popBusEvent_port (s : State) :
    s.popBusEvent.port = s.port := rfl
@[simp] theorem State.popBusEvent_latches (s : State) :
    s.popBusEvent.latches = s.latches := rfl
@[simp] theorem State.popBusEvent_busEvents (s : State) :
    s.popBusEvent.busEvents = s.busEvents.tail := rfl
@[simp] theorem State.popBusEvent_resetIn (s : State) :
    s.popBusEvent.resetIn = s.resetIn := rfl

/-! ## `atReset` -/

@[simp] theorem State.atReset_cfg (s : State) :
    s.atReset.cfg = s.cfg := rfl
@[simp] theorem State.atReset_shadow (s : State) :
    s.atReset.shadow = s.shadow := rfl
@[simp] theorem State.atReset_rdata (s : State) :
    s.atReset.rdata = 0x00 := rfl
@[simp] theorem State.atReset_csN (s : State) :
    s.atReset.csN = true := rfl
@[simp] theorem State.atReset_sclk (s : State) :
    s.atReset.sclk = false := rfl
@[simp] theorem State.atReset_mosi (s : State) :
    s.atReset.mosi = false := rfl
@[simp] theorem State.atReset_own (s : State) :
    s.atReset.own = false := rfl
@[simp] theorem State.atReset_seq (s : State) :
    s.atReset.seq = none := rfl
@[simp] theorem State.atReset_wire (s : State) :
    s.atReset.wire = [] := rfl
@[simp] theorem State.atReset_chips (s : State) :
    s.atReset.chips = s.chips.map fun _ => Chip.unknown := rfl
@[simp] theorem State.atReset_chain (s : State) :
    s.atReset.chain = s.chain := rfl
@[simp] theorem State.atReset_bus (s : State) :
    s.atReset.bus = s.bus := rfl
@[simp] theorem State.atReset_rxChip (s : State) :
    s.atReset.rxChip = s.rxChip := rfl
@[simp] theorem State.atReset_port (s : State) :
    s.atReset.port = s.port := rfl
@[simp] theorem State.atReset_latches (s : State) :
    s.atReset.latches = s.latches := rfl
@[simp] theorem State.atReset_busEvents (s : State) :
    s.atReset.busEvents = s.busEvents := rfl
@[simp] theorem State.atReset_resetIn (s : State) :
    s.atReset.resetIn = false := rfl

/-! ## `applyBusEvent` changes the bus and nothing else -/

@[simp] theorem State.applyBusEvent_cfg (s : State) (e : BusEvent) :
    (s.applyBusEvent e).cfg = s.cfg := by cases e <;> rfl
@[simp] theorem State.applyBusEvent_shadow (s : State) (e : BusEvent) :
    (s.applyBusEvent e).shadow = s.shadow := by cases e <;> rfl
@[simp] theorem State.applyBusEvent_rdata (s : State) (e : BusEvent) :
    (s.applyBusEvent e).rdata = s.rdata := by cases e <;> rfl
@[simp] theorem State.applyBusEvent_csN (s : State) (e : BusEvent) :
    (s.applyBusEvent e).csN = s.csN := by cases e <;> rfl
@[simp] theorem State.applyBusEvent_sclk (s : State) (e : BusEvent) :
    (s.applyBusEvent e).sclk = s.sclk := by cases e <;> rfl
@[simp] theorem State.applyBusEvent_mosi (s : State) (e : BusEvent) :
    (s.applyBusEvent e).mosi = s.mosi := by cases e <;> rfl
@[simp] theorem State.applyBusEvent_own (s : State) (e : BusEvent) :
    (s.applyBusEvent e).own = s.own := by cases e <;> rfl
@[simp] theorem State.applyBusEvent_seq (s : State) (e : BusEvent) :
    (s.applyBusEvent e).seq = s.seq := by cases e <;> rfl
@[simp] theorem State.applyBusEvent_wire (s : State) (e : BusEvent) :
    (s.applyBusEvent e).wire = s.wire := by cases e <;> rfl
@[simp] theorem State.applyBusEvent_chips (s : State) (e : BusEvent) :
    (s.applyBusEvent e).chips = s.chips := by cases e <;> rfl
@[simp] theorem State.applyBusEvent_chain (s : State) (e : BusEvent) :
    (s.applyBusEvent e).chain = s.chain := by cases e <;> rfl
@[simp] theorem State.applyBusEvent_rxChip (s : State) (e : BusEvent) :
    (s.applyBusEvent e).rxChip = s.rxChip := by cases e <;> rfl
@[simp] theorem State.applyBusEvent_port (s : State) (e : BusEvent) :
    (s.applyBusEvent e).port = s.port := by cases e <;> rfl
@[simp] theorem State.applyBusEvent_latches (s : State) (e : BusEvent) :
    (s.applyBusEvent e).latches = s.latches := by cases e <;> rfl
@[simp] theorem State.applyBusEvent_busEvents (s : State) (e : BusEvent) :
    (s.applyBusEvent e).busEvents = s.busEvents := by cases e <;> rfl
@[simp] theorem State.applyBusEvent_resetIn (s : State) (e : BusEvent) :
    (s.applyBusEvent e).resetIn = s.resetIn := by cases e <;> rfl

/-! ## `settle` writes the sequencer and nothing else -/

@[simp] theorem State.settle_cfg (cmd : Option Instr) (r : State × List Call × List WireOp) :
    (State.settle cmd r).cfg = r.1.cfg := by obtain ⟨s, _ | _, _ | _⟩ := r <;> rfl
@[simp] theorem State.settle_shadow (cmd : Option Instr) (r : State × List Call × List WireOp) :
    (State.settle cmd r).shadow = r.1.shadow := by obtain ⟨s, _ | _, _ | _⟩ := r <;> rfl
@[simp] theorem State.settle_rdata (cmd : Option Instr) (r : State × List Call × List WireOp) :
    (State.settle cmd r).rdata = r.1.rdata := by obtain ⟨s, _ | _, _ | _⟩ := r <;> rfl
@[simp] theorem State.settle_csN (cmd : Option Instr) (r : State × List Call × List WireOp) :
    (State.settle cmd r).csN = r.1.csN := by obtain ⟨s, _ | _, _ | _⟩ := r <;> rfl
@[simp] theorem State.settle_sclk (cmd : Option Instr) (r : State × List Call × List WireOp) :
    (State.settle cmd r).sclk = r.1.sclk := by obtain ⟨s, _ | _, _ | _⟩ := r <;> rfl
@[simp] theorem State.settle_mosi (cmd : Option Instr) (r : State × List Call × List WireOp) :
    (State.settle cmd r).mosi = r.1.mosi := by obtain ⟨s, _ | _, _ | _⟩ := r <;> rfl
@[simp] theorem State.settle_own (cmd : Option Instr) (r : State × List Call × List WireOp) :
    (State.settle cmd r).own = r.1.own := by obtain ⟨s, _ | _, _ | _⟩ := r <;> rfl
@[simp] theorem State.settle_wire (cmd : Option Instr) (r : State × List Call × List WireOp) :
    (State.settle cmd r).wire = r.1.wire := by obtain ⟨s, _ | _, _ | _⟩ := r <;> rfl
@[simp] theorem State.settle_chips (cmd : Option Instr) (r : State × List Call × List WireOp) :
    (State.settle cmd r).chips = r.1.chips := by obtain ⟨s, _ | _, _ | _⟩ := r <;> rfl
@[simp] theorem State.settle_chain (cmd : Option Instr) (r : State × List Call × List WireOp) :
    (State.settle cmd r).chain = r.1.chain := by obtain ⟨s, _ | _, _ | _⟩ := r <;> rfl
@[simp] theorem State.settle_bus (cmd : Option Instr) (r : State × List Call × List WireOp) :
    (State.settle cmd r).bus = r.1.bus := by obtain ⟨s, _ | _, _ | _⟩ := r <;> rfl
@[simp] theorem State.settle_rxChip (cmd : Option Instr) (r : State × List Call × List WireOp) :
    (State.settle cmd r).rxChip = r.1.rxChip := by obtain ⟨s, _ | _, _ | _⟩ := r <;> rfl
@[simp] theorem State.settle_port (cmd : Option Instr) (r : State × List Call × List WireOp) :
    (State.settle cmd r).port = r.1.port := by obtain ⟨s, _ | _, _ | _⟩ := r <;> rfl
@[simp] theorem State.settle_latches (cmd : Option Instr) (r : State × List Call × List WireOp) :
    (State.settle cmd r).latches = r.1.latches := by obtain ⟨s, _ | _, _ | _⟩ := r <;> rfl
@[simp] theorem State.settle_busEvents (cmd : Option Instr) (r : State × List Call × List WireOp) :
    (State.settle cmd r).busEvents = r.1.busEvents := by obtain ⟨s, _ | _, _ | _⟩ := r <;> rfl
@[simp] theorem State.settle_resetIn (cmd : Option Instr) (r : State × List Call × List WireOp) :
    (State.settle cmd r).resetIn = r.1.resetIn := by obtain ⟨s, _ | _, _ | _⟩ := r <;> rfl

theorem State.settle_done (cmd : Option Instr) (s : State) :
    State.settle cmd (s, [], []) = { s with seq := none } := rfl

theorem State.settle_waiting (cmd : Option Instr) (s : State) (calls : List Call) (op : WireOp) (ops : List WireOp) :
    State.settle cmd (s, calls, op :: ops) = { s with seq := some ⟨cmd, calls, op :: ops⟩ } := by cases calls <;> rfl

end Sys2Proof.Machine
end

