-- ==== Sys2Proof/Laws/Wire.lean ====
section
/-! SUPPORT. The views of the wire trace: what a transaction's events add to the byte view, to the view both backends
share and to the transaction log; and the shape of a transaction's frames and bytes. -/

namespace Sys2Proof.Machine

/-! ## Frames and bytes of a transaction -/

theorem txFrames_length (t : Nat) (f : Frame) (n : Nat) : (txFrames t f n).length = n := by
  induction n with
  | zero => rfl
  | succ n ih => simp [txFrames, ih]

theorem frameBytes_length (fs : List Frame) : (frameBytes fs).length = 2 * fs.length := by
  induction fs with
  | nil => rfl
  | cons f fs ih => simp [frameBytes, ih]; omega

theorem txBytes_length (n t : Nat) (f : Frame) : (txBytes n t f).length = 2 * n := by
  simp [txBytes, frameBytes_length, txFrames_length]

theorem frameBytes_append (fs gs : List Frame) : frameBytes (fs ++ gs) = frameBytes fs ++ frameBytes gs := by
  induction fs with
  | nil => rfl
  | cons f fs ih => simp [frameBytes, ih]

theorem framesOf_frameBytes (fs : List Frame) : framesOf (frameBytes fs) = fs := by
  induction fs with
  | nil => rfl
  | cons f fs ih => simp [frameBytes, framesOf, ih]

/-! ## The byte view -/

theorem byteOfBits_bits (b : Byte) :
    byteOfBits [b.getLsbD 7, b.getLsbD 6, b.getLsbD 5, b.getLsbD 4, b.getLsbD 3, b.getLsbD 2, b.getLsbD 1, b.getLsbD 0]
      = b := by
  revert b
  decide

/-- Eight clocked bits are one byte of the byte view. -/
theorem byteViewFrom_byteEvents (level : Bool) (b : Byte) (es : List WireEvent) :
    byteViewFrom level [] (byteEvents b ++ es) = .byte b :: byteViewFrom (b.getLsbD 0) [] es := by
  have h := byteOfBits_bits b
  simp only [byteEvents, bitEvents, List.flatMap_cons, List.flatMap_nil, List.cons_append, List.nil_append, byteViewFrom,
    List.length_cons, List.length_nil, h]
  simp

theorem byteViewFrom_bytes (level : Bool) (bs : List Byte) (es : List WireEvent) :
    ∃ level', byteViewFrom level [] (bs.flatMap byteEvents ++ es) = bs.map .byte ++ byteViewFrom level' [] es := by
  induction bs generalizing level with
  | nil => exact ⟨level, rfl⟩
  | cons b bs ih =>
    obtain ⟨l, hl⟩ := ih (b.getLsbD 0)
    exact ⟨l, by
      rw [List.flatMap_cons, List.append_assoc, byteViewFrom_byteEvents, hl, List.map_cons, List.cons_append]⟩

theorem byteViewFrom_blockBytes (level : Bool) (bs : List Byte) (es : List WireEvent) :
    byteViewFrom level [] (bs.map .byte ++ es) = bs.map .byte ++ byteViewFrom level [] es := by
  induction bs with
  | nil => rfl
  | cons b bs ih => simp [byteViewFrom, ih]

/-- A chip-select event cuts the byte view: whatever came before, a new byte starts after it. -/
theorem byteViewFrom_cut (level : Bool) (bits : List Bool) (w : List WireEvent) (x : Bool) (es : List WireEvent) :
    ∃ level', byteViewFrom level bits (w ++ .cs x :: es) =
      byteViewFrom level bits w ++ .cs x :: byteViewFrom level' [] es := by
  induction w generalizing level bits with
  | nil => exact ⟨level, by simp [byteViewFrom]⟩
  | cons e w ih =>
    cases e with
    | acq => obtain ⟨l, h⟩ := ih level bits; exact ⟨l, by simp [byteViewFrom, h]⟩
    | rel => obtain ⟨l, h⟩ := ih level bits; exact ⟨l, by simp [byteViewFrom, h]⟩
    | cs y => obtain ⟨l, h⟩ := ih level []; exact ⟨l, by simp [byteViewFrom, h]⟩
    | byte b => obtain ⟨l, h⟩ := ih level bits; exact ⟨l, by simp [byteViewFrom, h]⟩
    | mosi b => obtain ⟨l, h⟩ := ih b bits; exact ⟨l, by simp [byteViewFrom, h]⟩
    | sclk b =>
      cases b with
      | false => obtain ⟨l, h⟩ := ih level bits; exact ⟨l, by simp [byteViewFrom, h]⟩
      | true =>
        by_cases hb : bits.length = 7
        · obtain ⟨l, h⟩ := ih level []; exact ⟨l, by simp [byteViewFrom, hb, h]⟩
        · obtain ⟨l, h⟩ := ih level (bits ++ [level]); exact ⟨l, by simp [byteViewFrom, hb, h]⟩

/-- The byte view of one transaction (rules R73, R75). -/
def windowView (backend : Backend) (bytes : List Byte) : List WireEvent :=
  match backend with
  | .bitbang => .cs false :: (bytes.map .byte ++ [.cs true])
  | .block => .acq :: .cs false :: (bytes.map .byte ++ [.cs true, .rel])

theorem txEvents_bitbang (bytes : List Byte) :
    txEvents .bitbang bytes = .cs false :: (bytes.flatMap byteEvents ++ [.cs true]) := by
  simp [txEvents, txOps, opEvents, List.flatMap_append, List.flatMap_map]

theorem txEvents_block (bytes : List Byte) :
    txEvents .block bytes = .acq :: .cs false :: (bytes.map .byte ++ [.cs true, .rel]) := by
  simp [txEvents, txOps, opEvents, List.flatMap_append, List.flatMap_map, ← List.map_eq_flatMap]

/-- The byte view grows by exactly the transaction's window, whatever the trace was. -/
theorem byteView_append_tx (w : List WireEvent) (backend : Backend) (bytes : List Byte) :
    byteView (w ++ txEvents backend bytes) = byteView w ++ windowView backend bytes := by
  cases backend with
  | bitbang =>
    obtain ⟨l, h⟩ := byteViewFrom_cut false [] w false (bytes.flatMap byteEvents ++ [.cs true])
    obtain ⟨l', h'⟩ := byteViewFrom_bytes l bytes [.cs true]
    simp [byteView, txEvents_bitbang, h, h', windowView, byteViewFrom]
  | block =>
    obtain ⟨l, h⟩ := byteViewFrom_cut false [] (w ++ [.acq]) false (bytes.map .byte ++ [.cs true, .rel])
    have hw : ∀ level bits, byteViewFrom level bits (w ++ [.acq]) = byteViewFrom level bits w ++ [.acq] := by
      clear h
      induction w with
      | nil => intros; rfl
      | cons e w ih =>
        intro level bits
        cases e with
        | sclk b => cases b <;> simp [byteViewFrom, ih]; split <;> simp
        | _ => simp [byteViewFrom, ih]
    rw [hw] at h
    simp only [List.append_assoc, List.cons_append, List.nil_append] at h
    simp [byteView, txEvents_block, h, byteViewFrom_blockBytes, windowView, byteViewFrom]

/-- Both backends add the same to the shared view (rule R76). -/
theorem sharedView_append_tx (w : List WireEvent) (backend : Backend) (bytes : List Byte) :
    sharedView (w ++ txEvents backend bytes) =
      sharedView w ++ .cs false :: (bytes.map .byte ++ [.cs true]) := by
  have hb : (bytes.map WireEvent.byte).filter (fun e => decide (e ≠ .acq) && decide (e ≠ .rel)) =
      bytes.map .byte := List.filter_eq_self.mpr (by simp)
  cases backend <;> simp_all [sharedView, byteView_append_tx, windowView]

/-! ## The transaction log -/

theorem txLogFrom_bytes (win bs : List Byte) (es : List WireEvent) :
    txLogFrom (some win) (bs.map .byte ++ es) = txLogFrom (some (win ++ bs)) es := by
  induction bs generalizing win with
  | nil => simp
  | cons b bs ih => simp [txLogFrom, ih]

theorem txLogFrom_cut (win : Option (List Byte)) (w es : List WireEvent) :
    txLogFrom win (w ++ .cs false :: es) = txLogFrom win w ++ txLogFrom (some []) es := by
  induction w generalizing win with
  | nil => cases win <;> simp [txLogFrom]
  | cons e w ih =>
    rcases e with _ | _ | (_ | _) | _ | _ | _ <;> cases win <;> simp [txLogFrom, ih]

/-- The transaction log grows by exactly the transaction's frames. -/
theorem txLog_append_tx (w : List WireEvent) (backend : Backend) (fs : List Frame) :
    txLog (w ++ txEvents backend (frameBytes fs)) = txLog w ++ [fs] := by
  have hacq : ∀ win v, txLogFrom win (v ++ [.acq]) = txLogFrom win v := by
    intro win v
    induction v generalizing win with
    | nil => cases win <;> rfl
    | cons e v ih => rcases e with _ | _ | (_ | _) | _ | _ | _ <;> cases win <;> simp [txLogFrom, ih]
  unfold txLog
  rw [byteView_append_tx]
  cases backend with
  | bitbang =>
    rw [windowView, txLogFrom_cut, txLogFrom_bytes]
    simp [txLogFrom, framesOf_frameBytes]
  | block =>
    have h := txLogFrom_cut none (byteView w ++ [.acq]) ((frameBytes fs).map .byte ++ [.cs true, .rel])
    rw [hacq, txLogFrom_bytes] at h
    simpa [windowView, txLogFrom, framesOf_frameBytes] using h

/-! ## Several transactions -/

theorem sentWire_nil (c : Config) : sentWire c [] = [] := rfl

theorem sentWire_append (c : Config) (a b : List (Nat × Frame)) :
    sentWire c (a ++ b) = sentWire c a ++ sentWire c b := by simp [sentWire]

theorem sentWire_single (c : Config) (d : Nat) (f : Frame) :
    sentWire c [(d, f)] = txEvents c.backend (txBytes c.n d f) := by simp [sentWire]

/-- `TXLOG` grows by one list of frames for each transaction sent. -/
theorem txLog_append_sentWire (w : List WireEvent) (c : Config) (txs : List (Nat × Frame)) :
    txLog (w ++ sentWire c txs) = txLog w ++ txs.map fun x => txFrames x.1 x.2 c.n := by
  induction txs generalizing w with
  | nil => simp [sentWire]
  | cons x txs ih =>
    have h : sentWire c (x :: txs) = sentWire c [x] ++ sentWire c txs := sentWire_append c [x] txs
    rw [h, ← List.append_assoc, ih, sentWire_single, txBytes, txLog_append_tx]
    simp

theorem lastSent_append (a b : List (Nat × Frame)) (k op : Nat) :
    lastSent (a ++ b) k op = (lastSent b k op).or (lastSent a k op) := by
  induction a with
  | nil => simp [lastSent]
  | cons x a ih =>
    simp only [List.cons_append, lastSent, ih]
    cases lastSent b k op <;> simp

theorem lastBit_append (a b : List (Nat × Frame)) (level : Bool) :
    lastBit (a ++ b) level = lastBit b (lastBit a level) := by
  induction a generalizing level with
  | nil => rfl
  | cons x a ih => simp [lastBit, ih]

end Sys2Proof.Machine
end

