-- ==== Sys2Proof/Laws/Run.lean ====
section
/-! SUPPORT. What running wire operations and calls does: what they can never touch, the closed form of a whole
transaction when nothing waits, what it does to every chip, and how runs compose. -/

namespace Sys2Proof.Machine

/-! ## What no wire operation touches -/

/-- The parts of the state that wire operations leave alone, and the number of chips. -/
structure Quiet (s t : State) : Prop where
  cfg : t.cfg = s.cfg
  shadow : t.shadow = s.shadow
  rdata : t.rdata = s.rdata
  seq : t.seq = s.seq
  rxChip : t.rxChip = s.rxChip
  port : t.port = s.port
  latches : t.latches = s.latches
  busEvents : t.busEvents = s.busEvents
  resetIn : t.resetIn = s.resetIn
  chipCount : t.chips.length = s.chips.length

theorem Quiet.refl (s : State) : Quiet s s := ⟨rfl, rfl, rfl, rfl, rfl, rfl, rfl, rfl, rfl, rfl⟩

theorem Quiet.trans {s t u : State} (a : Quiet s t) (b : Quiet t u) : Quiet s u :=
  ⟨b.cfg.trans a.cfg, b.shadow.trans a.shadow, b.rdata.trans a.rdata, b.seq.trans a.seq, b.rxChip.trans a.rxChip,
    b.port.trans a.port, b.latches.trans a.latches, b.busEvents.trans a.busEvents, b.resetIn.trans a.resetIn,
    b.chipCount.trans a.chipCount⟩

theorem latchChips_length (cs : List Chip) (bs : List Byte) : (latchChips cs bs).length = cs.length := by
  induction cs generalizing bs with
  | nil => cases bs <;> rfl
  | cons c cs ih =>
    rcases bs with _ | ⟨a, _ | ⟨b, bs⟩⟩
    · rfl
    · rfl
    · simp [latchChips, ih]

/-- Everything one wire operation can do: it appends its events, leaves `Quiet` alone, and every other field is as
listed for the operation. -/
theorem wireOp_cases {s t : State} {op : WireOp} (h : s.wireOp op = some t) :
    Quiet s t ∧ t.wire = s.wire ++ opEvents s.cfg.backend op := by
  cases op with
  | acquire =>
    simp only [State.wireOp] at h
    split at h
    · cases h
    · cases h; exact ⟨⟨rfl, rfl, rfl, rfl, rfl, rfl, rfl, rfl, rfl, rfl⟩, rfl⟩
  | csLow => cases h; exact ⟨⟨rfl, rfl, rfl, rfl, rfl, rfl, rfl, rfl, rfl, rfl⟩, rfl⟩
  | byte b =>
    simp only [State.wireOp] at h
    split at h
    · cases h; exact ⟨⟨rfl, rfl, rfl, rfl, rfl, rfl, rfl, rfl, rfl, rfl⟩, rfl⟩
    · split at h
      · cases h
      · cases h; exact ⟨⟨rfl, rfl, rfl, rfl, rfl, rfl, rfl, rfl, rfl, rfl⟩, rfl⟩
  | csHigh =>
    cases h
    exact ⟨⟨rfl, rfl, rfl, rfl, rfl, rfl, rfl, rfl, rfl, latchChips_length ..⟩, rfl⟩
  | release => cases h; exact ⟨⟨rfl, rfl, rfl, rfl, rfl, rfl, rfl, rfl, rfl, rfl⟩, rfl⟩

theorem runWire_quiet (s : State) (ops : List WireOp) : Quiet s (s.runWire ops).1 := by
  induction ops generalizing s with
  | nil => exact .refl s
  | cons op ops ih =>
    unfold State.runWire
    split
    · next t h => exact (wireOp_cases h).1.trans (ih t)
    · exact .refl s

theorem runWire_append (s : State) (a b : List WireOp) :
    s.runWire (a ++ b) =
      match s.runWire a with
      | (t, []) => t.runWire b
      | (t, op :: rest) => (t, op :: rest ++ b) := by
  induction a generalizing s with
  | nil => rfl
  | cons op a ih =>
    cases h : s.wireOp op with
    | some t => simp [State.runWire, h, ih]
    | none => simp [State.runWire, h]

/-! ## A whole transaction when nothing waits -/

/-- The state after a whole transaction with these bytes. -/
def State.afterTx (s : State) (bytes : List Byte) : State :=
  { s with
    wire := s.wire ++ txEvents s.cfg.backend bytes
    chain := bytes.foldl (shiftIn s.chips.length) s.chain
    chips := latchChips s.chips (bytes.foldl (shiftIn s.chips.length) s.chain)
    csN := true
    mosi := match s.cfg.backend with
      | .bitbang => bytes.foldl (fun _ b => b.getLsbD 0) s.mosi
      | .block => s.mosi
    sclk := match s.cfg.backend with
      | .bitbang => if bytes = [] then s.sclk else false
      | .block => s.sclk
    own := match s.cfg.backend with
      | .bitbang => s.own
      | .block => false }

theorem runWire_bytes_bitbang (s : State) (bs : List Byte) (hb : s.cfg.backend = .bitbang) :
    s.runWire (bs.map .byte) =
      ({ s with
          mosi := bs.foldl (fun _ b => b.getLsbD 0) s.mosi
          sclk := if bs = [] then s.sclk else false
          chain := bs.foldl (shiftIn s.chips.length) s.chain
          wire := s.wire ++ bs.flatMap byteEvents }, []) := by
  induction bs generalizing s with
  | nil => simp [State.runWire]
  | cons b bs ih =>
    simp only [List.map_cons, State.runWire, State.wireOp, hb, opEvents]
    rw [ih _ (by exact hb)]
    by_cases hn : bs = [] <;> simp [hn]

theorem runWire_bytes_block (s : State) (bs : List Byte) (hb : s.cfg.backend = .block) (hs : s.bus.slots = none) :
    s.runWire (bs.map .byte) =
      ({ s with
          chain := bs.foldl (shiftIn s.chips.length) s.chain
          wire := s.wire ++ bs.map .byte }, []) := by
  induction bs generalizing s with
  | nil => simp [State.runWire]
  | cons b bs ih =>
    have hbus : ({ s.bus with slots := none } : Bus) = s.bus := by rw [← hs]
    simp only [List.map_cons, State.runWire, State.wireOp, hb, hs, Credit.take, opEvents, hbus]
    rw [ih _ (by exact hb) (by exact hs)]
    simp

/-- A transaction on a fair bus runs to its end, in closed form. -/
theorem runWire_tx (s : State) (bytes : List Byte) (hf : s.busFair) :
    s.runWire (txOps s.cfg.backend bytes) = (s.afterTx bytes, []) := by
  cases hb : s.cfg.backend with
  | bitbang =>
    simp only [txOps, State.runWire, State.wireOp, runWire_append]
    rw [runWire_bytes_bitbang _ _ (by exact hb)]
    simp [State.afterTx, hb, opEvents, txEvents_bitbang]
  | block =>
    obtain ⟨hg, hs⟩ := hf.resolve_left (by simp [hb])
    have hbus : ({ s.bus with grants := none } : Bus) = s.bus := by rw [← hg]
    simp only [txOps, State.runWire, State.wireOp, runWire_append, hg, Credit.take, hbus]
    rw [runWire_bytes_block _ _ (by exact hb) (by exact hs)]
    simp [State.afterTx, hb, opEvents, txEvents_block]

/-! ## What a transaction does to the chips -/

/-- Frames as they stand in the shift path, nearest chip first: data byte, then opcode. -/
def nearBytes : List Frame → List Byte
  | [] => []
  | f :: fs => f.data :: f.op :: nearBytes fs

theorem nearBytes_append (fs gs : List Frame) : nearBytes (fs ++ gs) = nearBytes fs ++ nearBytes gs := by
  induction fs with
  | nil => rfl
  | cons f fs ih => simp [nearBytes, ih]

theorem frameBytes_reverse (fs : List Frame) : (frameBytes fs).reverse = nearBytes fs.reverse := by
  induction fs with
  | nil => rfl
  | cons f fs ih => simp [frameBytes, nearBytes_append, ih, nearBytes]

theorem foldl_shiftIn_take (m : Nat) (bs chain : List Byte) :
    (bs.foldl (shiftIn m) chain).take (2 * m) = (bs.reverse ++ chain).take (2 * m) := by
  induction bs generalizing chain with
  | nil => rfl
  | cons b bs ih =>
    rw [List.foldl_cons, ih]
    simp only [shiftIn, List.reverse_cons, List.append_assoc, List.cons_append, List.nil_append, List.take_append]
    congr 1
    rw [List.take_take]
    congr 1
    omega

theorem latchChips_take (cs : List Chip) (bs : List Byte) :
    latchChips cs (bs.take (2 * cs.length)) = latchChips cs bs := by
  induction cs generalizing bs with
  | nil => cases bs <;> rfl
  | cons c cs ih =>
    rcases bs with _ | ⟨a, _ | ⟨b, bs⟩⟩
    · rfl
    · simp [latchChips, Nat.mul_add]
    · have h2 : 2 * (c :: cs).length = 2 * cs.length + 2 := by simp; omega
      rw [h2]
      simp [latchChips, ih]

/-- Chip `k` takes the `k`-th frame of the shift path; chips beyond the frames take what was pushed on to them. -/
theorem latchChips_near (cs : List Chip) (fs : List Frame) (rest : List Byte) (k : Nat) :
    (latchChips cs (nearBytes fs ++ rest))[k]? =
      if h : k < fs.length then (cs[k]?).map fun c => c.latch fs[k].op fs[k].data
      else (latchChips (cs.drop fs.length) rest)[k - fs.length]? := by
  induction fs generalizing cs k with
  | nil => simp [nearBytes]
  | cons f fs ih =>
    cases cs with
    | nil => simp [latchChips]
    | cons c cs =>
      cases k with
      | zero => simp [nearBytes, latchChips]
      | succ k => simp [nearBytes, latchChips, ih]

theorem txFrames_reverse_get (t : Nat) (f : Frame) (n k : Nat) (h : k < n) :
    (txFrames t f n).reverse[k]'(by simpa [txFrames_length] using h) = if k = t then f else Frame.noop := by
  induction n with
  | zero => omega
  | succ n ih =>
    have hl : (txFrames t f n).reverse.length = n := by simp [txFrames_length]
    simp only [txFrames, List.reverse_cons]
    by_cases hk : k < n
    · rw [List.getElem_append_left (by omega), ih hk]
    · have : k = n := by omega
      subst this
      rw [List.getElem_append_right (by omega)]
      simp [txFrames_length]

/-- After a transaction chip `k` of the first `N` has taken the real frame if it is the target and a no-op frame
otherwise (rules R33, R40). -/
theorem afterTx_chips (s : State) (n t : Nat) (f : Frame) (k : Nat) (hk : k < n) :
    (s.afterTx (txBytes n t f)).chips[k]? =
      (s.chips[k]?).map fun c => if k = t then c.latch f.op f.data else c := by
  show (latchChips s.chips _)[k]? = _
  rw [← latchChips_take, foldl_shiftIn_take, latchChips_take, txBytes, frameBytes_reverse, latchChips_near,
    dif_pos (by simpa [txFrames_length] using hk), txFrames_reverse_get t f n k hk]
  by_cases h : k = t
  · simp [h]
  · simp [h, Frame.noop, Chip.latch_noop]

/-- Chips beyond `N` take the frames that the transaction pushed out of the nearer chips (rule R171). -/
theorem afterTx_chips_beyond (s : State) (n t : Nat) (f : Frame) (k : Nat) (hk : n ≤ k) :
    (s.afterTx (txBytes n t f)).chips[k]? = (latchChips (s.chips.drop n) s.chain)[k - n]? := by
  show (latchChips s.chips _)[k]? = _
  rw [← latchChips_take, foldl_shiftIn_take, latchChips_take, txBytes, frameBytes_reverse, latchChips_near,
    dif_neg (by simp [txFrames_length]; omega)]
  simp [txFrames_length]

theorem afterTx_chipReg (s : State) (n t : Nat) (f : Frame) (k op : Nat) (hk : k < n)
    (ha : f.op = opNoop ∨ assignedOpcode f.op = true) :
    (s.afterTx (txBytes n t f)).chipReg k op =
      if k = t ∧ k < s.chips.length ∧ f.op ≠ opNoop ∧ f.op.toNat = op then some f.data else s.chipReg k op := by
  unfold State.chipReg
  rw [afterTx_chips s n t f k hk]
  cases hc : s.chips[k]? with
  | none => simp [List.getElem?_eq_none_iff.mp hc]
  | some c =>
    have hlt : k < s.chips.length := (List.getElem?_eq_some_iff.mp hc).1
    by_cases ht : k = t
    · simp only [Option.map_some, if_pos ht, Option.bind_some, Chip.read_latch c f.op f.data op ha]
      simp [ht, ht ▸ hlt]
    · simp [ht]

/-! ## Runs of calls -/

theorem runCalls_cons (s : State) (c : Call) (cs : List Call) :
    s.runCalls (c :: cs) = (s.beginCall c).1.runRest cs (s.beginCall c).2 := rfl

theorem runCalls_cons_done {s t : State} {c : Call} {cs : List Call}
    (h : (s.beginCall c).1.runWire (s.beginCall c).2 = (t, [])) : s.runCalls (c :: cs) = t.runCalls cs := by
  simp [State.runCalls, h]

theorem runCalls_skip {s : State} {c : Call} (cs : List Call) (h : s.beginCall c = (s, [])) :
    s.runCalls (c :: cs) = s.runCalls cs := by simp [State.runCalls, h, State.runWire]

theorem runCalls_append_done {s t : State} {a : List Call} (b : List Call) (h : s.runCalls a = (t, [], [])) :
    s.runCalls (a ++ b) = t.runCalls b := by
  induction a generalizing s with
  | nil => cases h; rfl
  | cons c a ih =>
    rw [List.cons_append, runCalls_cons]
    rw [runCalls_cons] at h
    unfold State.runRest at *
    split
    · next u hu => rw [hu] at h; exact ih h
    · next u op rest hu => rw [hu] at h; simp at h

/-- `perform` from an idle state whose calls run to their end. -/
theorem perform_done {s t : State} {cmd : Instr} {calls : List Call} (hi : s.idle)
    (h : s.runCalls calls = (t, [], [])) (ht : t.seq = none) : s.perform cmd calls = .next t := by
  have hb : s.busy = false := by simp [State.busy, show s.seq = none from hi]
  have hs : ({ t with seq := none } : State) = t := by rw [← ht]
  simp [State.perform, hb, h, State.settle, hs]

/-- `perform` is refused exactly in a busy state. -/
theorem perform_busy {s : State} (cmd : Instr) (calls : List Call) (h : s.busy = true) :
    s.perform cmd calls = .refused .overlappingCommand := by simp [State.perform, h]

theorem perform_idle {s : State} (cmd : Instr) (calls : List Call) (h : s.idle) :
    s.perform cmd calls = .next (State.settle (some cmd) (s.runCalls calls)) := by
  simp [State.perform, State.busy, show s.seq = none from h]

/-! ## `Sends`: composing transactions -/

theorem Sends.refl {s : State} (h : s.idle) : Sends s s [] := by
  refine ⟨by simp [sentWire], fun k _ _ op => by simp [lastSent], rfl, by simp, by simp, by simp [lastBit], by simp, h,
    rfl, rfl, rfl, rfl, rfl, rfl, rfl, rfl⟩

theorem Sends.trans {s t u : State} {a b : List (Nat × Frame)} (h : Sends s t a) (h' : Sends t u b) :
    Sends s u (a ++ b) := by
  refine ⟨?_, fun k hk hm op => ?_, h'.chipCount.trans h.chipCount, ?_, ?_, ?_, ?_, h'.seq, h'.cfg.trans h.cfg,
    h'.rdata.trans h.rdata, h'.bus.trans h.bus, h'.rxChip.trans h.rxChip, h'.port.trans h.port,
    h'.latches.trans h.latches, h'.busEvents.trans h.busEvents, h'.resetIn.trans h.resetIn⟩
  · rw [h'.wire, h.wire, h.cfg, sentWire_append, List.append_assoc]
  · rw [h'.chips k (by rw [h.cfg]; exact hk) (by rw [h.chipCount]; exact hm), h.chips k hk hm, lastSent_append]
    cases lastSent b k op <;> simp
  · rw [h'.csN, h.csN]
    cases a <;> cases b <;> simp
  · rw [h'.sclk, h.sclk, h.cfg]
    cases a <;> cases b <;> cases s.cfg.backend <;> simp
  · rw [h'.mosi, h.mosi, h.cfg, lastBit_append]
    cases s.cfg.backend <;> simp
  · rw [h'.own, h.own, h.cfg]
    cases a <;> cases b <;> cases s.cfg.backend <;> simp

theorem Sends.busFair {s t : State} {txs : List (Nat × Frame)} (h : Sends s t txs) (hf : s.busFair) : t.busFair := by
  unfold State.busFair at *
  rw [h.cfg, h.bus]
  exact hf

theorem txBytes_lastBit (n t : Nat) (f : Frame) (level : Bool) (hn : 0 < n) :
    (txBytes n t f).foldl (fun _ b => b.getLsbD 0) level = if t = 0 then f.data.getLsbD 0 else false := by
  unfold txBytes
  induction n generalizing level with
  | zero => omega
  | succ n ih =>
    cases n with
    | zero => cases t <;> simp [txFrames, frameBytes, Frame.noop]
    | succ n =>
      have h := ih ((if n + 1 = t then f else Frame.noop).data.getLsbD 0) (by omega)
      simpa only [txFrames, frameBytes, List.foldl_cons] using h

/-- One transaction with a named opcode other than NOOP. -/
theorem Sends.tx {s : State} (hi : s.idle) {d : Nat} (hd : d < s.cfg.n) {f : Frame} (h0 : f.op ≠ opNoop)
    (ha : assignedOpcode f.op = true) : Sends s (s.afterTx (txBytes s.cfg.n d f)) [(d, f)] := by
  have hne : txBytes s.cfg.n d f ≠ [] := by
    intro h
    have := txBytes_length s.cfg.n d f
    rw [h] at this
    simp at this
    omega
  refine ⟨by simp [State.afterTx, sentWire], fun k hk hm op => ?_, latchChips_length .., rfl, ?_, ?_, ?_, hi, rfl, rfl, rfl,
    rfl, rfl, rfl, rfl, rfl⟩
  · rw [afterTx_chipReg s _ d f k op hk (.inr ha)]
    by_cases h1 : k = d
    · subst h1
      by_cases h2 : f.op.toNat = op <;> simp [lastSent, h2, h0, hm]
    · simp [lastSent, h1, Ne.symm h1]
  · cases hb : s.cfg.backend <;> simp [State.afterTx, hb, hne]
  · have := txBytes_lastBit s.cfg.n d f s.mosi (by omega)
    cases hb : s.cfg.backend
    · simp only [State.afterTx, hb, this, lastBit]
      simp
    · simp [State.afterTx, hb]
  · cases hb : s.cfg.backend <;> simp [State.afterTx, hb]

/-! ## The two calls that reach the wire -/

theorem deviceOk_iff (c : Config) (d : Int) : deviceOk c d = true ↔ 0 ≤ d ∧ d < Int.ofNat c.n := by
  simp [deviceOk]

theorem rowOk_iff (r : Int) : rowOk r = true ↔ 0 ≤ r ∧ r ≤ 7 := by simp [rowOk]

theorem nibbleOk_iff (r : Int) : nibbleOk r = true ↔ 0 ≤ r ∧ r ≤ 15 := by simp [nibbleOk]

/-- `Transact` in range on a fair bus (rule R70). -/
theorem transact_runs (s : State) (t : Int) (op data : Byte) (hf : s.busFair) (ht : s.hasDevice t) :
    (s.beginCall (.transact t op data)).1.runWire (s.beginCall (.transact t op data)).2 =
      (s.afterTx (txBytes s.cfg.n t.toNat ⟨op, data⟩), []) := by
  simp only [State.beginCall, transactOps, (deviceOk_iff s.cfg t).mpr ht, if_true]
  exact runWire_tx s _ hf

/-- `Transact` out of range: nothing at all (rule R72). -/
theorem transact_skips (s : State) (t : Int) (op data : Byte) (ht : ¬ s.hasDevice t) :
    s.beginCall (.transact t op data) = (s, []) := by
  have : deviceOk s.cfg t = false := by
    rw [Bool.eq_false_iff, Ne, deviceOk_iff]
    exact ht
  simp [State.beginCall, transactOps, this]

/-- The state after `SetRow` in range on a fair bus. -/
def State.afterSetRow (s : State) (d r : Nat) (v : Byte) : State :=
  (s.putShadow d r v).afterTx (txBytes s.cfg.n d ⟨rowOpcode r, v⟩)

theorem setRow_runs (s : State) (d r : Int) (v : Byte) (hf : s.busFair) (hd : s.hasDevice d) (hr : 0 ≤ r ∧ r ≤ 7) :
    (s.beginSetRow d r v).1.runWire (s.beginSetRow d r v).2 = (s.afterSetRow d.toNat r.toNat v, []) := by
  simp only [State.beginSetRow, (deviceOk_iff s.cfg d).mpr hd, (rowOk_iff r).mpr hr, Bool.and_self, if_true, transactOps]
  exact runWire_tx (s.putShadow d.toNat r.toNat v) _ hf

theorem setRow_skips (s : State) (d r : Int) (v : Byte) (h : ¬ (s.hasDevice d ∧ 0 ≤ r ∧ r ≤ 7)) :
    s.beginSetRow d r v = (s, []) := by
  have : (deviceOk s.cfg d && rowOk r) = false := by
    rw [Bool.eq_false_iff, Ne, Bool.and_eq_true, deviceOk_iff, rowOk_iff]
    exact h
  simp [State.beginSetRow, this]

theorem rowOpcode_named {r : Nat} (h : r < 8) :
    rowOpcode r ≠ opNoop ∧ assignedOpcode (rowOpcode r) = true ∧ (rowOpcode r).toNat = 1 + r := by
  have : ∀ r : Fin 8, rowOpcode r ≠ opNoop ∧ assignedOpcode (rowOpcode r) = true ∧ (rowOpcode r).toNat = 1 + r := by
    decide
  exact this ⟨r, h⟩

/-- `SetRow` in range: one byte, one transaction, no other cell (rules R91, R94). -/
theorem afterSetRow_written {s : State} (hi : s.idle) {d r : Nat} (hd : d < s.cfg.n) (hr : r < 8) (v : Byte) :
    RowWritten s (s.afterSetRow d r v) d r v := by
  obtain ⟨h0, ha, -⟩ := rowOpcode_named hr
  refine ⟨State.shadowAt_putShadow_same s d r v, fun a h => State.read_putShadow_other s v h, ?_⟩
  have h := Sends.tx (s := s.putShadow d r v) (by exact hi) (d := d) (by exact hd) (f := ⟨rowOpcode r, v⟩) h0 ha
  exact ⟨h.wire, h.chips, h.chipCount, h.csN, h.sclk, h.mosi, h.own, h.seq, h.cfg, h.rdata, h.bus, h.rxChip, h.port,
    h.latches, h.busEvents, h.resetIn⟩

end Sys2Proof.Machine
end

