-- ==== Sys2Proof/Laws/Calls.lean ====
section
/-! SUPPORT. One lemma per subroutine call, in range and out of range, on a fair bus; the read port; pixel bits. -/

namespace Sys2Proof.Machine

theorem hasDevice_toNat {s : State} {d : Int} (h : s.hasDevice d) : d.toNat < s.cfg.n := by
  have h0 := h.1
  have h1 := h.2
  simp only [Int.ofNat_eq_natCast] at h1
  omega

theorem rangeOk_iff (s : State) (d r : Int) :
    (deviceOk s.cfg d && rowOk r) = true ↔ s.hasDevice d ∧ 0 ≤ r ∧ r ≤ 7 := by
  rw [Bool.and_eq_true, deviceOk_iff, rowOk_iff]
  rfl

/-! ## The read port -/

theorem getRow_inRange {s : State} {d r : Int} (h : s.hasDevice d ∧ 0 ≤ r ∧ r ≤ 7) :
    getRow s d r = s.shadowAt d.toNat r.toNat := if_pos ((rangeOk_iff s d r).mpr h)

theorem getRow_outOfRange {s : State} {d r : Int} (h : ¬ (s.hasDevice d ∧ 0 ≤ r ∧ r ≤ 7)) :
    getRow s d r = s.cfg.getrowOor := if_neg fun h' => h ((rangeOk_iff s d r).mp h')

theorem execGetrow_idle {s : State} (hi : s.idle) (d r : Int) :
    execGetrow d r s = .next (s.putRdata (getRow s d r)) := by
  have hb : s.busy = false := by simp [State.busy, show s.seq = none from hi]
  simp [execGetrow, hb]

/-! ## The write port -/

theorem runCalls_setRow {s : State} (hf : s.busFair) {d r : Int} (v : Byte) (h : s.hasDevice d ∧ 0 ≤ r ∧ r ≤ 7)
    (cs : List Call) : s.runCalls (.setRow d r v :: cs) = (s.afterSetRow d.toNat r.toNat v).runCalls cs :=
  runCalls_cons_done (setRow_runs s d r v hf h.1 h.2)

theorem runCalls_setRow_skip {s : State} {d r : Int} (v : Byte) (h : ¬ (s.hasDevice d ∧ 0 ≤ r ∧ r ≤ 7))
    (cs : List Call) : s.runCalls (.setRow d r v :: cs) = s.runCalls cs :=
  runCalls_skip cs (setRow_skips s d r v h)

theorem setRow_written {s : State} (hi : s.idle) {d r : Int} (v : Byte) (h : s.hasDevice d ∧ 0 ≤ r ∧ r ≤ 7) :
    RowWritten s (s.afterSetRow d.toNat r.toNat v) d.toNat r.toNat v :=
  afterSetRow_written hi (hasDevice_toNat h.1) (by omega) v

/-! ## Pixels -/

theorem beginCall_setPixel {s : State} {d r c : Int} (on : Bool)
    (h : s.hasDevice d ∧ (0 ≤ r ∧ r ≤ 7) ∧ 0 ≤ c ∧ c ≤ 7) :
    s.beginCall (.setPixel d r c on) =
      s.beginSetRow d r (pixelByte (s.shadowAt d.toNat r.toNat) c.toNat on) := by
  have h' : (deviceOk s.cfg d && rowOk r && rowOk c) = true := by
    rw [Bool.and_eq_true, rangeOk_iff, rowOk_iff]
    exact ⟨⟨h.1, h.2.1⟩, h.2.2⟩
  exact if_pos h'

theorem beginCall_setPixel_skip {s : State} {d r c : Int} (on : Bool)
    (h : ¬ (s.hasDevice d ∧ (0 ≤ r ∧ r ≤ 7) ∧ 0 ≤ c ∧ c ≤ 7)) : s.beginCall (.setPixel d r c on) = (s, []) := by
  have h' : ¬ (deviceOk s.cfg d && rowOk r && rowOk c) = true := by
    rw [Bool.and_eq_true, rangeOk_iff, rowOk_iff]
    exact fun x => h ⟨x.1.1, x.1.2, x.2⟩
  exact if_neg h'

theorem runCalls_setPixel {s : State} (hf : s.busFair) {d r c : Int} (on : Bool)
    (h : s.hasDevice d ∧ (0 ≤ r ∧ r ≤ 7) ∧ 0 ≤ c ∧ c ≤ 7) (cs : List Call) :
    s.runCalls (.setPixel d r c on :: cs) =
      (s.afterSetRow d.toNat r.toNat (pixelByte (s.shadowAt d.toNat r.toNat) c.toNat on)).runCalls cs := by
  apply runCalls_cons_done
  rw [beginCall_setPixel on h]
  exact setRow_runs s d r _ hf h.1 h.2.1

theorem runCalls_setPixel_skip {s : State} {d r c : Int} (on : Bool)
    (h : ¬ (s.hasDevice d ∧ (0 ≤ r ∧ r ≤ 7) ∧ 0 ≤ c ∧ c ≤ 7)) (cs : List Call) :
    s.runCalls (.setPixel d r c on :: cs) = s.runCalls cs :=
  runCalls_skip cs (beginCall_setPixel_skip on h)

/-- The mask of column `c` is bit `7 - c` alone (rules R34, R54). -/
theorem columnMask_bit {c j : Nat} (hc : c < 8) (hj : j < 8) : (columnMask c).getLsbD j = decide (j = 7 - c) := by
  have key : ∀ c j : Fin 8, (columnMask c).getLsbD j = decide (j.val = 7 - c.val) := by decide
  exact key ⟨c, hc⟩ ⟨j, hj⟩

/-- A pixel edit sets bit `7 - c` to `on` and keeps the other seven (rule R100). -/
theorem pixelByte_bits (cur : Byte) {c : Nat} (on : Bool) (hc : c < 8) :
    (pixelByte cur c on).getLsbD (7 - c) = on ∧
      ∀ j, j < 8 → j ≠ 7 - c → (pixelByte cur c on).getLsbD j = cur.getLsbD j := by
  have h7 : (columnMask c).getLsbD (7 - c) = true := by simp [columnMask_bit hc (show 7 - c < 8 by omega)]
  refine ⟨?_, fun j hj hne => ?_⟩
  · cases on <;>
      simp only [pixelByte, BitVec.getLsbD_or, BitVec.getLsbD_and, BitVec.getLsbD_not, h7, if_true, Bool.false_eq_true,
        if_false] <;> simp
  · have hm : (columnMask c).getLsbD j = false := by simp [columnMask_bit hc hj, hne]
    cases on <;>
      simp only [pixelByte, BitVec.getLsbD_or, BitVec.getLsbD_and, BitVec.getLsbD_not, hm, if_true, Bool.false_eq_true,
        if_false] <;> simp [hj]

/-! ## Transact -/

theorem runCalls_transact {s : State} (hf : s.busFair) {t : Int} (op data : Byte) (h : s.hasDevice t)
    (cs : List Call) :
    s.runCalls (.transact t op data :: cs) = (s.afterTx (txBytes s.cfg.n t.toNat ⟨op, data⟩)).runCalls cs :=
  runCalls_cons_done (transact_runs s t op data hf h)

theorem runCalls_transact_skip {s : State} {t : Int} (op data : Byte) (h : ¬ s.hasDevice t) (cs : List Call) :
    s.runCalls (.transact t op data :: cs) = s.runCalls cs :=
  runCalls_skip cs (transact_skips s t op data h)

end Sys2Proof.Machine
end

