-- ==== Sys2Proof/Laws/Decode.lean ====
section
/-! SUPPORT. The fields of words: what each reads as a number, what a built word's fields are, how the match and mask of
rule R57 read as fields, and how decoding a built word goes. -/

namespace Sys2Proof

theorem fieldInt_intField {x : Int} (h : fitsField x = true) : fieldInt (intField x) = x := by
  simp only [fitsField, Bool.and_eq_true, decide_eq_true_eq] at h
  simp only [fieldInt, intField, BitVec.toNat_ofInt]
  simp
  omega

theorem fitsField_fieldInt (b : Byte) : fitsField (fieldInt b) = true := by
  have := b.isLt
  simp [fitsField, fieldInt]
  omega

/-! ## Command words -/

theorem commandWord_toNat (cmd : Nat) (f : Bool) (dev a b : Byte) :
    (commandWord cmd f dev a b).toNat =
      cmd % 32 * 2 ^ 27 + f.toNat * 2 ^ 26 + dev.toNat * 2 ^ 16 + a.toNat * 2 ^ 8 + b.toNat := by
  have join : ∀ x y n : Nat, y < 2 ^ n → x <<< n ||| y = x * 2 ^ n + y := fun x y n h => by
    rw [Nat.shiftLeft_eq, Nat.mul_comm, Nat.two_pow_add_eq_or_of_lt h]
  unfold commandWord
  simp only [BitVec.toNat_append]
  rw [join _ _ 8 b.isLt, join _ _ 8 a.isLt, join _ _ 8 dev.isLt, join _ _ 2 (by decide),
    join _ _ 1 (by have := Bool.toNat_lt f; simp; omega)]
  simp
  omega

/-- Every field of a word as a number (rule R55). -/
theorem field_values (w : CmdWord) :
    cmdField w = w.toNat / 2 ^ 27 ∧ rsvField w = w.toNat / 2 ^ 24 % 4 ∧
      (devField w).toNat = w.toNat / 2 ^ 16 % 256 ∧ (aField w).toNat = w.toNat / 2 ^ 8 % 256 ∧
      (bField w).toNat = w.toNat % 256 ∧ flagField w = w.toNat.testBit 26 := by
  have := w.isLt
  refine ⟨?_, ?_, ?_, ?_, ?_, rfl⟩
  · simp [cmdField, BitVec.extractLsb'_toNat, Nat.shiftRight_eq_div_pow]
    omega
  · simp [rsvField, BitVec.extractLsb'_toNat, Nat.shiftRight_eq_div_pow]
  · simp [devField, BitVec.extractLsb'_toNat, Nat.shiftRight_eq_div_pow]
  · simp [aField, BitVec.extractLsb'_toNat, Nat.shiftRight_eq_div_pow]
  · simp [bField, BitVec.extractLsb'_toNat]

/-- The fields of a built word are what it was built from. -/
theorem commandWord_fields {cmd : Nat} (f : Bool) (dev a b : Byte) (h : cmd < 32) :
    cmdField (commandWord cmd f dev a b) = cmd ∧ rsvField (commandWord cmd f dev a b) = 0 ∧
      devField (commandWord cmd f dev a b) = dev ∧ aField (commandWord cmd f dev a b) = a ∧
      bField (commandWord cmd f dev a b) = b ∧ flagField (commandWord cmd f dev a b) = f := by
  obtain ⟨h1, h2, h3, h4, h5, h6⟩ := field_values (commandWord cmd f dev a b)
  have hw := commandWord_toNat cmd f dev a b
  have := dev.isLt
  have := a.isLt
  have := b.isLt
  have := Bool.toNat_lt f
  refine ⟨by omega, by omega, BitVec.eq_of_toNat_eq (by omega), BitVec.eq_of_toNat_eq (by omega),
    BitVec.eq_of_toNat_eq (by omega), ?_⟩
  rw [h6, Nat.testBit_eq_decide_div_mod_eq]
  cases f <;> simp at * <;> omega

/-- The bits under the mask of rule R57, as the two fields it keeps. -/
theorem masked_toNat (w : CmdWord) : (w &&& 0xFB000000).toNat = cmdField w * 2 ^ 27 + rsvField w * 2 ^ 24 := by
  have h1 : cmdField w < 32 := (w.extractLsb' 27 5).isLt
  have h2 : rsvField w < 4 := (w.extractLsb' 24 2).isLt
  have h : w &&& (0xFB000000 : CmdWord) =
      ((w.extractLsb' 27 5).setWidth 32 <<< 27) ||| ((w.extractLsb' 24 2).setWidth 32 <<< 24) := by
    apply BitVec.eq_of_getLsbD_eq
    intro i hi
    interval_cases i <;> simp
  rw [h, BitVec.toNat_or, BitVec.toNat_shiftLeft, BitVec.toNat_shiftLeft, BitVec.toNat_setWidth, BitVec.toNat_setWidth]
  change (cmdField w % 2 ^ 32) <<< 27 % 2 ^ 32 ||| (rsvField w % 2 ^ 32) <<< 24 % 2 ^ 32 = _
  have e1 : (cmdField w % 2 ^ 32) <<< 27 % 2 ^ 32 = 2 ^ 27 * cmdField w := by rw [Nat.shiftLeft_eq]; omega
  have e2 : (rsvField w % 2 ^ 32) <<< 24 % 2 ^ 32 = rsvField w * 2 ^ 24 := by rw [Nat.shiftLeft_eq]; omega
  rw [e1, e2, ← Nat.two_pow_add_eq_or_of_lt (by omega)]
  omega

/-- Match and mask select the command code with `RSV` 00 (rule R57). -/
theorem masked_iff (w : CmdWord) {c : Nat} (hc : c < 32) :
    w &&& 0xFB000000 = BitVec.ofNat 32 (c * 2 ^ 27) ↔ cmdField w = c ∧ rsvField w = 0 := by
  have h1 : cmdField w < 32 := (w.extractLsb' 27 5).isLt
  have h2 : rsvField w < 4 := (w.extractLsb' 24 2).isLt
  rw [← BitVec.toNat_inj, masked_toNat w]
  simp only [BitVec.toNat_ofNat]
  omega

/-- A built word has the fixed bits of its command code. -/
theorem commandWord_masked {cmd : Nat} (f : Bool) (dev a b : Byte) (h : cmd < 32) :
    commandWord cmd f dev a b &&& 0xFB000000 = BitVec.ofNat 32 (cmd * 2 ^ 27) :=
  (masked_iff _ h).mpr ⟨(commandWord_fields f dev a b h).1, (commandWord_fields f dev a b h).2.1⟩

/-- Decoding reads a word through its fields alone: two words with the same fields are the same command. -/
theorem decodeCommand_congr {w w' : CmdWord} (h0 : rsvField w = rsvField w') (h1 : cmdField w = cmdField w')
    (h2 : flagField w = flagField w') (h3 : devField w = devField w') (h4 : aField w = aField w')
    (h5 : bField w = bField w') : decodeCommand w = decodeCommand w' := by
  unfold decodeCommand
  rw [h0, h1, h2, h3, h4, h5]

/-- A word with `RSV` not 00 or `CMD` above 15 names no command (rule R58). -/
theorem decodeCommand_reserved {w : CmdWord} (h : 16 ≤ cmdField w ∨ rsvField w ≠ 0) : ∃ e, decodeCommand w = .error e := by
  unfold decodeCommand
  split
  · next h0 =>
    have hc := h.resolve_right (by simp [h0])
    generalize cmdField w = c at hc
    split <;> first | omega | exact ⟨_, rfl⟩
  · exact ⟨_, rfl⟩

/-! ## Frames -/

theorem frameWord_toNat (op data : Byte) : (frameWord op data).toNat = op.toNat * 2 ^ 8 + data.toNat := by
  unfold frameWord
  rw [BitVec.toNat_append, Nat.shiftLeft_eq, Nat.mul_comm, ← Nat.two_pow_add_eq_or_of_lt data.isLt]

theorem opField_toNat (f : FrameWord) : (opField f).toNat = f.toNat / 2 ^ 8 := by
  have := f.isLt
  simp [opField, BitVec.extractLsb'_toNat, Nat.shiftRight_eq_div_pow]
  omega

theorem dataField_toNat (f : FrameWord) : (dataField f).toNat = f.toNat % 2 ^ 8 := by
  simp [dataField, BitVec.extractLsb'_toNat]

/-- The two bytes of a built frame are what it was built from (rule R50). -/
theorem frameWord_fields (op data : Byte) :
    opField (frameWord op data) = op ∧ dataField (frameWord op data) = data := by
  have h := frameWord_toNat op data
  have := op.isLt
  have := data.isLt
  constructor <;> apply BitVec.eq_of_toNat_eq
  · rw [opField_toNat]; omega
  · rw [dataField_toNat]; omega

theorem frameWord_masked (op data : Byte) : frameWord op data &&& 0xFF00 = frameWord op 0 := by
  apply BitVec.eq_of_getLsbD_eq
  intro i hi
  have h : ∀ d : Byte, (frameWord op d).getLsbD i = if i < 8 then d.getLsbD i else op.getLsbD (i - 8) := fun d =>
    BitVec.getLsbD_append ..
  rw [BitVec.getLsbD_and, h, h]
  interval_cases i <;> simp

/-- An opcode without a name names no frame (rule R52). -/
theorem decodeFrame_unassigned {f : FrameWord} {n : Nat} (hn : (opField f).toNat = n)
    (h : n = 13 ∨ n = 14 ∨ 16 ≤ n) : decodeFrame f = .error (.unassignedOpcode n) := by
  unfold decodeFrame
  rw [hn]
  rcases h with rfl | rfl | h
  · rfl
  · rfl
  · obtain ⟨k, rfl⟩ := Nat.exists_eq_add_of_le' h
    rfl

end Sys2Proof
end

