-- ==== Sys2Proof/Laws/Loops.lean ====
section
/-! SUPPORT. Runs of calls as whole sequences: what a sequence leaves and which transactions it sends, how sequences
compose, the loops over rows and over devices, and the sequences of the lifecycle commands. -/

namespace Sys2Proof.Machine

/-- From `s` these calls run to their end on the bus, leave `t`, and send exactly these transactions. -/
structure Ran (s : State) (calls : List Call) (t : State) (txs : List (Nat × Frame)) : Prop where
  run : ∀ cs, s.runCalls (calls ++ cs) = t.runCalls cs
  sends : Sends s t txs

theorem Ran.nil {s : State} (hi : s.idle) : Ran s [] s [] := ⟨fun _ => rfl, .refl hi⟩

theorem Ran.trans {s t u : State} {a b : List Call} {x y : List (Nat × Frame)} (h : Ran s a t x) (h' : Ran t b u y) :
    Ran s (a ++ b) u (x ++ y) :=
  ⟨fun cs => by rw [List.append_assoc, h.run, h'.run], h.sends.trans h'.sends⟩

theorem Ran.skip {s t : State} {a b : List Call} {x : List (Nat × Frame)} (h : Ran s a t x)
    (hb : ∀ cs, t.runCalls (b ++ cs) = t.runCalls cs) : Ran s (a ++ b) t x :=
  ⟨fun cs => by rw [List.append_assoc, h.run, hb], h.sends⟩

theorem Ran.done {s t : State} {calls : List Call} {txs : List (Nat × Frame)} (h : Ran s calls t txs) :
    s.runCalls calls = (t, [], []) := by
  have := h.run []
  rwa [List.append_nil] at this

theorem Ran.perform {s t : State} {calls : List Call} {txs : List (Nat × Frame)} (h : Ran s calls t txs) (hi : s.idle)
    (cmd : Instr) : s.perform cmd calls = .next t := perform_done hi h.done h.sends.seq

theorem Ran.idle {s t : State} {calls : List Call} {txs : List (Nat × Frame)} (h : Ran s calls t txs) : t.idle :=
  h.sends.seq

theorem Ran.n {s t : State} {calls : List Call} {txs : List (Nat × Frame)} (h : Ran s calls t txs) :
    t.cfg.n = s.cfg.n := by rw [h.sends.cfg]

theorem Ran.hasDevice {s t : State} {calls : List Call} {txs : List (Nat × Frame)} (h : Ran s calls t txs) {d : Int}
    (hd : s.hasDevice d) : t.hasDevice d := by
  unfold State.hasDevice
  rw [h.n]
  exact hd

/-- One transaction with a named opcode other than NOOP (rule R70). -/
theorem ran_transact {s : State} (hi : s.idle) (hf : s.busFair) {d : Int} (hd : s.hasDevice d) {op : Byte} (data : Byte)
    (h0 : op ≠ opNoop) (ha : assignedOpcode op = true) :
    ∃ t, Ran s [.transact d op data] t [(d.toNat, ⟨op, data⟩)] ∧ t.shadow = s.shadow :=
  ⟨_, ⟨fun cs => runCalls_transact hf op data hd cs, Sends.tx hi (hasDevice_toNat hd) h0 ha⟩, rfl⟩

/-- One `SetRow` in range (rule R91). -/
theorem ran_setRow {s : State} (hi : s.idle) (hf : s.busFair) {d r : Int} (v : Byte)
    (h : s.hasDevice d ∧ 0 ≤ r ∧ r ≤ 7) :
    ∃ t, Ran s [.setRow d r v] t [(d.toNat, ⟨BitVec.ofNat 8 (1 + r.toNat), v⟩)] ∧ RowWritten s t d.toNat r.toNat v :=
  ⟨_, ⟨fun cs => runCalls_setRow hf v h cs, (setRow_written hi v h).2.2⟩, setRow_written hi v h⟩

/-! ## Loops over the rows of one device -/

/-- A loop that gives each row of device `d` a new byte `f r old`, by one row write each, in row order. -/
theorem rows_loop (d : Nat) (f : Nat → Byte → Byte) (call : Nat → Call)
    (hcall : ∀ (s : State) (r : Nat) (cs : List Call), s.busFair → d < s.cfg.n → r < 8 →
      s.runCalls (call r :: cs) = (s.afterSetRow d r (f r (s.shadowAt d r))).runCalls cs)
    (m k : Nat) (s : State) (hm : k + m ≤ 8) (hi : s.idle) (hf : s.busFair) (hd : d < s.cfg.n) :
    ∃ t, Ran s ((List.range' k m).map call) t
        ((List.range' k m).map fun r => (d, ⟨BitVec.ofNat 8 (1 + r), f r (s.shadowAt d r)⟩)) ∧
      (∀ r, k ≤ r → r < k + m → t.shadowAt d r = f r (s.shadowAt d r)) ∧
      ∀ a, (∀ r, k ≤ r → r < k + m → a ≠ shadowAddr d r) → Memory.read t.shadow a = Memory.read s.shadow a := by
  induction m generalizing k s with
  | zero => exact ⟨s, .nil hi, fun r _ _ => by omega, fun _ _ => rfl⟩
  | succ m ih =>
    have hw := afterSetRow_written hi hd (show k < 8 by omega) (f k (s.shadowAt d k))
    obtain ⟨t, ht, hrow, hrest⟩ := ih (k + 1) (s.afterSetRow d k (f k (s.shadowAt d k))) (by omega) hi
      (hw.2.2.busFair hf) (by rw [hw.2.2.cfg]; exact hd)
    have hkeep : ∀ r, k < r → r < 8 →
        (s.afterSetRow d k (f k (s.shadowAt d k))).shadowAt d r = s.shadowAt d r := fun r hr h8 =>
      hw.2.1 _ fun e => by have := (shadowAddr_inj h8 (by omega) e).2; omega
    have htx : ((List.range' (k + 1) m).map fun r => ((d, ⟨BitVec.ofNat 8 (1 + r),
        f r ((s.afterSetRow d k (f k (s.shadowAt d k))).shadowAt d r)⟩) : Nat × Frame)) =
        (List.range' (k + 1) m).map fun r => (d, ⟨BitVec.ofNat 8 (1 + r), f r (s.shadowAt d r)⟩) := by
      refine List.map_congr_left fun r hr => ?_
      have := List.mem_range'_1.mp hr
      rw [hkeep r (by omega) (by omega)]
    rw [htx] at ht
    refine ⟨t, ?_, fun r h1 h2 => ?_, fun a ha => ?_⟩
    · exact Ran.trans (a := [call k]) ⟨fun cs => hcall s k cs hf hd (by omega), hw.2.2⟩ ht
    · by_cases e : r = k
      · subst e
        rw [← hw.1]
        exact hrest _ fun r' h1' h2' e => by have := (shadowAddr_inj (by omega) (by omega) e).2; omega
      · rw [hrow r (by omega) (by omega), hkeep r (by omega) (by omega)]
    · rw [hrest a fun r h1 h2 => ha r (by omega) (by omega)]
      exact hw.2.1 a (ha k (by omega) (by omega))

/-- `ClearDevice` in range (rule R105). -/
theorem ran_clearDevice {s : State} (hi : s.idle) (hf : s.busFair) {d : Int} (hd : s.hasDevice d) :
    ∃ t, Ran s (clearDeviceCalls d) t (clearTxs d.toNat) ∧ (∀ r, r < 8 → t.shadowAt d.toNat r = 0x00) ∧
      s.onlyDevice t d.toNat := by
  obtain ⟨t, h1, h2, h3⟩ := rows_loop d.toNat (fun _ _ => 0x00) (fun r => .setRow d (Int.ofNat r) 0x00)
    (fun u r cs hf' hd' hr => runCalls_setRow hf' 0x00 ⟨⟨hd.1, by simp only [Int.ofNat_eq_natCast]; have := hd.1; omega⟩, by simp, by simp; omega⟩ cs)
    8 0 s (by omega) hi hf (hasDevice_toNat hd)
  refine ⟨t, ?_, fun r hr => h2 r (by omega) (by omega), fun a ha => h3 a fun r _ hr => ha r (by omega)⟩
  rw [← List.range_eq_range'] at h1
  exact h1

/-- `ClearDevice` out of range: nothing. -/
theorem clearDevice_skips {s : State} {d : Int} (hd : ¬ s.hasDevice d) (cs : List Call) :
    s.runCalls (clearDeviceCalls d ++ cs) = s.runCalls cs := by
  have h : ∀ l : List Nat, s.runCalls ((l.map fun r => Call.setRow d (Int.ofNat r) 0x00) ++ cs) = s.runCalls cs := by
    intro l
    induction l with
    | nil => rfl
    | cons r l ih =>
      rw [List.map_cons, List.cons_append, runCalls_setRow_skip 0x00 (fun h => hd h.1)]
      exact ih
  exact h _

/-- `SetColumnBits` in range (rule R102). -/
theorem ran_column {s : State} (hi : s.idle) (hf : s.busFair) {d c : Int} (v : Byte)
    (h : s.hasDevice d ∧ 0 ≤ c ∧ c ≤ 7) :
    ∃ t, Ran s (columnCalls d c v) t
        ((List.range 8).map fun r => (d.toNat, ⟨BitVec.ofNat 8 (1 + r), t.shadowAt d.toNat r⟩)) ∧
      (∀ r, r < 8 → t.shadowAt d.toNat r = pixelByte (s.shadowAt d.toNat r) c.toNat (columnBit v r)) ∧
      s.onlyDevice t d.toNat := by
  obtain ⟨t, h1, h2, h3⟩ := rows_loop d.toNat (fun r cur => pixelByte cur c.toNat (columnBit v r))
    (fun r => .setPixel d (Int.ofNat r) c (columnBit v r))
    (fun u r cs hf' hd' hr => runCalls_setPixel hf' (columnBit v r)
      ⟨⟨h.1.1, by simp only [Int.ofNat_eq_natCast]; have := h.1.1; omega⟩, ⟨by simp, by simp; omega⟩, h.2⟩ cs)
    8 0 s (by omega) hi hf (hasDevice_toNat h.1)
  rw [← List.range_eq_range'] at h1
  have e : ((List.range 8).map fun r => ((d.toNat, ⟨BitVec.ofNat 8 (1 + r), t.shadowAt d.toNat r⟩) : Nat × Frame)) =
      (List.range 8).map fun r => (d.toNat, ⟨BitVec.ofNat 8 (1 + r),
        pixelByte (s.shadowAt d.toNat r) c.toNat (columnBit v r)⟩) :=
    List.map_congr_left fun r hr => by rw [h2 r (by omega) (by have := List.mem_range.mp hr; omega)]
  exact ⟨t, e ▸ h1, fun r hr => h2 r (by omega) (by omega), fun a ha => h3 a fun r _ hr => ha r (by omega)⟩

/-- `SetColumnBits` out of range: nothing. -/
theorem column_skips {s : State} {d c : Int} (v : Byte) (h : ¬ (s.hasDevice d ∧ 0 ≤ c ∧ c ≤ 7)) (cs : List Call) :
    s.runCalls (columnCalls d c v ++ cs) = s.runCalls cs := by
  have key : ∀ l : List Nat,
      s.runCalls ((l.map fun r => Call.setPixel d (Int.ofNat r) c (columnBit v r)) ++ cs) = s.runCalls cs := by
    intro l
    induction l with
    | nil => rfl
    | cons r l ih =>
      rw [List.map_cons, List.cons_append, runCalls_setPixel_skip _ (fun x => h ⟨x.1, x.2.2⟩)]
      exact ih
  exact key _

/-! ## The lifecycle sequences -/

theorem scanLimitCalls_inRange (d : Int) {limit : Int} (h : 0 ≤ limit ∧ limit ≤ 7) :
    scanLimitCalls d limit = [.transact d opScanLimit (BitVec.ofNat 8 limit.toNat)] := by
  have e : BitVec.ofInt 8 limit = BitVec.ofNat 8 limit.toNat := by
    conv_lhs => rw [← Int.toNat_of_nonneg h.1]
    rfl
  rw [scanLimitCalls, if_pos ((rowOk_iff limit).mpr h), e]

theorem intensityCalls_inRange (d : Int) {i : Int} (h : 0 ≤ i ∧ i ≤ 15) :
    intensityCalls d i = [.transact d opIntensity (BitVec.ofNat 8 i.toNat)] := by
  have e : BitVec.ofInt 8 i = BitVec.ofNat 8 i.toNat := by
    conv_lhs => rw [← Int.toNat_of_nonneg h.1]
    rfl
  rw [intensityCalls, if_pos ((nibbleOk_iff i).mpr h), e]

theorem intensityCalls_outOfRange (d : Int) {i : Int} (h : ¬ (0 ≤ i ∧ i ≤ 15)) : intensityCalls d i = [] :=
  if_neg fun x => h ((nibbleOk_iff i).mp x)

/-- `InitDevice` in range (rule R123). -/
theorem ran_initDevice {s : State} (hi : s.idle) (hf : s.busFair) {d : Int} (hd : s.hasDevice d) :
    ∃ t, Ran s (initDeviceCalls d) t (initTxs d.toNat) ∧ (∀ r, r < 8 → t.shadowAt d.toNat r = 0x00) ∧
      s.onlyDevice t d.toNat := by
  obtain ⟨t1, r1, e1⟩ := ran_transact hi hf hd decodeOffData (op := opDecodeMode) (by decide) (by decide)
  obtain ⟨t2, r2, e2⟩ := ran_transact r1.idle (r1.sends.busFair hf) (r1.hasDevice hd) (BitVec.ofNat 8 initScanLimit.toNat)
    (op := opScanLimit) (by decide) (by decide)
  have r12 := r1.trans r2
  obtain ⟨t3, r3, e3⟩ := ran_transact r12.idle (r12.sends.busFair hf) (r12.hasDevice hd) testOffData
    (op := opDisplayTest) (by decide) (by decide)
  have r13 := r12.trans r3
  obtain ⟨t4, r4, hz, ho⟩ := ran_clearDevice r13.idle (r13.sends.busFair hf) (r13.hasDevice hd)
  have r14 := r13.trans r4
  obtain ⟨t5, r5, e5⟩ := ran_transact r14.idle (r14.sends.busFair hf) (r14.hasDevice hd) (shutdownData true)
    (op := opShutdown) (by decide) (by decide)
  have r15 := r14.trans r5
  refine ⟨t5, ?_, fun r hr => ?_, fun a ha => ?_⟩
  · have hc := scanLimitCalls_inRange d (limit := initScanLimit) (by decide)
    have e : initDeviceCalls d = [.transact d opDecodeMode decodeOffData] ++
        [.transact d opScanLimit (BitVec.ofNat 8 initScanLimit.toNat)] ++ [.transact d opDisplayTest testOffData] ++
        clearDeviceCalls d ++ [.transact d opShutdown (shutdownData true)] := by rw [initDeviceCalls, hc]; rfl
    rw [e]
    exact r15
  · rw [← hz r hr, State.shadowAt, e5, State.shadowAt]
  · rw [e5, ho a ha, e3, e2, e1]

/-- `InitDevice` out of range: every step skips. -/
theorem initDevice_skips {s : State} {d : Int} (hd : ¬ s.hasDevice d) (cs : List Call) :
    s.runCalls (initDeviceCalls d ++ cs) = s.runCalls cs := by
  have hc := scanLimitCalls_inRange d (limit := initScanLimit) (by decide)
  simp only [initDeviceCalls, hc, shutdownCalls, List.cons_append, List.nil_append, List.append_assoc]
  rw [runCalls_transact_skip _ _ hd, runCalls_transact_skip _ _ hd, runCalls_transact_skip _ _ hd, clearDevice_skips hd,
    runCalls_transact_skip _ _ hd]

/-- The control writes at the start of `StartDevice` (rule R124). -/
def startTxs (d : Nat) (i : Int) : List (Nat × Frame) :=
  [(d, ⟨12, 0x01⟩)] ++ (if 0 ≤ i ∧ i ≤ 15 then [(d, ⟨10, BitVec.ofNat 8 i.toNat⟩)] else [])

/-- `StartDevice` in range (rule R124). -/
theorem ran_startDevice {s : State} (hi : s.idle) (hf : s.busFair) {d : Int} (i : Int) (hd : s.hasDevice d) :
    ∃ t, Ran s (startDeviceCalls d i) t (startTxs d.toNat i ++ clearTxs d.toNat) ∧
      (∀ r, r < 8 → t.shadowAt d.toNat r = 0x00) ∧ s.onlyDevice t d.toNat := by
  obtain ⟨t1, r1, e1⟩ := ran_transact hi hf hd (shutdownData false) (op := opShutdown) (by decide) (by decide)
  have h2 : ∃ t2, Ran s (shutdownCalls d false ++ intensityCalls d i) t2 (startTxs d.toNat i) ∧ t2.shadow = s.shadow := by
    by_cases h : 0 ≤ i ∧ i ≤ 15
    · obtain ⟨t2, r2, e2⟩ := ran_transact r1.idle (r1.sends.busFair hf) (r1.hasDevice hd) (BitVec.ofNat 8 i.toNat)
        (op := opIntensity) (by decide) (by decide)
      refine ⟨t2, ?_, e2.trans e1⟩
      rw [intensityCalls_inRange d h, startTxs, if_pos h]
      exact r1.trans r2
    · refine ⟨t1, ?_, e1⟩
      rw [intensityCalls_outOfRange d h, startTxs, if_neg h, List.append_nil, List.append_nil]
      exact r1
  obtain ⟨t2, r2, e2⟩ := h2
  obtain ⟨t3, r3, hz, ho⟩ := ran_clearDevice r2.idle (r2.sends.busFair hf) (r2.hasDevice hd)
  exact ⟨t3, r2.trans r3, hz, fun a ha => (ho a ha).trans (by rw [e2])⟩

/-- `StartDevice` out of range: every step skips. -/
theorem startDevice_skips {s : State} {d : Int} (i : Int) (hd : ¬ s.hasDevice d) (cs : List Call) :
    s.runCalls (startDeviceCalls d i ++ cs) = s.runCalls cs := by
  simp only [startDeviceCalls, shutdownCalls, List.cons_append, List.nil_append, List.append_assoc]
  rw [runCalls_transact_skip _ _ hd]
  by_cases h : 0 ≤ i ∧ i ≤ 15
  · rw [intensityCalls_inRange d h, List.cons_append, List.nil_append, runCalls_transact_skip _ _ hd, clearDevice_skips hd]
  · rw [intensityCalls_outOfRange d h, List.nil_append, clearDevice_skips hd]

/-! ## Loops over the devices -/

/-- A loop that runs `block d` for each device, where each block clears the device's rows and sends `txs d`. -/
theorem devices_loop (block : Nat → List Call) (txs : Nat → List (Nat × Frame))
    (hblock : ∀ (s : State) (d : Nat), s.idle → s.busFair → d < s.cfg.n →
      ∃ t, Ran s (block d) t (txs d) ∧ (∀ r, r < 8 → t.shadowAt d r = 0x00) ∧ s.onlyDevice t d)
    (m k : Nat) (s : State) (hi : s.idle) (hf : s.busFair) (hm : k + m ≤ s.cfg.n) :
    ∃ t, Ran s ((List.range' k m).flatMap block) t ((List.range' k m).flatMap txs) ∧
      (∀ d r, k ≤ d → d < k + m → r < 8 → t.shadowAt d r = 0x00) ∧
      ∀ a, (∀ d r, k ≤ d → d < k + m → r < 8 → a ≠ shadowAddr d r) →
        Memory.read t.shadow a = Memory.read s.shadow a := by
  induction m generalizing k s with
  | zero => exact ⟨s, .nil hi, fun d r _ _ _ => by omega, fun _ _ => rfl⟩
  | succ m ih =>
    obtain ⟨u, hu, hz, ho⟩ := hblock s k hi hf (by omega)
    obtain ⟨t, ht, hrow, hrest⟩ := ih (k + 1) u hu.idle (hu.sends.busFair hf) (by rw [hu.n]; omega)
    refine ⟨t, hu.trans ht, fun d r h1 h2 hr => ?_, fun a ha => ?_⟩
    · by_cases e : d = k
      · subst e
        rw [← hz r hr]
        exact hrest _ fun d' r' h1' h2' hr' e => by have := (shadowAddr_inj hr hr' e).1; omega
      · exact hrow d r (by omega) (by omega) hr
    · rw [hrest a fun d r h1 h2 hr => ha d r (by omega) (by omega) hr]
      exact ho a fun r hr => ha k r (by omega) (by omega) hr

theorem hasDevice_ofNat {s : State} {d : Nat} (h : d < s.cfg.n) : s.hasDevice (Int.ofNat d) :=
  ⟨by simp, by simpa using h⟩

/-- `ClearAll` (rule R106). -/
theorem ran_clearAll {s : State} (hi : s.idle) (hf : s.busFair) :
    ∃ t, Ran s (clearAllCalls s.cfg) t ((List.range s.cfg.n).flatMap clearTxs) ∧
      (∀ d r, d < s.cfg.n → r < 8 → t.shadowAt d r = 0x00) ∧
      ∀ a, 8 * s.cfg.n ≤ a → Memory.read t.shadow a = Memory.read s.shadow a := by
  obtain ⟨t, h1, h2, h3⟩ := devices_loop (fun d => clearDeviceCalls (Int.ofNat d)) clearTxs
    (fun u d hi' hf' hd => ran_clearDevice hi' hf' (hasDevice_ofNat hd)) s.cfg.n 0 s hi hf (by omega)
  rw [← List.range_eq_range'] at h1
  refine ⟨t, h1, fun d r hd hr => h2 d r (by omega) (by omega) hr, fun a ha => h3 a fun d r _ hd hr e => ?_⟩
  simp only [shadowAddr, rows] at e
  omega

/-- `for d in 0..N-1: InitDevice(d)`: the reset sequence (rule R160). -/
theorem ran_reset {s : State} (hi : s.idle) (hf : s.busFair) :
    ∃ t, Ran s (resetCalls s.cfg) t ((List.range s.cfg.n).flatMap initTxs) ∧
      ∀ d r, d < s.cfg.n → r < 8 → t.shadowAt d r = 0x00 := by
  obtain ⟨t, h1, h2, -⟩ := devices_loop (fun d => initDeviceCalls (Int.ofNat d)) initTxs
    (fun u d hi' hf' hd => ran_initDevice hi' hf' (hasDevice_ofNat hd)) s.cfg.n 0 s hi hf (by omega)
  rw [← List.range_eq_range'] at h1
  exact ⟨t, h1, fun d r hd hr => h2 d r (by omega) (by omega) hr⟩

end Sys2Proof.Machine
end

