-- ==== Sys2Proof/Laws/PerInstr.lean ====
section
/-! SUPPORT. Per instruction: the word an instruction is encoded as has the fixed bits of its own row of the opcode table
(rules R51, R57), whatever its operands. -/

namespace Sys2Proof.Laws.FixedBits

/-- The fixed bits of a command word: its match under the mask of rule R57. -/
def commandIs (m : CmdWord) : Packet → Prop
  | .command w => w &&& 0xFB000000 = m
  | .frame _ => False

/-- The fixed bits of a frame: its opcode byte (rule R51). -/
def frameIs (m : FrameWord) : Packet → Prop
  | .command _ => False
  | .frame f => f &&& 0xFF00 = m

/-- The encoded instruction has the match of its row. -/
def Statement (i : Instr) : Prop :=
  match i with
  | .transact _ _ _ => commandIs 0x00000000 (encode i)
  | .getrow _ _ => commandIs 0x08000000 (encode i)
  | .setrow _ _ _ => commandIs 0x10000000 (encode i)
  | .setpixel _ _ _ _ => commandIs 0x18000000 (encode i)
  | .setrowbits _ _ _ => commandIs 0x20000000 (encode i)
  | .setcolbits _ _ _ => commandIs 0x28000000 (encode i)
  | .setdigit _ _ _ _ => commandIs 0x30000000 (encode i)
  | .setchar _ _ _ _ => commandIs 0x38000000 (encode i)
  | .cleardev _ => commandIs 0x40000000 (encode i)
  | .clearall => commandIs 0x48000000 (encode i)
  | .setshutdown _ _ => commandIs 0x50000000 (encode i)
  | .setscanlimit _ _ => commandIs 0x58000000 (encode i)
  | .setintensity _ _ => commandIs 0x60000000 (encode i)
  | .initdev _ => commandIs 0x68000000 (encode i)
  | .startdev _ _ => commandIs 0x70000000 (encode i)
  | .drawpixel _ _ _ => commandIs 0x78000000 (encode i)
  | .noop _ => frameIs 0x0000 (encode i)
  | .digit0 _ => frameIs 0x0100 (encode i)
  | .digit1 _ => frameIs 0x0200 (encode i)
  | .digit2 _ => frameIs 0x0300 (encode i)
  | .digit3 _ => frameIs 0x0400 (encode i)
  | .digit4 _ => frameIs 0x0500 (encode i)
  | .digit5 _ => frameIs 0x0600 (encode i)
  | .digit6 _ => frameIs 0x0700 (encode i)
  | .digit7 _ => frameIs 0x0800 (encode i)
  | .decodemode _ => frameIs 0x0900 (encode i)
  | .intensity _ => frameIs 0x0A00 (encode i)
  | .scanlimit _ => frameIs 0x0B00 (encode i)
  | .shutdown _ => frameIs 0x0C00 (encode i)
  | .displaytest _ => frameIs 0x0F00 (encode i)

theorem transact (t : Int) (op data : Byte) : Statement (.transact t op data) := commandWord_masked _ _ _ _ (by omega)

theorem getrow (d r : Int) : Statement (.getrow d r) := commandWord_masked _ _ _ _ (by omega)

theorem setrow (d r : Int) (v : Byte) : Statement (.setrow d r v) := commandWord_masked _ _ _ _ (by omega)

theorem setpixel (d r c : Int) (on : Bool) : Statement (.setpixel d r c on) := commandWord_masked _ _ _ _ (by omega)

theorem setrowbits (d r : Int) (v : Byte) : Statement (.setrowbits d r v) := commandWord_masked _ _ _ _ (by omega)

theorem setcolbits (d c : Int) (v : Byte) : Statement (.setcolbits d c v) := commandWord_masked _ _ _ _ (by omega)

theorem setdigit (d p value : Int) (dp : Bool) : Statement (.setdigit d p value dp) := commandWord_masked _ _ _ _ (by omega)

theorem setchar (d p code : Int) (dp : Bool) : Statement (.setchar d p code dp) := commandWord_masked _ _ _ _ (by omega)

theorem cleardev (d : Int) : Statement (.cleardev d) := commandWord_masked _ _ _ _ (by omega)

theorem clearall : Statement (.clearall) := commandWord_masked _ _ _ _ (by omega)

theorem setshutdown (d : Int) (enabled : Bool) : Statement (.setshutdown d enabled) := commandWord_masked _ _ _ _ (by omega)

theorem setscanlimit (d limit : Int) : Statement (.setscanlimit d limit) := commandWord_masked _ _ _ _ (by omega)

theorem setintensity (d i : Int) : Statement (.setintensity d i) := commandWord_masked _ _ _ _ (by omega)

theorem initdev (d : Int) : Statement (.initdev d) := commandWord_masked _ _ _ _ (by omega)

theorem startdev (d i : Int) : Statement (.startdev d i) := commandWord_masked _ _ _ _ (by omega)

theorem drawpixel (x y color : Int) : Statement (.drawpixel x y color) := commandWord_masked _ _ _ _ (by omega)

theorem noop (data : Byte) : Statement (.noop data) := frameWord_masked _ data

theorem digit0 (data : Byte) : Statement (.digit0 data) := frameWord_masked _ data

theorem digit1 (data : Byte) : Statement (.digit1 data) := frameWord_masked _ data

theorem digit2 (data : Byte) : Statement (.digit2 data) := frameWord_masked _ data

theorem digit3 (data : Byte) : Statement (.digit3 data) := frameWord_masked _ data

theorem digit4 (data : Byte) : Statement (.digit4 data) := frameWord_masked _ data

theorem digit5 (data : Byte) : Statement (.digit5 data) := frameWord_masked _ data

theorem digit6 (data : Byte) : Statement (.digit6 data) := frameWord_masked _ data

theorem digit7 (data : Byte) : Statement (.digit7 data) := frameWord_masked _ data

theorem decodemode (data : Byte) : Statement (.decodemode data) := frameWord_masked _ data

theorem intensity (data : Byte) : Statement (.intensity data) := frameWord_masked _ data

theorem scanlimit (data : Byte) : Statement (.scanlimit data) := frameWord_masked _ data

theorem shutdown (data : Byte) : Statement (.shutdown data) := frameWord_masked _ data

theorem displaytest (data : Byte) : Statement (.displaytest data) := frameWord_masked _ data

end Sys2Proof.Laws.FixedBits
end

