-- ==== Sys2Proof/Laws/Step.lean ====
section
/-! SUPPORT. What a step can do, said once: the commands as lists of calls, a frame as one latch, the seven forms of a
step; what calls can never touch, stalled or not; and that a run stopped by the bus goes on where it stopped. -/

namespace Sys2Proof.Machine

/-! ## Commands as calls, frames as latches -/

/-- The calls of a command; GETROW makes none, and a frame is no command. -/
def commandCalls (c : Config) : Instr → List Call
  | .transact t op data => [.transact t op data]
  | .getrow _ _ => []
  | .setrow d r v => [.setRow d r v]
  | .setpixel d r k on => [.setPixel d r k on]
  | .setrowbits d r v => [.setRow d r v]
  | .setcolbits d k v => columnCalls d k v
  | .setdigit d p v dp => digitCalls c d p v dp
  | .setchar d p code dp => charCalls c d p code dp
  | .cleardev d => clearDeviceCalls d
  | .clearall => clearAllCalls c
  | .setshutdown d e => shutdownCalls d e
  | .setscanlimit d l => scanLimitCalls d l
  | .setintensity d i => intensityCalls d i
  | .initdev d => initDeviceCalls d
  | .startdev d i => startDeviceCalls d i
  | .drawpixel x y color => drawPixelCalls x y color
  | .noop _ => []
  | .digit0 _ => []
  | .digit1 _ => []
  | .digit2 _ => []
  | .digit3 _ => []
  | .digit4 _ => []
  | .digit5 _ => []
  | .digit6 _ => []
  | .digit7 _ => []
  | .decodemode _ => []
  | .intensity _ => []
  | .scanlimit _ => []
  | .shutdown _ => []
  | .displaytest _ => []

/-- Every command but GETROW is `perform` of its calls. -/
theorem exec_command {i : Instr} (hc : isCommand i = true) (hg : ∀ d r, i ≠ .getrow d r) (s : State) :
    exec i s = s.perform i (commandCalls s.cfg i) := by
  cases i <;> first | rfl | exact absurd rfl (hg _ _) | cases hc

/-- A decoded frame is one latch of its two bytes at the receiving chip. -/
theorem exec_frame {f : FrameWord} {i : Instr} (h : decode (.frame f) = .ok i) (s : State) :
    exec i s = .next (s.latchAt s.rxChip (opField f) (dataField f)) := by
  have key : ∀ n : Nat, n < 256 → (opField f).toNat = n → opField f = BitVec.ofNat 8 n := fun n hn e => by
    apply BitVec.eq_of_toNat_eq
    rw [e, BitVec.toNat_ofNat]
    omega
  simp only [decode, decodeFrame] at h
  split at h
  all_goals first
    | (next e => cases h; rw [key _ (by omega) e]; rfl)
    | cases h

theorem decode_frame_noCommand {f : FrameWord} {i : Instr} (h : decode (.frame f) = .ok i) : isCommand i = false := by
  simp only [decode, decodeFrame] at h
  split at h <;> cases h <;> rfl

theorem decode_command_isCommand {w : CmdWord} {i : Instr} (h : decode (.command w) = .ok i) : isCommand i = true := by
  simp only [decode, decodeCommand] at h
  split at h
  · split at h <;> cases h <;> rfl
  · cases h

/-- Everything a step can do. -/
theorem step_cases {s t : State} (h : step s = .next t) :
    (s.resetIn = true ∧ s.idle ∧ t = s.restart) ∨
    (s.resetIn = false ∧ ∃ k f rest, s.latches = (k, f) :: rest ∧
      t = (s.popLatch k).latchAt k (opField f) (dataField f)) ∨
    (s.resetIn = false ∧ s.latches = [] ∧ ∃ e rest, s.busEvents = e :: rest ∧ t = s.popBusEvent.applyBusEvent e) ∨
    (s.resetIn = false ∧ s.latches = [] ∧ s.busEvents = [] ∧ ∃ q, s.seq = some q ∧ t = s.resume q) ∨
    (s.resetIn = false ∧ s.latches = [] ∧ s.busEvents = [] ∧ s.idle ∧ ∃ w rest, s.port = w :: rest ∧
      ((∃ i, decode (.command w) = .ok i ∧ exec i s.popPort = .next t) ∨
        ((∃ e, decode (.command w) = .error e) ∧ t = s.popPort))) ∨
    (s.resetIn = false ∧ s.latches = [] ∧ s.busEvents = [] ∧ s.idle ∧ s.port = [] ∧ t = s) := by
  unfold step at h
  split at h
  · next ht =>
    have hr : s.resetIn = true := by
      unfold State.turn at ht
      split at ht
      · assumption
      · split at ht <;> cases ht
    split at h
    · cases h
    · next hb =>
      cases h
      exact .inl ⟨hr, by simpa [State.busy, State.idle] using hb, rfl⟩
  · next k f ht =>
    obtain ⟨hr, rest, hl⟩ : s.resetIn = false ∧ ∃ rest, s.latches = (k, f) :: rest := by
      unfold State.turn at ht
      split at ht
      · cases ht
      · next hr =>
        split at ht <;> cases ht
        next e _ _ _ => exact ⟨by simpa using hr, _, by assumption⟩
    refine .inr (.inl ⟨hr, k, f, rest, hl, ?_⟩)
    split at h
    · next i hd =>
      rw [exec_frame hd] at h
      exact (Host.Outcome.next.inj h).symm
    · exact (Host.Outcome.next.inj h).symm
  · next e ht =>
    obtain ⟨hr, hl, rest, hb⟩ : s.resetIn = false ∧ s.latches = [] ∧ ∃ rest, s.busEvents = e :: rest := by
      unfold State.turn at ht
      split at ht
      · cases ht
      · next hr =>
        split at ht <;> cases ht
        exact ⟨by simpa using hr, by assumption, _, by assumption⟩
    exact .inr (.inr (.inl ⟨hr, hl, e, rest, hb, (Host.Outcome.next.inj h).symm⟩))
  · next q ht =>
    obtain ⟨hr, hl, hb, hq⟩ : s.resetIn = false ∧ s.latches = [] ∧ s.busEvents = [] ∧ s.seq = some q := by
      unfold State.turn at ht
      split at ht
      · cases ht
      · next hr =>
        split at ht <;> cases ht
        exact ⟨by simpa using hr, by assumption, by assumption, by assumption⟩
    exact .inr (.inr (.inr (.inl ⟨hr, hl, hb, q, hq, (Host.Outcome.next.inj h).symm⟩)))
  · next w ht =>
    obtain ⟨hr, hl, hb, hq, rest, hp⟩ : s.resetIn = false ∧ s.latches = [] ∧ s.busEvents = [] ∧ s.seq = none ∧
        ∃ rest, s.port = w :: rest := by
      unfold State.turn at ht
      split at ht
      · cases ht
      · next hr =>
        split at ht <;> cases ht
        exact ⟨by simpa using hr, by assumption, by assumption, by assumption, _, by assumption⟩
    refine .inr (.inr (.inr (.inr (.inl ⟨hr, hl, hb, hq, w, rest, hp, ?_⟩))))
    split at h
    · next i hd => exact .inl ⟨i, hd, h⟩
    · next e hd => exact .inr ⟨⟨e, hd⟩, (Host.Outcome.next.inj h).symm⟩
  · next ht =>
    obtain ⟨hr, hl, hb, hq, hp⟩ : s.resetIn = false ∧ s.latches = [] ∧ s.busEvents = [] ∧ s.seq = none ∧
        s.port = [] := by
      unfold State.turn at ht
      split at ht
      · cases ht
      · next hr =>
        split at ht <;> cases ht
        exact ⟨by simpa using hr, by assumption, by assumption, by assumption, by assumption⟩
    exact .inr (.inr (.inr (.inr (.inr ⟨hr, hl, hb, hq, hp, (Host.Outcome.next.inj h).symm⟩))))

/-! ## What calls never touch, whatever the bus does -/

/-- The parts of the state that a run of calls leaves alone, and the number of chips. -/
structure Keeps (s t : State) : Prop where
  cfg : t.cfg = s.cfg
  rdata : t.rdata = s.rdata
  rxChip : t.rxChip = s.rxChip
  port : t.port = s.port
  latches : t.latches = s.latches
  busEvents : t.busEvents = s.busEvents
  resetIn : t.resetIn = s.resetIn
  chipCount : t.chips.length = s.chips.length

theorem Keeps.refl (s : State) : Keeps s s := ⟨rfl, rfl, rfl, rfl, rfl, rfl, rfl, rfl⟩

theorem Keeps.trans {s t u : State} (a : Keeps s t) (b : Keeps t u) : Keeps s u :=
  ⟨b.cfg.trans a.cfg, b.rdata.trans a.rdata, b.rxChip.trans a.rxChip, b.port.trans a.port, b.latches.trans a.latches,
    b.busEvents.trans a.busEvents, b.resetIn.trans a.resetIn, b.chipCount.trans a.chipCount⟩

theorem Quiet.keeps {s t : State} (h : Quiet s t) : Keeps s t :=
  ⟨h.cfg, h.rdata, h.rxChip, h.port, h.latches, h.busEvents, h.resetIn, h.chipCount⟩

theorem beginSetRow_keeps (s : State) (d r : Int) (v : Byte) : Keeps s (s.beginSetRow d r v).1 := by
  unfold State.beginSetRow
  split
  · exact ⟨rfl, rfl, rfl, rfl, rfl, rfl, rfl, rfl⟩
  · exact .refl s

theorem beginCall_keeps (s : State) (c : Call) : Keeps s (s.beginCall c).1 := by
  cases c with
  | transact t op data => exact .refl s
  | setRow d r v => exact beginSetRow_keeps s d r v
  | setPixel d r k on =>
    simp only [State.beginCall]
    split
    · exact beginSetRow_keeps ..
    · exact .refl s

theorem beginSetRow_other {s : State} {d r : Int} (v : Byte) {dev row : Nat} (hrow : row < 8)
    (h : ¬ (d = dev ∧ r = row)) : (s.beginSetRow d r v).1.shadowAt dev row = s.shadowAt dev row := by
  unfold State.beginSetRow
  split
  · next ok =>
    obtain ⟨hd, hr⟩ := (rangeOk_iff s d r).mp ok
    refine State.read_putShadow_other s v fun e => h ?_
    obtain ⟨e1, e2⟩ := shadowAddr_inj hrow (by omega) e
    have := hd.1
    omega
  · rfl

theorem beginCall_other {s : State} {c : Call} {dev row : Nat} (hrow : row < 8) (h : ¬ c.sets dev row) :
    (s.beginCall c).1.shadowAt dev row = s.shadowAt dev row := by
  cases c with
  | transact t op data => rfl
  | setRow d r v => exact beginSetRow_other v hrow h
  | setPixel d r k on =>
    simp only [State.beginCall]
    split
    · exact beginSetRow_other _ hrow h
    · rfl

theorem runCalls_keeps (s : State) (cs : List Call) : Keeps s (s.runCalls cs).1 := by
  induction cs generalizing s with
  | nil => exact .refl s
  | cons c cs ih =>
    have h := (beginCall_keeps s c).trans (runWire_quiet (s.beginCall c).1 (s.beginCall c).2).keeps
    unfold State.runCalls
    split
    · next t ht => rw [ht] at h; exact h.trans (ih t)
    · next t op ops ht => rw [ht] at h; exact h

theorem runCalls_other {s : State} {cs : List Call} {dev row : Nat} (hrow : row < 8)
    (h : ∀ c, c ∈ cs → ¬ c.sets dev row) : (s.runCalls cs).1.shadowAt dev row = s.shadowAt dev row := by
  induction cs generalizing s with
  | nil => rfl
  | cons c cs ih =>
    have hq := runWire_quiet (s.beginCall c).1 (s.beginCall c).2
    have hc := beginCall_other (s := s) hrow (h c (List.mem_cons_self ..))
    have hs : ((s.beginCall c).1.runWire (s.beginCall c).2).1.shadowAt dev row = s.shadowAt dev row := by
      rw [← hc, State.shadowAt, hq.shadow, State.shadowAt]
    unfold State.runCalls
    split
    · next t ht => rw [ht] at hs; rw [ih fun c hc => h c (List.mem_cons_of_mem _ hc), hs]
    · next t op ops ht => rw [ht] at hs; exact hs

theorem runRest_keeps (s : State) (cs : List Call) (ops : List WireOp) : Keeps s (s.runRest cs ops).1 := by
  have h := (runWire_quiet s ops).keeps
  unfold State.runRest
  split
  · next t ht => rw [ht] at h; exact h.trans (runCalls_keeps t cs)
  · next t op rest ht => rw [ht] at h; exact h

theorem settle_keeps (cmd : Option Instr) (x : State × List Call × List WireOp) : Keeps x.1 (State.settle cmd x) := by
  obtain ⟨s, cs, ops⟩ := x
  cases cs <;> cases ops <;> exact ⟨rfl, rfl, rfl, rfl, rfl, rfl, rfl, rfl⟩

theorem settle_shadow (cmd : Option Instr) (x : State × List Call × List WireOp) :
    (State.settle cmd x).shadow = x.1.shadow := by
  obtain ⟨s, cs, ops⟩ := x
  cases cs <;> cases ops <;> rfl

/-- A command that answers a next state started idle, and did so by running its calls. -/
theorem perform_next {s t : State} {cmd : Instr} {calls : List Call} (h : s.perform cmd calls = .next t) :
    s.idle ∧ t = State.settle (some cmd) (s.runCalls calls) := by
  unfold State.perform at h
  split at h
  · cases h
  · next hb => exact ⟨by simpa [State.busy, State.idle] using hb, (Host.Outcome.next.inj h).symm⟩

/-! ## A stop by the bus is no more than a pause -/

/-- The bus that never makes anything wait. -/
def State.openBus (s : State) : State := { s with bus := ⟨none, none⟩ }

theorem wireOp_openBus {s t : State} {op : WireOp} (h : s.wireOp op = some t) :
    s.openBus.wireOp op = some t.openBus := by
  cases op with
  | acquire =>
    simp only [State.wireOp] at h
    split at h
    · cases h
    · cases h; rfl
  | csLow => cases h; rfl
  | byte b =>
    cases hb : s.cfg.backend with
    | bitbang =>
      have hb' : s.openBus.cfg.backend = .bitbang := hb
      simp only [State.wireOp, hb] at h
      simp only [State.wireOp, hb']
      cases h
      rfl
    | block =>
      have hb' : s.openBus.cfg.backend = .block := hb
      simp only [State.wireOp, hb] at h
      simp only [State.wireOp, hb']
      split at h
      · cases h
      · cases h; rfl
  | csHigh => cases h; rfl
  | release => cases h; rfl

/-- What a stopped run of wire operations leaves, run on the open bus, ends as the whole run on the open bus does. -/
theorem runWire_openBus (s : State) (ops : List WireOp) :
    s.openBus.runWire ops = (s.runWire ops).1.openBus.runWire (s.runWire ops).2 := by
  induction ops generalizing s with
  | nil => rfl
  | cons op ops ih =>
    cases h : s.wireOp op with
    | none => simp [State.runWire, h]
    | some t =>
      have h' := wireOp_openBus h
      simp only [State.runWire, h, h']
      exact ih t

theorem beginSetRow_openBus (s : State) (d r : Int) (v : Byte) :
    s.openBus.beginSetRow d r v = ((s.beginSetRow d r v).1.openBus, (s.beginSetRow d r v).2) := by
  unfold State.beginSetRow
  show (if (deviceOk s.cfg d && rowOk r) = true then _ else _) = _
  split <;> rfl

theorem beginCall_openBus (s : State) (c : Call) :
    s.openBus.beginCall c = ((s.beginCall c).1.openBus, (s.beginCall c).2) := by
  cases c with
  | transact t op data => rfl
  | setRow d r v => exact beginSetRow_openBus s d r v
  | setPixel d r k on =>
    have h := beginSetRow_openBus s d r (pixelByte (s.shadowAt d.toNat r.toNat) k.toNat on)
    by_cases hk : (deviceOk s.cfg d && rowOk r && rowOk k) = true
    · have e : s.beginCall (.setPixel d r k on) =
          s.beginSetRow d r (pixelByte (s.shadowAt d.toNat r.toNat) k.toNat on) := if_pos hk
      rw [e, ← h]
      exact if_pos hk
    · have e : s.beginCall (.setPixel d r k on) = (s, []) := if_neg hk
      rw [e]
      exact if_neg hk

/-- On the open bus no run of wire operations stops. -/
theorem runWire_openBus_ends (s : State) (ops : List WireOp) : (s.openBus.runWire ops).2 = [] := by
  induction ops generalizing s with
  | nil => rfl
  | cons op ops ih =>
    obtain ⟨t, ht⟩ : ∃ t : State, s.openBus.wireOp op = some t.openBus := by
      cases op with
      | acquire => exact ⟨{ s with own := true, wire := s.wire ++ opEvents s.cfg.backend .acquire }, rfl⟩
      | csLow => exact ⟨{ s with csN := false, wire := s.wire ++ opEvents s.cfg.backend .csLow }, rfl⟩
      | byte b =>
        cases hb : s.cfg.backend with
        | bitbang =>
          have h : s.openBus.cfg.backend = .bitbang := hb
          exact ⟨{ s with
            mosi := b.getLsbD 0, sclk := false, chain := shiftIn s.chips.length s.chain b,
            wire := s.wire ++ opEvents .bitbang (.byte b) }, by simp only [State.wireOp, h]; rfl⟩
        | block =>
          have h : s.openBus.cfg.backend = .block := hb
          exact ⟨{ s with
            chain := shiftIn s.chips.length s.chain b,
            wire := s.wire ++ opEvents .block (.byte b) }, by simp only [State.wireOp, h]; rfl⟩
      | csHigh =>
        exact ⟨{ s with
          csN := true, chips := latchChips s.chips s.chain, wire := s.wire ++ opEvents s.cfg.backend .csHigh }, rfl⟩
      | release => exact ⟨{ s with own := false, wire := s.wire ++ opEvents s.cfg.backend .release }, rfl⟩
    simp only [State.runWire, ht]
    exact ih t

/-- The open bus stays open. -/
theorem runWire_openBus_bus (s : State) (ops : List WireOp) :
    (s.openBus.runWire ops).1.openBus = (s.openBus.runWire ops).1 := by
  induction ops generalizing s with
  | nil => rfl
  | cons op ops ih =>
    cases h : s.openBus.wireOp op with
    | none => simp only [State.runWire, h]; rfl
    | some t =>
      have ht : t.openBus = t := by
        have h' := wireOp_openBus h
        rw [show s.openBus.openBus = s.openBus from rfl, h] at h'
        exact (Option.some.inj h').symm
      simp only [State.runWire, h]
      rw [← ht]
      exact ih t

theorem runCalls_openBus (s : State) (cs : List Call) :
    s.openBus.runCalls cs =
      (s.runCalls cs).1.openBus.runRest (s.runCalls cs).2.1 (s.runCalls cs).2.2 := by
  induction cs generalizing s with
  | nil => rfl
  | cons c cs ih =>
    have hb := beginCall_openBus s c
    have hw := runWire_openBus (s.beginCall c).1 (s.beginCall c).2
    simp only [State.runCalls, hb, hw]
    cases hx : (s.beginCall c).1.runWire (s.beginCall c).2 with
    | mk t rest =>
      cases rest with
      | nil => exact ih t
      | cons op ops => rfl

/-- On the open bus a sequence of calls never stops. -/
theorem runCalls_openBus_ends (s : State) (cs : List Call) :
    ∃ t : State, s.openBus.runCalls cs = (t.openBus, [], []) := by
  induction cs generalizing s with
  | nil => exact ⟨s, rfl⟩
  | cons c cs ih =>
    have he := runWire_openBus_ends (s.beginCall c).1 (s.beginCall c).2
    have hw := runWire_openBus (s.beginCall c).1 (s.beginCall c).2
    have hk : ∃ t : State, (s.beginCall c).1.openBus.runWire (s.beginCall c).2 = (t.openBus, []) := by
      refine ⟨((s.beginCall c).1.openBus.runWire (s.beginCall c).2).1, Prod.ext ?_ he⟩
      exact (runWire_openBus_bus _ _).symm
    obtain ⟨t, ht⟩ := hk
    simp only [State.runCalls, beginCall_openBus, ht]
    exact ih t

/-! ## A run does not look at `seq` -/

theorem wireOp_seq (s : State) (q : Option Sequencer) (op : WireOp) :
    State.wireOp { s with seq := q } op =
      (s.wireOp op).map fun t => { t with seq := q } := by
  cases op with
  | acquire => simp only [State.wireOp]; cases s.bus.grants.take <;> rfl
  | csLow => rfl
  | byte b =>
    simp only [State.wireOp]
    cases s.cfg.backend
    · rfl
    · simp only []
      cases s.bus.slots.take <;> rfl
  | csHigh => rfl
  | release => rfl

theorem runWire_seq (s : State) (q : Option Sequencer) (ops : List WireOp) :
    State.runWire { s with seq := q } ops =
      ({ (s.runWire ops).1 with seq := q }, (s.runWire ops).2) := by
  induction ops generalizing s with
  | nil => rfl
  | cons op ops ih =>
    unfold State.runWire
    rw [wireOp_seq]
    cases s.wireOp op with
    | none => rfl
    | some t => exact ih t

theorem beginSetRow_seq (s : State) (q : Option Sequencer) (d r : Int) (v : Byte) :
    State.beginSetRow { s with seq := q } d r v =
      ({ (s.beginSetRow d r v).1 with seq := q }, (s.beginSetRow d r v).2) := by
  unfold State.beginSetRow
  show (if (deviceOk s.cfg d && rowOk r) = true then _ else _) = _
  split <;> rfl

theorem beginCall_seq (s : State) (q : Option Sequencer) (c : Call) :
    State.beginCall { s with seq := q } c =
      ({ (s.beginCall c).1 with seq := q }, (s.beginCall c).2) := by
  cases c with
  | transact t op data => rfl
  | setRow d r v => exact beginSetRow_seq s q d r v
  | setPixel d r k on =>
    have h := beginSetRow_seq s q d r (pixelByte (s.shadowAt d.toNat r.toNat) k.toNat on)
    by_cases hk : (deviceOk s.cfg d && rowOk r && rowOk k) = true
    · have e : s.beginCall (.setPixel d r k on) =
          s.beginSetRow d r (pixelByte (s.shadowAt d.toNat r.toNat) k.toNat on) := if_pos hk
      rw [e, ← h]
      exact if_pos hk
    · have e : s.beginCall (.setPixel d r k on) = (s, []) := if_neg hk
      rw [e]
      exact if_neg hk

theorem runCalls_seq (s : State) (q : Option Sequencer) (cs : List Call) :
    State.runCalls { s with seq := q } cs =
      ({ (s.runCalls cs).1 with seq := q }, (s.runCalls cs).2) := by
  induction cs generalizing s with
  | nil => rfl
  | cons c cs ih =>
    unfold State.runCalls
    rw [beginCall_seq]
    simp only [runWire_seq]
    rcases (s.beginCall c).1.runWire (s.beginCall c).2 with ⟨t, _ | ⟨op, ops⟩⟩
    · exact ih t
    · rfl

theorem runRest_seq (s : State) (q : Option Sequencer) (cs : List Call) (ops : List WireOp) :
    State.runRest { s with seq := q } cs ops =
      ({ (s.runRest cs ops).1 with seq := q }, (s.runRest cs ops).2) := by
  unfold State.runRest
  simp only [runWire_seq]
  rcases s.runWire ops with ⟨t, _ | ⟨op, ops⟩⟩
  · exact runCalls_seq t q cs
  · rfl

end Sys2Proof.Machine
end

