-- ==== Sys2Proof/Laws/Stall.lean ====
section
/-! SUPPORT. Transactions that the bus may stop anywhere: until the window closes no chip changes, and what is left is the
rest of the same window; when it closes every chip has taken its frame. The same for a call and for what a step starts. -/

namespace Sys2Proof.Machine

/-! ## The shift path inside a window -/

/-- The bytes `sent` stand in the shift path, the last one first, before what was there. -/
def State.shifted (s : State) (sent : List Byte) : Prop :=
  ∃ old, s.chain.take (2 * s.chips.length) = (sent.reverse ++ old).take (2 * s.chips.length)

theorem State.shifted_nil (s : State) : s.shifted [] := ⟨s.chain, rfl⟩

theorem State.shifted_of_take {s : State} {sent : List Byte} (h : s.chain.take sent.length = sent.reverse) :
    s.shifted sent := ⟨s.chain.drop sent.length, by rw [← h, List.take_append_drop]⟩

theorem State.shifted_take {s : State} {sent : List Byte} (h : s.shifted sent) (hl : sent.length ≤ 2 * s.chips.length) :
    s.chain.take sent.length = sent.reverse := by
  obtain ⟨old, h⟩ := h
  have h' := congrArg (List.take sent.length) h
  rw [List.take_take, List.take_take, Nat.min_eq_left hl] at h'
  rw [h', List.take_append_of_le_length (by simp), List.take_of_length_le (by simp)]

theorem shiftIn_take (m : Nat) (chain : List Byte) (b : Byte) :
    (shiftIn m chain b).take (2 * m) = (b :: chain.take (2 * m)).take (2 * m) := by
  unfold shiftIn
  rw [List.take_take, Nat.min_self]
  rcases Nat.eq_zero_or_pos (2 * m) with h | h
  · rw [h]; rfl
  · obtain ⟨k, hk⟩ := Nat.exists_eq_succ_of_ne_zero (Nat.ne_of_gt h)
    rw [hk, List.take_succ_cons, List.take_succ_cons, List.take_take]
    congr 2
    omega

theorem State.shifted_snoc {s t : State} {sent : List Byte} {b : Byte} (h : s.shifted sent)
    (hc : t.chain = shiftIn s.chips.length s.chain b) (hl : t.chips.length = s.chips.length) : t.shifted (sent ++ [b]) := by
  obtain ⟨old, h⟩ := h
  refine ⟨old, ?_⟩
  rw [hc, hl, shiftIn_take, h, List.reverse_append]
  rcases Nat.eq_zero_or_pos (2 * s.chips.length) with h0 | h0
  · rw [h0]; rfl
  · obtain ⟨k, hk⟩ := Nat.exists_eq_succ_of_ne_zero (Nat.ne_of_gt h0)
    rw [hk, List.take_succ_cons, List.take_take, List.reverse_singleton, List.singleton_append, List.cons_append,
      List.take_succ_cons]
    congr 2
    omega

/-- With all bytes of a transaction shifted in, chip `k` of the first `n` takes the real frame if it is the target and a
no-op frame otherwise. -/
theorem latchChips_shifted {s : State} {n d : Nat} {f : Frame} (h : s.shifted (txBytes n d f)) {k : Nat} (hk : k < n) :
    (latchChips s.chips s.chain)[k]? = (s.chips[k]?).map fun c => if k = d then c.latch f.op f.data else c := by
  obtain ⟨old, h⟩ := h
  rw [← latchChips_take, h, latchChips_take, txBytes, frameBytes_reverse, latchChips_near,
    dif_pos (by simpa [txFrames_length] using hk), txFrames_reverse_get d f n k hk]
  by_cases e : k = d
  · simp [e]
  · simp [e, Frame.noop, Chip.latch_noop]

/-! ## One transaction, stopped or not -/

/-- What is left of the transaction of frame `f` to device `d` in a BLOCK state. -/
def State.left (s : State) (ops : List WireOp) (d : Nat) (f : Frame) : Prop :=
  ops = txOps .block (txBytes s.cfg.n d f) ∨
    ∃ sent rest, txBytes s.cfg.n d f = sent ++ rest ∧ ops = rest.map .byte ++ [.csHigh, .release] ∧ s.shifted sent

/-- Every chip with a device index has taken its frame of this transaction. -/
def State.took (s t : State) (d : Nat) (f : Frame) : Prop :=
  ∀ k, k < s.cfg.n → t.chips[k]? = (s.chips[k]?).map fun c => if k = d then c.latch f.op f.data else c

theorem runWire_window {s : State} {d : Nat} {f : Frame} {sent rest : List Byte} (hb : s.cfg.backend = .block)
    (hs : s.shifted sent) (h : txBytes s.cfg.n d f = sent ++ rest) :
    ((s.runWire (rest.map .byte ++ [.csHigh, .release])).2 = [] ∧
        s.took (s.runWire (rest.map .byte ++ [.csHigh, .release])).1 d f) ∨
      ((s.runWire (rest.map .byte ++ [.csHigh, .release])).2 ≠ [] ∧
        (s.runWire (rest.map .byte ++ [.csHigh, .release])).1.chips = s.chips ∧
        (s.runWire (rest.map .byte ++ [.csHigh, .release])).1.left
          (s.runWire (rest.map .byte ++ [.csHigh, .release])).2 d f) := by
  induction rest generalizing s sent with
  | nil =>
    refine .inl ⟨rfl, fun k hk => ?_⟩
    rw [List.append_nil] at h
    exact latchChips_shifted (h ▸ hs) hk
  | cons b bs ih =>
    simp only [List.map_cons, List.cons_append]
    cases ht : s.bus.slots.take with
    | none =>
      have hw : s.wireOp (.byte b) = none := by simp [State.wireOp, hb, ht]
      simp only [State.runWire, hw]
      exact .inr ⟨by simp, by trivial, .inr ⟨sent, b :: bs, h, rfl, hs⟩⟩
    | some k =>
      have hw : s.wireOp (.byte b) = some { s with
          bus := { s.bus with slots := k }, chain := shiftIn s.chips.length s.chain b,
          wire := s.wire ++ opEvents s.cfg.backend (.byte b) } := by simp [State.wireOp, hb, ht]
      simp only [State.runWire, hw]
      exact ih (s := { s with
          bus := { s.bus with slots := k }, chain := shiftIn s.chips.length s.chain b,
          wire := s.wire ++ opEvents s.cfg.backend (.byte b) }) (sent := sent ++ [b]) hb (State.shifted_snoc hs rfl rfl)
        (by simpa using h)

/-- What is left of a transaction ends with every frame taken, or stops with no chip changed and a rest of it left. -/
theorem runWire_left {s : State} {ops : List WireOp} {d : Nat} {f : Frame} (hb : s.cfg.backend = .block)
    (h : s.left ops d f) :
    ((s.runWire ops).2 = [] ∧ s.took (s.runWire ops).1 d f) ∨
      ((s.runWire ops).2 ≠ [] ∧ (s.runWire ops).1.chips = s.chips ∧ (s.runWire ops).1.left (s.runWire ops).2 d f) := by
  rcases h with rfl | ⟨sent, rest, h, rfl, hs⟩
  · simp only [txOps]
    cases ht : s.bus.grants.take with
    | none =>
      have hw : s.wireOp .acquire = none := by simp [State.wireOp, ht]
      simp only [State.runWire, hw]
      exact .inr ⟨by simp, by trivial, .inl rfl⟩
    | some g =>
      have hw : s.wireOp .acquire = some { s with
          bus := { s.bus with grants := g }, own := true, wire := s.wire ++ opEvents s.cfg.backend .acquire } := by
        simp [State.wireOp, ht]
      rw [State.runWire, hw]
      exact runWire_window (s := { s with
          bus := { s.bus with grants := g }, own := true, csN := false,
          wire := s.wire ++ opEvents s.cfg.backend .acquire ++ opEvents s.cfg.backend .csLow }) (sent := []) hb
        (State.shifted_nil _) rfl
  · exact runWire_window hb hs h

/-- A whole transaction in either backend: it ends with every frame taken, or the BLOCK bus stops it with no chip
changed and a rest of it left. -/
theorem runWire_whole (s : State) (d : Nat) (f : Frame) :
    let r := s.runWire (txOps s.cfg.backend (txBytes s.cfg.n d f))
    (r.2 = [] ∧ s.took r.1 d f) ∨ (r.2 ≠ [] ∧ s.cfg.backend = .block ∧ r.1.chips = s.chips ∧ r.1.left r.2 d f) := by
  cases hb : s.cfg.backend with
  | bitbang =>
    have h := runWire_tx s (txBytes s.cfg.n d f) (.inl hb)
    rw [hb] at h
    simp only [h]
    exact .inl ⟨by trivial, fun k hk => afterTx_chips s s.cfg.n d f k hk⟩
  | block =>
    rcases runWire_left hb (.inl rfl : s.left (txOps .block (txBytes s.cfg.n d f)) d f) with h | h
    · exact .inl h
    · exact .inr ⟨h.1, by trivial, h.2⟩

/-- A register of chip `k` after the frames of a transaction were taken. -/
theorem State.took.chipReg {s t : State} {d : Nat} {f : Frame} (h : s.took t d f) {k : Nat} (hk : k < s.cfg.n)
    (ha : f.op = opNoop ∨ assignedOpcode f.op = true) (op : Nat) :
    t.chipReg k op =
      if k = d ∧ k < s.chips.length ∧ f.op ≠ opNoop ∧ f.op.toNat = op then some f.data else s.chipReg k op := by
  unfold State.chipReg
  rw [h k hk]
  cases hc : s.chips[k]? with
  | none => simp [List.getElem?_eq_none_iff.mp hc]
  | some c =>
    have hlt : k < s.chips.length := (List.getElem?_eq_some_iff.mp hc).1
    by_cases ht : k = d
    · simp only [Option.map_some, if_pos ht, Option.bind_some, Chip.read_latch c f.op f.data op ha]
      simp [ht, ht ▸ hlt]
    · simp [ht]

theorem State.took.other {s t : State} {d : Nat} {f : Frame} (h : s.took t d f) {k : Nat} (hk : k < s.cfg.n) (hd : k ≠ d)
    (op : Nat) : t.chipReg k op = s.chipReg k op := by
  unfold State.chipReg
  rw [h k hk]
  cases s.chips[k]? <;> simp [hd]

/-- A register of a chip that latches a frame standing alone. -/
theorem State.chipReg_latchAt (s : State) (k0 k op : Nat) (o data : Byte) (ha : o = opNoop ∨ assignedOpcode o = true) :
    (s.latchAt k0 o data).chipReg k op =
      if k = k0 ∧ k < s.chips.length ∧ o ≠ opNoop ∧ o.toNat = op then some data else s.chipReg k op := by
  simp only [State.chipReg, State.latchAt, List.getElem?_modify]
  by_cases hk : k0 = k
  · subst hk
    cases hc : s.chips[k0]? with
    | none => simp [List.getElem?_eq_none_iff.mp hc]
    | some c =>
      have hlt : k0 < s.chips.length := (List.getElem?_eq_some_iff.mp hc).1
      simp [Chip.read_latch c o data op ha, hlt]
  · simp [hk, Ne.symm hk]

/-! ## What a call starts -/

/-- A call makes no wire operations, or the whole transaction of one frame to a device in range; a `SetRow` has then
written the shadow byte its frame carries (rule R42). -/
theorem beginCall_cases (s : State) (c : Call) :
    (s.beginCall c = (s, [])) ∨
    (∃ t op data, c = .transact t op data ∧ s.hasDevice t ∧
      s.beginCall c = (s, txOps s.cfg.backend (txBytes s.cfg.n t.toNat ⟨op, data⟩))) ∨
    ∃ d r v, d < s.cfg.n ∧ r < 8 ∧ c.sets d r ∧ (∀ x y w, c = .setRow x y w → w = v) ∧
      s.beginCall c = (s.putShadow d r v, txOps s.cfg.backend (txBytes s.cfg.n d ⟨BitVec.ofNat 8 (1 + r), v⟩)) := by
  have row : ∀ (d r : Int) (v : Byte), s.beginSetRow d r v = (s, []) ∨
      (s.hasDevice d ∧ 0 ≤ r ∧ r ≤ 7) ∧ s.beginSetRow d r v =
        (s.putShadow d.toNat r.toNat v, txOps s.cfg.backend (txBytes s.cfg.n d.toNat ⟨BitVec.ofNat 8 (1 + r.toNat), v⟩)) := by
    intro d r v
    unfold State.beginSetRow
    split
    · next ok =>
      have h := (rangeOk_iff s d r).mp ok
      refine .inr ⟨h, ?_⟩
      unfold transactOps
      rw [if_pos ((deviceOk_iff s.cfg d).mpr h.1)]
      rfl
    · exact .inl rfl
  have sets : ∀ {d r : Int}, s.hasDevice d ∧ 0 ≤ r ∧ r ≤ 7 → d = (d.toNat : Int) ∧ r = (r.toNat : Int) := fun h => by
    have := h.1.1
    omega
  cases c with
  | transact t op data =>
    by_cases h : s.hasDevice t
    · refine .inr (.inl ⟨t, op, data, rfl, h, ?_⟩)
      simp only [State.beginCall, transactOps]
      rw [if_pos ((deviceOk_iff s.cfg t).mpr h)]
    · left
      simp only [State.beginCall, transactOps]
      rw [if_neg fun x => h ((deviceOk_iff s.cfg t).mp x)]
  | setRow d r v =>
    rcases row d r v with h | ⟨hr, h⟩
    · exact .inl h
    · exact .inr (.inr ⟨_, _, v, hasDevice_toNat hr.1, by omega, sets hr, fun _ _ _ e => by cases e; rfl, h⟩)
  | setPixel d r k on =>
    by_cases hk : (deviceOk s.cfg d && rowOk r && rowOk k) = true
    · have e : s.beginCall (.setPixel d r k on) =
          s.beginSetRow d r (pixelByte (s.shadowAt d.toNat r.toNat) k.toNat on) := if_pos hk
      rcases row d r (pixelByte (s.shadowAt d.toNat r.toNat) k.toNat on) with h | ⟨hr, h⟩
      · exact .inl (e.trans h)
      · exact .inr (.inr ⟨_, _, _, hasDevice_toNat hr.1, by omega, sets hr, fun _ _ _ x => (by cases x), e.trans h⟩)
    · exact .inl (if_neg hk)

theorem settle_chipReg (cmd : Option Instr) (x : State × List Call × List WireOp) (k op : Nat) :
    (State.settle cmd x).chipReg k op = x.1.chipReg k op := by
  obtain ⟨s, cs, ops⟩ := x
  cases cs <;> cases ops <;> rfl

/-! ## Rests of commands, and whose turn it is -/

/-- A rest of a command that has no `SetRow` left to make on a row leaves its shadow byte as it was. -/
theorem runRest_other {s : State} {cs : List Call} {ops : List WireOp} {dev row : Nat} (hrow : row < 8)
    (h : ∀ c, c ∈ cs → ¬ c.sets dev row) : (s.runRest cs ops).1.shadowAt dev row = s.shadowAt dev row := by
  have hq := (runWire_quiet s ops).shadow
  have hs : (s.runWire ops).1.shadowAt dev row = s.shadowAt dev row := by rw [State.shadowAt, hq, State.shadowAt]
  unfold State.runRest
  split
  · next t ht => rw [ht] at hs; rw [runCalls_other hrow h, hs]
  · next t op rest ht => rw [ht] at hs; exact hs

theorem turn_reset {s : State} (h : s.resetIn = true) : s.turn = .reset := by simp [State.turn, h]

theorem turn_sequencer {s : State} {q : Sequencer} (hr : s.resetIn = false) (hl : s.latches = []) (hb : s.busEvents = [])
    (hq : s.seq = some q) : s.turn = .sequencer q := by simp [State.turn, hr, hl, hb, hq]

theorem turn_command {s : State} {w : CmdWord} {rest : List CmdWord} (hr : s.resetIn = false) (hl : s.latches = [])
    (hb : s.busEvents = []) (hq : s.idle) (hp : s.port = w :: rest) : s.turn = .command w := by
  simp [State.turn, hr, hl, hb, show s.seq = none from hq, hp]

end Sys2Proof.Machine
end

