-- ==== Sys2Proof/Tests/Slice0.lean ====
section
/-! SUPPORT. The model's own tests: ill-formed instructions refused; a word of every row decoded, written out from the encodings of
30_encoding.md; one step on small states, with the expected results of 95_test_vectors.md; and for every statement with
hypotheses a concrete state and operands that meet them. -/

namespace Sys2Proof.Tests

open Sys2Proof Sys2Proof.Machine

set_option maxRecDepth 20000

/-! ## WellFormed -/

theorem test_illFormed_transact :
    Instr.wellFormed (.transact 256 0 0) = false ∧
    Instr.wellFormed (.transact (-1) 0 0) = false := by decide

theorem test_illFormed_getrow :
    Instr.wellFormed (.getrow 256 0) = false ∧ Instr.wellFormed (.getrow 0 256) = false := by decide

theorem test_illFormed_setrow :
    Instr.wellFormed (.setrow 256 0 0) = false ∧ Instr.wellFormed (.setrow 0 (-1) 0) = false := by decide

theorem test_illFormed_setpixel :
    Instr.wellFormed (.setpixel 256 0 0 true) = false ∧
    Instr.wellFormed (.setpixel 0 256 0 true) = false ∧
    Instr.wellFormed (.setpixel 0 0 256 true) = false := by decide

theorem test_illFormed_setrowbits :
    Instr.wellFormed (.setrowbits 256 0 0) = false ∧
    Instr.wellFormed (.setrowbits 0 256 0) = false := by decide

theorem test_illFormed_setcolbits :
    Instr.wellFormed (.setcolbits 256 0 0) = false ∧
    Instr.wellFormed (.setcolbits 0 256 0) = false := by decide

theorem test_illFormed_setdigit :
    Instr.wellFormed (.setdigit 256 0 0 true) = false ∧
    Instr.wellFormed (.setdigit 0 256 0 true) = false ∧
    Instr.wellFormed (.setdigit 0 0 (-1) true) = false := by decide

theorem test_illFormed_setchar :
    Instr.wellFormed (.setchar 256 0 0 true) = false ∧
    Instr.wellFormed (.setchar 0 256 0 true) = false ∧
    Instr.wellFormed (.setchar 0 0 256 true) = false := by decide

theorem test_illFormed_cleardev :
    Instr.wellFormed (.cleardev 256) = false := by decide

theorem test_illFormed_setshutdown :
    Instr.wellFormed (.setshutdown (-1) true) = false := by decide

theorem test_illFormed_setscanlimit :
    Instr.wellFormed (.setscanlimit 256 0) = false ∧
    Instr.wellFormed (.setscanlimit 0 256) = false := by decide

theorem test_illFormed_setintensity :
    Instr.wellFormed (.setintensity 256 0) = false ∧
    Instr.wellFormed (.setintensity 0 256) = false := by decide

theorem test_illFormed_initdev :
    Instr.wellFormed (.initdev 256) = false := by decide

theorem test_illFormed_startdev :
    Instr.wellFormed (.startdev 256 0) = false ∧ Instr.wellFormed (.startdev 0 256) = false := by decide

theorem test_illFormed_drawpixel :
    Instr.wellFormed (.drawpixel 256 0 0) = false ∧
    Instr.wellFormed (.drawpixel 0 256 0) = false ∧
    Instr.wellFormed (.drawpixel 0 0 256) = false := by decide

theorem test_wellFormed_edges : Instr.wellFormed (.transact 255 0xFF 0xFF) = true ∧ Instr.wellFormed .clearall = true ∧
    Instr.wellFormed (.noop 0xFF) = true := by decide

/-! ## Decoding: `CMD`, `F`, `RSV`, `DEV`, `A`, `B` written out in that order (rule R55), or `OP`, `DATA` (rule R50) -/

theorem test_decode_transact :
    decode (.command 0b00000_0_00_00000001_00001010_00001111) = .ok (.transact 1 10 15) := by decide

theorem test_decode_getrow :
    decode (.command 0b00001_0_00_00000010_00000111_00000000) = .ok (.getrow 2 7) := by decide

theorem test_decode_setrow :
    decode (.command 0b00010_0_00_00000001_00000000_10101010) = .ok (.setrow 1 0 0xAA) := by decide

theorem test_decode_setpixel :
    decode (.command 0b00011_1_00_00000000_00000010_00000101) = .ok (.setpixel 0 2 5 true) := by decide

theorem test_decode_setrowbits :
    decode (.command 0b00100_0_00_00000000_00000011_11111111) = .ok (.setrowbits 0 3 0xFF) := by decide

theorem test_decode_setcolbits :
    decode (.command 0b00101_0_00_00000010_00000011_10100000) = .ok (.setcolbits 2 3 0xA0) := by decide

theorem test_decode_setdigit :
    decode (.command 0b00110_1_00_00000001_00000111_00000101) = .ok (.setdigit 1 7 5 true) := by decide

theorem test_decode_setchar :
    decode (.command 0b00111_0_00_00000000_00000011_01000001) = .ok (.setchar 0 3 65 false) := by decide

theorem test_decode_cleardev :
    decode (.command 0b01000_0_00_10000001_00000000_00000000) = .ok (.cleardev 129) := by decide

theorem test_decode_clearall :
    decode (.command 0b01001_0_00_00000000_00000000_00000000) = .ok (.clearall) := by decide

theorem test_decode_setshutdown :
    decode (.command 0b01010_1_00_00000011_00000000_00000000) = .ok (.setshutdown 3 true) := by decide

theorem test_decode_setscanlimit :
    decode (.command 0b01011_0_00_00000001_00000000_00000111) = .ok (.setscanlimit 1 7) := by decide

theorem test_decode_setintensity :
    decode (.command 0b01100_0_00_00000000_00000000_00001111) = .ok (.setintensity 0 15) := by decide

theorem test_decode_initdev :
    decode (.command 0b01101_0_00_00000010_00000000_00000000) = .ok (.initdev 2) := by decide

theorem test_decode_startdev :
    decode (.command 0b01110_0_00_00000001_00000000_00001000) = .ok (.startdev 1 8) := by decide

theorem test_decode_drawpixel :
    decode (.command 0b01111_0_00_00000001_00000011_00000100) = .ok (.drawpixel 3 4 1) := by decide

theorem test_decode_noop : decode (.frame 0b00000000_10000001) = .ok (.noop 0x81) := by decide

theorem test_decode_digit0 : decode (.frame 0b00000001_10000010) = .ok (.digit0 0x82) := by decide

theorem test_decode_digit1 : decode (.frame 0b00000010_10000011) = .ok (.digit1 0x83) := by decide

theorem test_decode_digit2 : decode (.frame 0b00000011_10000100) = .ok (.digit2 0x84) := by decide

theorem test_decode_digit3 : decode (.frame 0b00000100_10000101) = .ok (.digit3 0x85) := by decide

theorem test_decode_digit4 : decode (.frame 0b00000101_10000110) = .ok (.digit4 0x86) := by decide

theorem test_decode_digit5 : decode (.frame 0b00000110_10000111) = .ok (.digit5 0x87) := by decide

theorem test_decode_digit6 : decode (.frame 0b00000111_10001000) = .ok (.digit6 0x88) := by decide

theorem test_decode_digit7 : decode (.frame 0b00001000_10001001) = .ok (.digit7 0x89) := by decide

theorem test_decode_decodemode : decode (.frame 0b00001001_10001010) = .ok (.decodemode 0x8A) := by decide

theorem test_decode_intensity : decode (.frame 0b00001010_10001011) = .ok (.intensity 0x8B) := by decide

theorem test_decode_scanlimit : decode (.frame 0b00001011_10001100) = .ok (.scanlimit 0x8C) := by decide

theorem test_decode_shutdown : decode (.frame 0b00001100_10001101) = .ok (.shutdown 0x8D) := by decide

theorem test_decode_displaytest : decode (.frame 0b00001111_10010000) = .ok (.displaytest 0x90) := by decide

/-- Rules R58, R59: vector V8. -/
theorem test_decode_reserved :
    decode (.command 0x80000000) = .error (.reservedCommand 16) ∧
    decode (.command 0xF8000000) = .error (.reservedCommand 31) ∧
    decode (.command 0x11000001) = .error (.reservedBits 1) ∧
    decode (.command 0x4C12FFFF) = .ok .clearall ∧
    decode (.command 0x140100AA) = .ok (.setrow 1 0 0xAA) ∧
    decode (.frame 0x0D00) = .error (.unassignedOpcode 13) ∧
    decode (.frame 0xFFFF) = .error (.unassignedOpcode 255) := by decide

theorem test_tableWord :
    decodeTableWord 32 0x58010007 = some (.setscanlimit 1 7) ∧ decodeTableWord 16 0x0C01 = some (.shutdown 0x01) ∧
    decodeTableWord 32 0x11000001 = none ∧ decodeTableWord 8 0 = none := by decide

/-! ## Small states -/

/-- The illustrative glyphs of 93_implementation_defined.md G6. -/
def glyphs : Vector Byte 128 :=
  ⟨([0x7E, 0x30, 0x6D, 0x79, 0x33, 0x5B, 0x5F, 0x70, 0x7F, 0x7B, 0x77, 0x1F, 0x0D, 0x3D, 0x4F, 0x47] ++
    List.replicate 112 (0x00 : Byte)).toArray, by simp⟩

/-- The post-reset state, its wire trace restarted as the vectors' numbering is. -/
def fixture (count : Int) (backend : Backend) : State :=
  { State.afterReset ⟨count, backend, glyphs, 0x5A⟩ with wire := [] }

/-- A shadow row and its chip's register hold `v` already. -/
def State.holding (s : State) (d r : Nat) (v : Byte) : State := (s.putShadow d r v).latchAt d (rowOpcode r) v

/-- The step answers a next state of which this holds. -/
def steps (s : State) (p : State → Bool) : Bool :=
  match step s with
  | .next t => p t
  | .fault _ => false
  | .refused _ => false

/-- The command word is run from `s`, and this holds of the state it leaves. -/
def runs (s : State) (w : Nat) (p : State → Bool) : Bool := steps (s.withFetchWord 32 w) p

/-- The eight shadow rows of a device. -/
def rowsOf (s : State) (d : Nat) : List Byte := (List.range 8).map fun r => s.shadowAt d r

/-! ## One step of each command (95_test_vectors.md) -/

/-- S4 as corrected by C1. -/
theorem test_transact_thirdFrame :
    runs (fixture 4 .bitbang) 0x00010A0F
      (fun t => decide (txLog t.wire = [[⟨0, 0⟩, ⟨0, 0⟩, ⟨0x0A, 0x0F⟩, ⟨0, 0⟩]]) && decide (t.chipReg 1 10 = some 0x0F) &&
        decide (t.chipReg 2 10 = none)) = true := by decide

/-- V1, target 3 of three devices. -/
theorem test_transact_outOfRange :
    runs (fixture 3 .bitbang) 0x00030C01
      (fun t => decide (t = fixture 3 .bitbang)) = true := by decide

/-- S1. -/
theorem test_getrow_inRange :
    runs ((fixture 4 .bitbang).putShadow 1 0 0xAA) 0x08010000
      (fun t => decide (t.rdata = 0xAA) && decide (t.wire = [])) = true := by decide

/-- V2, device 2 of two: the parameter `GETROW_OOR`, here 0x5A. -/
theorem test_getrow_outOfRange :
    runs (fixture 2 .bitbang) 0x08020000
      (fun t => decide (t.rdata = 0x5A)) = true := by decide

/-- Example of R91. -/
theorem test_setrow_writesThrough :
    runs (fixture 4 .bitbang) 0x100100AA
      (fun t => decide (t.shadowAt 1 0 = 0xAA) && decide (t.chipReg 1 1 = some 0xAA) &&
        decide (txLog t.wire = [[⟨0, 0⟩, ⟨0, 0⟩, ⟨1, 0xAA⟩, ⟨0, 0⟩]])) = true := by decide

/-- V2, row 8. -/
theorem test_setrow_outOfRange :
    runs (fixture 2 .bitbang) 0x100008FF
      (fun t => decide (t = fixture 2 .bitbang)) = true := by decide

/-- V3 line 2: the row holds 0xFF. -/
theorem test_setpixel_off :
    runs (State.holding (fixture 1 .bitbang) 0 0 0xFF) 0x18000000
      (fun t => decide (t.shadowAt 0 0 = 0x7F) && decide (txLog t.wire = [[⟨1, 0x7F⟩]])) = true := by decide

/-- V3 line 5. -/
theorem test_setpixel_badColumn :
    runs (fixture 1 .bitbang) 0x1C000008
      (fun t => decide (t = fixture 1 .bitbang)) = true := by decide

/-- V3 line 1. -/
theorem test_setrowbits_overwrites :
    runs (State.holding (fixture 1 .bitbang) 0 0 0x81) 0x200000FF
      (fun t => decide (t.shadowAt 0 0 = 0xFF) && decide (txLog t.wire = [[⟨1, 0xFF⟩]])) = true := by decide

/-- S5. -/
theorem test_setcolbits_column3 :
    runs (fixture 4 .block) 0x280203A0
      (fun t => decide (rowsOf t 2 = [0x10, 0, 0x10, 0, 0, 0, 0, 0]) && decide (rowsOf t 1 = List.replicate 8 0) &&
        decide ((txLog t.wire).length = 8)) = true := by decide

/-- V4: row 1 holds 0xFF. -/
theorem test_setcolbits_keepsOthers :
    runs (State.holding (fixture 1 .block) 0 1 0xFF) 0x28000000
      (fun t => decide (t.shadowAt 0 1 = 0x7F) &&
        decide (txLog t.wire = [[⟨1, 0⟩], [⟨2, 0x7F⟩], [⟨3, 0⟩], [⟨4, 0⟩], [⟨5, 0⟩], [⟨6, 0⟩], [⟨7, 0⟩], [⟨8, 0⟩]])) = true := by decide

/-- P3 command 3 with G6. -/
theorem test_setdigit_point :
    runs (fixture 2 .block) 0x34010705
      (fun t => decide (t.shadowAt 1 7 = 0xDB) && decide (txLog t.wire = [[⟨8, 0xDB⟩, ⟨0, 0⟩]])) = true := by decide

/-- S7. -/
theorem test_setdigit_sixteen :
    runs (fixture 2 .bitbang) 0x30010710
      (fun t => decide (t = fixture 2 .bitbang)) = true := by decide

/-- V5: code 128 with the point, G6. -/
theorem test_setchar_remapped :
    runs (fixture 2 .block) 0x3C000380
      (fun t => decide (t.shadowAt 0 3 = 0x80) && decide (txLog t.wire = [[⟨0, 0⟩, ⟨4, 0x80⟩]])) = true := by decide

/-- V5: code 5 gives the byte of digit 5. -/
theorem test_setchar_code5 :
    runs (fixture 2 .bitbang) 0x38000305
      (fun t => decide (t.shadowAt 0 3 = 0x5B)) = true := by decide

/-- V5. -/
theorem test_cleardev_rows :
    runs (State.holding (State.holding (fixture 2 .block) 1 7 0x81) 0 0 0x11) 0x40010000
      (fun t => decide (rowsOf t 1 = List.replicate 8 0) && decide (t.shadowAt 0 0 = 0x11) &&
        decide (txLog t.wire = [[⟨1, 0⟩, ⟨0, 0⟩], [⟨2, 0⟩, ⟨0, 0⟩], [⟨3, 0⟩, ⟨0, 0⟩], [⟨4, 0⟩, ⟨0, 0⟩], [⟨5, 0⟩, ⟨0, 0⟩],
          [⟨6, 0⟩, ⟨0, 0⟩], [⟨7, 0⟩, ⟨0, 0⟩], [⟨8, 0⟩, ⟨0, 0⟩]])) = true := by decide

/-- S8, by the word of V8 with its unused fields set. -/
theorem test_clearall_sixteen :
    runs (State.holding (State.holding (fixture 2 .block) 1 7 0x81) 0 0 0x11) 0x4C12FFFF
      (fun t => decide (t.shadow = []) && decide ((txLog t.wire).length = 16)) = true := by decide

/-- V6. -/
theorem test_setshutdown_on :
    runs (fixture 2 .bitbang) 0x54000000
      (fun t => decide (txLog t.wire = [[⟨0, 0⟩, ⟨12, 0⟩]])) = true := by decide

/-- V6: the rows stay. -/
theorem test_setshutdown_off :
    runs (State.holding (fixture 2 .bitbang) 0 0 0x11) 0x50000000
      (fun t => decide (txLog t.wire = [[⟨0, 0⟩, ⟨12, 1⟩]]) && decide (t.shadowAt 0 0 = 0x11)) = true := by decide

/-- Example of R121. -/
theorem test_setscanlimit_seven :
    runs (fixture 2 .bitbang) 0x58010007
      (fun t => decide (txLog t.wire = [[⟨11, 7⟩, ⟨0, 0⟩]])) = true := by decide

/-- V6. -/
theorem test_setscanlimit_eight :
    runs (fixture 2 .bitbang) 0x58010008
      (fun t => decide (t = fixture 2 .bitbang)) = true := by decide

/-- Example of R122. -/
theorem test_setintensity_fifteen :
    runs (fixture 1 .bitbang) 0x6000000F
      (fun t => decide (txLog t.wire = [[⟨10, 0x0F⟩]])) = true := by decide

/-- V6. -/
theorem test_setintensity_sixteen :
    runs (fixture 2 .bitbang) 0x60000010
      (fun t => decide (t = fixture 2 .bitbang)) = true := by decide

/-- Example of R123. -/
theorem test_initdev_twelve :
    runs (State.holding (fixture 1 .block) 0 0 0x11) 0x68000000
      (fun t => decide (t.shadow = []) && decide (txLog t.wire = [[⟨9, 0⟩], [⟨11, 7⟩], [⟨15, 0⟩], [⟨1, 0⟩], [⟨2, 0⟩], [⟨3, 0⟩],
        [⟨4, 0⟩], [⟨5, 0⟩], [⟨6, 0⟩], [⟨7, 0⟩], [⟨8, 0⟩], [⟨12, 0⟩]])) = true := by decide

/-- V6. -/
theorem test_initdev_outOfRange :
    runs (fixture 2 .bitbang) 0x68020000
      (fun t => decide (t = fixture 2 .bitbang)) = true := by decide

/-- Example of R124. -/
theorem test_startdev_ten :
    runs (fixture 2 .block) 0x70000008
      (fun t => decide ((txLog t.wire).length = 10) && decide (t.chipReg 0 12 = some 1) && decide (t.chipReg 0 10 = some 8)) = true := by decide

/-- V6: nine transactions, no INTENSITY frame. -/
theorem test_startdev_badIntensity :
    runs (fixture 1 .block) 0x70000010
      (fun t => decide (txLog t.wire = [[⟨12, 1⟩], [⟨1, 0⟩], [⟨2, 0⟩], [⟨3, 0⟩], [⟨4, 0⟩], [⟨5, 0⟩], [⟨6, 0⟩], [⟨7, 0⟩], [⟨8, 0⟩]])) = true := by decide

/-- Example of R107. -/
theorem test_drawpixel_on :
    runs (fixture 2 .bitbang) 0x78010304
      (fun t => decide (t.shadowAt 0 4 = 0x10) && decide (txLog t.wire = [[⟨0, 0⟩, ⟨5, 0x10⟩]])) = true := by decide

/-- V5: color 255, target always device 0. -/
theorem test_drawpixel_anyColor :
    runs (fixture 2 .bitbang) 0x78FF0000
      (fun t => decide (t.shadowAt 0 0 = 0x80) && decide (t.shadowAt 1 0 = 0)) = true := by decide

/-- V8: SETROW with RSV = 01 is not SETROW. -/
theorem test_reserved_skips :
    runs (fixture 2 .bitbang) 0x11000001
      (fun t => decide (t = fixture 2 .bitbang)) = true := by decide

/-! ## One step of each frame, at chip 0 (rule R40) -/

theorem test_frame_noop :
    steps ((fixture 2 .bitbang).withFetchWord 16 0x0055) (fun t => decide (t = fixture 2 .bitbang)) = true := by decide

theorem test_frame_digit0 :
    steps ((fixture 2 .bitbang).withFetchWord 16 0x0181)
      (fun t => decide (t.chipReg 0 1 = some 0x81) && decide (t.chips[1]? = some Chip.afterReset)) = true := by decide

theorem test_frame_digit1 :
    steps ((fixture 2 .bitbang).withFetchWord 16 0x0282)
      (fun t => decide (t.chipReg 0 2 = some 0x82) && decide (t.chips[1]? = some Chip.afterReset)) = true := by decide

theorem test_frame_digit2 :
    steps ((fixture 2 .bitbang).withFetchWord 16 0x0383)
      (fun t => decide (t.chipReg 0 3 = some 0x83) && decide (t.chips[1]? = some Chip.afterReset)) = true := by decide

theorem test_frame_digit3 :
    steps ((fixture 2 .bitbang).withFetchWord 16 0x0484)
      (fun t => decide (t.chipReg 0 4 = some 0x84) && decide (t.chips[1]? = some Chip.afterReset)) = true := by decide

theorem test_frame_digit4 :
    steps ((fixture 2 .bitbang).withFetchWord 16 0x0585)
      (fun t => decide (t.chipReg 0 5 = some 0x85) && decide (t.chips[1]? = some Chip.afterReset)) = true := by decide

theorem test_frame_digit5 :
    steps ((fixture 2 .bitbang).withFetchWord 16 0x0686)
      (fun t => decide (t.chipReg 0 6 = some 0x86) && decide (t.chips[1]? = some Chip.afterReset)) = true := by decide

theorem test_frame_digit6 :
    steps ((fixture 2 .bitbang).withFetchWord 16 0x0787)
      (fun t => decide (t.chipReg 0 7 = some 0x87) && decide (t.chips[1]? = some Chip.afterReset)) = true := by decide

theorem test_frame_digit7 :
    steps ((fixture 2 .bitbang).withFetchWord 16 0x0888)
      (fun t => decide (t.chipReg 0 8 = some 0x88) && decide (t.chips[1]? = some Chip.afterReset)) = true := by decide

theorem test_frame_decodemode :
    steps ((fixture 2 .bitbang).withFetchWord 16 0x0989)
      (fun t => decide (t.chipReg 0 9 = some 0x89) && decide (t.chips[1]? = some Chip.afterReset)) = true := by decide

theorem test_frame_intensity :
    steps ((fixture 2 .bitbang).withFetchWord 16 0x0A8A)
      (fun t => decide (t.chipReg 0 10 = some 0x8A) && decide (t.chips[1]? = some Chip.afterReset)) = true := by decide

theorem test_frame_scanlimit :
    steps ((fixture 2 .bitbang).withFetchWord 16 0x0B8B)
      (fun t => decide (t.chipReg 0 11 = some 0x8B) && decide (t.chips[1]? = some Chip.afterReset)) = true := by decide

theorem test_frame_shutdown :
    steps ((fixture 2 .bitbang).withFetchWord 16 0x0C8C)
      (fun t => decide (t.chipReg 0 12 = some 0x8C) && decide (t.chips[1]? = some Chip.afterReset)) = true := by decide

theorem test_frame_displaytest :
    steps ((fixture 2 .bitbang).withFetchWord 16 0x0F8F)
      (fun t => decide (t.chipReg 0 15 = some 0x8F) && decide (t.chips[1]? = some Chip.afterReset)) = true := by decide

/-- U2: after an unassigned opcode nothing is known of the chip. -/
theorem test_frame_unassigned :
    steps ((fixture 2 .bitbang).withFetchWord 16 0x0EFF)
      (fun t => decide (t.chips = [⟨[], true⟩, Chip.afterReset])) = true := by decide

/-! ## Wire, reset, stall, chain length -/

/-- V1: the byte views of `TRANSACT 0, 10, 8` on two devices. -/
theorem test_byteView :
    runs (fixture 2 .bitbang) 0x00000A08
      (fun t => decide (byteView t.wire =
        [.cs false, .byte 0x00, .byte 0x00, .byte 0x0A, .byte 0x08, .cs true])) = true ∧
    runs (fixture 2 .block) 0x00000A08
      (fun t => decide (t.wire =
        [.acq, .cs false, .byte 0x00, .byte 0x00, .byte 0x0A, .byte 0x08, .cs true, .rel])) = true := by decide

/-- V1: the bit view of `BYTE(0A)`. -/
theorem test_bitView :
    byteEvents 0x0A =
      [.mosi false, .sclk true, .sclk false, .mosi false, .sclk true, .sclk false, .mosi false, .sclk true, .sclk false,
        .mosi false, .sclk true, .sclk false, .mosi true, .sclk true, .sclk false, .mosi false, .sclk true, .sclk false,
        .mosi true, .sclk true, .sclk false, .mosi false, .sclk true, .sclk false] := by decide

/-- V1: `COUNT = -3` gives `N = 1`. -/
theorem test_countClamped :
    Config.n ⟨-3, .block, glyphs, 0⟩ = 1 ∧ Config.n ⟨0, .block, glyphs, 0⟩ = 1 ∧ Config.n ⟨300, .block, glyphs, 0⟩ = 300 := by
  decide

/-- V7, `N = 1`: reset while idle runs the sequence again, whatever the rows held. -/
theorem test_reset_sequence :
    steps { State.holding (fixture 1 .block) 0 0 0x11 with resetIn := true }
      (fun t => decide (t.shadow = []) && decide (t.chips = [Chip.afterReset]) && decide (t.seq = none) &&
        decide (txLog t.wire = [[⟨9, 0⟩], [⟨11, 7⟩], [⟨15, 0⟩], [⟨1, 0⟩], [⟨2, 0⟩], [⟨3, 0⟩], [⟨4, 0⟩], [⟨5, 0⟩],
          [⟨6, 0⟩], [⟨7, 0⟩], [⟨8, 0⟩], [⟨12, 0⟩]])) = true := by decide

/-- The launch state of rule R27 is what the reset sequence leaves. -/
theorem test_afterReset_isTheSequence :
    steps { fixture 2 .block with resetIn := true }
      (fun t => decide (t = State.afterReset ⟨2, .block, glyphs, 0x5A⟩)) = true := by decide

/-- Rule R78: with one grant left CLEARDEV waits inside its second transaction, the shadow already written. -/
theorem test_stall :
    runs { State.holding (State.holding (fixture 1 .block) 0 1 0x22) 0 2 0x33 with bus := ⟨some 1, none⟩ } 0x40000000
      (fun t => t.busy && decide (rowsOf t 0 = [0, 0, 0x33, 0, 0, 0, 0, 0]) && decide (t.chipReg 0 2 = some 0x22) &&
        decide ((txLog t.wire).length = 1) && !t.own) = true := by decide

/-- Rule R171: the second of two chips, with `N = 1`, latches what the first held before. -/
theorem test_longChain :
    runs { fixture 1 .bitbang with chips := [Chip.unknown, Chip.unknown], chain := [0x55, 0x03, 0x00, 0x00] } 0x00000A08
      (fun t => decide (t.chipReg 0 10 = some 0x08) && decide (t.chipReg 1 3 = some 0x55) &&
        decide (t.chipReg 1 10 = none)) = true := by decide

/-- Rule R171: with one chip and `N = 2` a command to device 1 is recorded and has no effect. -/
theorem test_shortChain :
    runs { fixture 2 .bitbang with chips := [Chip.afterReset], chain := [0, 0] } 0x100100AA
      (fun t => decide (t.shadowAt 1 0 = 0xAA) && decide (t.chips = [Chip.afterReset])) = true := by decide

/-- Rule R62: the assembler's spelling. -/
theorem test_assembly :
    assembly (.setdigit 1 7 5 true) = "SETDIGIT 1, 7, 5, dp" ∧ assembly .clearall = "CLEARALL" := by decide

/-- Rule R63: `WAKE 0` is the word 0x50000000 and `NOP` names no command. -/
theorem test_pseudo : wordOf (wake 0) = some 0x50000000 ∧ (decode (.command nopWord)).toOption = none ∧
    initAll ⟨2, .block, glyphs, 0⟩ = [.initdev 0, .initdev 1] := by decide

/-! ## Witnesses: a concrete state and operands that meet the hypotheses of each statement, at the edges of their ranges -/

/-- Two devices, bit-banged, and the same with the BLOCK backend. -/
def two : State := fixture 2 .bitbang
def twoBlock : State := fixture 2 .block

/-- A SETROW that waits for the bus grant, and one that waits for the peripheral. -/
def waitsForGrant : State :=
  { twoBlock with
    bus := ⟨some 0, none⟩
    seq := some ⟨some (.setrow 1 0 0xAA), [], txOps .block (txBytes 2 1 ⟨1, 0xAA⟩)⟩ }
def waitsForPeripheral : State :=
  { twoBlock with
    bus := ⟨none, some 0⟩
    own := true
    csN := false
    seq := some ⟨some (.setrow 1 0 0xAA), [], [.byte 0xAA, .byte 0, .byte 0, .csHigh, .release]⟩ }

theorem witness_DecodeOfEncodeIsTheInstruction :
    Instr.wellFormed (.setpixel 255 0 255 true) = true ∧ Instr.wellFormed (.displaytest 0xFF) = true := by decide

theorem witness_CommandSelectedByMatchAndMask :
    (0x04FFFFFF : CmdWord) &&& 0xFB000000 = 0x00000000 ∧
    (0x0CFFFFFF : CmdWord) &&& 0xFB000000 = 0x08000000 ∧
    (0x14FFFFFF : CmdWord) &&& 0xFB000000 = 0x10000000 ∧
    (0x1CFFFFFF : CmdWord) &&& 0xFB000000 = 0x18000000 ∧
    (0x24FFFFFF : CmdWord) &&& 0xFB000000 = 0x20000000 ∧
    (0x2CFFFFFF : CmdWord) &&& 0xFB000000 = 0x28000000 ∧
    (0x34FFFFFF : CmdWord) &&& 0xFB000000 = 0x30000000 ∧
    (0x3CFFFFFF : CmdWord) &&& 0xFB000000 = 0x38000000 ∧
    (0x44FFFFFF : CmdWord) &&& 0xFB000000 = 0x40000000 ∧
    (0x4CFFFFFF : CmdWord) &&& 0xFB000000 = 0x48000000 ∧
    (0x54FFFFFF : CmdWord) &&& 0xFB000000 = 0x50000000 ∧
    (0x5CFFFFFF : CmdWord) &&& 0xFB000000 = 0x58000000 ∧
    (0x64FFFFFF : CmdWord) &&& 0xFB000000 = 0x60000000 ∧
    (0x6CFFFFFF : CmdWord) &&& 0xFB000000 = 0x68000000 ∧
    (0x74FFFFFF : CmdWord) &&& 0xFB000000 = 0x70000000 ∧
    (0x7CFFFFFF : CmdWord) &&& 0xFB000000 = 0x78000000 ∧
    2 ^ 31 ≤ (0x80000000 : CmdWord).toNat ∧ 2 ^ 31 ≤ (0xFFFFFFFF : CmdWord).toNat := by decide

theorem witness_ReservedWordIsSkipped :
    State.turn { two with port := [0x80000000] } = .command 0x80000000 ∧ 16 ≤ (0x80000000 : CmdWord).toNat / 2 ^ 27 ∧
    State.turn { two with port := [0x7B000000] } = .command 0x7B000000 ∧
      (0x7B000000 : CmdWord).toNat / 2 ^ 24 % 4 ≠ 0 := by decide

theorem witness_UnusedFieldsHaveNoEffect :
    (0x4C12FFFF : CmdWord) &&& 0xFB000000 = 0x48000000 ∧ (0x4C12FFFF : CmdWord) &&& 0xFB000000 = 0x48000000 &&& 0xFB000000 ∧
    (0x0C0107FF : CmdWord) &&& 0xFB000000 = 0x08000000 ∧ (0x0C0107FF : CmdWord) &&& 0xFBFFFF00 = 0x08010700 &&& 0xFBFFFF00 := by
  decide

theorem witness_FrameOpcodeMap :
    (0 : Byte).toNat = 0 ∧ (12 : Byte).toNat = 12 ∧ (15 : Byte).toNat = 15 ∧ (13 : Byte).toNat = 13 ∧ (14 : Byte).toNat = 14 ∧
    16 ≤ (16 : Byte).toNat ∧ 16 ≤ (255 : Byte).toNat := by decide

/-- `N = 1`, target 0, and `N = 4`, the first and the last frame sent; and both ends of a chain of two, in either backend. -/
theorem witness_FramesAreSentFarChipFirst :
    (0 : Nat) < 1 ∧ (0 : Nat) < 4 ∧ (3 : Nat) < 4 ∧ two.idle ∧ two.busFair ∧ two.hasDevice 0 ∧ two.hasDevice 1 ∧
    twoBlock.idle ∧ twoBlock.busFair ∧ twoBlock.hasDevice 1 ∧ 0 < two.cfg.n ∧ 1 < two.cfg.n :=
  ⟨by decide, by decide, by decide, rfl, .inl rfl, ⟨by decide, by decide⟩, ⟨by decide, by decide⟩, rfl, .inr ⟨rfl, rfl⟩,
    ⟨by decide, by decide⟩, by decide, by decide⟩

theorem witness_BackendsAgreeOnEveryRun : BackendRel two twoBlock :=
  ⟨rfl, rfl, ⟨rfl, rfl⟩, ⟨rfl, rfl⟩, rfl, rfl, rfl, rfl, rfl, rfl, rfl, rfl, rfl, rfl, ⟨rfl, rfl⟩⟩

/-- Both are idle with a fair bus, and have devices 0 and 1 and neither -1 nor 2. -/
theorem witness_idle_fair_devices :
    two.idle ∧ two.busFair ∧ twoBlock.idle ∧ twoBlock.busFair ∧ two.hasDevice 0 ∧ two.hasDevice 1 ∧ ¬ two.hasDevice (-1) ∧
    ¬ two.hasDevice 2 :=
  ⟨rfl, .inl rfl, rfl, .inr ⟨rfl, rfl⟩, ⟨by decide, by decide⟩, ⟨by decide, by decide⟩, fun h => absurd h.1 (by decide),
    fun h => absurd h.2 (by decide)⟩

/-- A row, position, column or limit argument in range at both ends, with a device in range; and out of range each way. -/
theorem witness_rows :
    (two.hasDevice 1 ∧ (0 : Int) ≤ 0 ∧ (0 : Int) ≤ 7) ∧ (two.hasDevice 1 ∧ (0 : Int) ≤ 7 ∧ (7 : Int) ≤ 7) ∧
    ¬ (two.hasDevice 1 ∧ (0 : Int) ≤ 8 ∧ (8 : Int) ≤ 7) ∧ ¬ (two.hasDevice 1 ∧ (0 : Int) ≤ -1 ∧ (-1 : Int) ≤ 7) ∧
    ¬ (two.hasDevice 2 ∧ (0 : Int) ≤ 7 ∧ (7 : Int) ≤ 7) := by
  obtain ⟨-, -, -, -, -, h1, -, h2⟩ := witness_idle_fair_devices
  exact ⟨⟨h1, by decide⟩, ⟨h1, by decide⟩, fun h => absurd h.2 (by decide), fun h => absurd h.2 (by decide), fun h => h2 h.1⟩

/-- Either backend, both ends of the chain, a target out of range each way, and every clause on the opcode: 0, which leaves the
target's chip, and the first and the last named one, which write it. -/
theorem witness_TransactSendsOneTransaction :
    two.idle ∧ two.busFair ∧ twoBlock.idle ∧ twoBlock.busFair ∧ two.cfg.backend = .bitbang ∧ twoBlock.cfg.backend = .block ∧
    two.hasDevice 0 ∧ two.hasDevice 1 ∧ twoBlock.hasDevice 1 ∧ (0 : Nat) < two.cfg.n ∧ (0 : Nat) ≠ Int.toNat 1 ∧
    (∃ op : Byte, op = 0 ∧ (∃ u, exec (.transact 1 op 0x55) two = .next u) ∧
      ∃ u, exec (.transact 1 op 0x55) twoBlock = .next u) ∧
    ((1 : Byte) ≠ 0 ∧ assignedOpcode 1 = true) ∧ ((15 : Byte) ≠ 0 ∧ assignedOpcode 15 = true) ∧
    Int.toNat 1 < two.chips.length ∧ ¬ two.hasDevice (-1) ∧ ¬ two.hasDevice 2 := by
  obtain ⟨h1, h2, h3, h4, h5, h6, h7, h8⟩ := witness_idle_fair_devices
  exact ⟨h1, h2, h3, h4, rfl, rfl, h5, h6, ⟨by decide, by decide⟩, by decide, by decide, ⟨0, rfl, ⟨_, rfl⟩, ⟨_, rfl⟩⟩, by decide,
    by decide, by decide, h7, h8⟩

theorem witness_FartherChipsLatchStaleFrames :
    let s : State := { fixture 1 .bitbang with chips := [Chip.unknown, Chip.unknown], chain := [0x55, 0x03, 0x00, 0x00] }
    s.idle ∧ s.busFair ∧ s.hasDevice 0 ∧ (∃ u, exec (.transact 0 10 8) s = .next u) ∧ s.chain[2 * 0]? = some 0x55 ∧
    s.chain[2 * 0 + 1]? = some 0x03 := ⟨rfl, .inl rfl, ⟨by decide, by decide⟩, ⟨_, rfl⟩, rfl, rfl⟩

theorem witness_RawRowTransactLeavesShadowStale :
    two.idle ∧ two.busFair ∧ 1 < two.cfg.n ∧ 1 < two.chips.length ∧ 7 < 8 := ⟨rfl, .inl rfl, by decide, by decide, by decide⟩

theorem witness_GetrowAnswersTheShadowByte :
    two.idle ∧ (two.hasDevice 1 ∧ (0 : Int) ≤ 7 ∧ (7 : Int) ≤ 7) ∧ ¬ (two.hasDevice 1 ∧ (0 : Int) ≤ 8 ∧ (8 : Int) ≤ 7) :=
  ⟨rfl, witness_rows.2.1, witness_rows.2.2.1⟩

theorem witness_SetrowWritesThrough :
    two.idle ∧ two.busFair ∧ (two.hasDevice 1 ∧ (0 : Int) ≤ 7 ∧ (7 : Int) ≤ 7) ∧
    ¬ (two.hasDevice 1 ∧ (0 : Int) ≤ 8 ∧ (8 : Int) ≤ 7) := ⟨rfl, .inl rfl, witness_rows.2.1, witness_rows.2.2.1⟩

theorem witness_SetrowThenGetrowReturnsTheByte :
    two.idle ∧ two.busFair ∧ (two.hasDevice 1 ∧ (0 : Int) ≤ 7 ∧ (7 : Int) ≤ 7) ∧
    (two.hasDevice 1 ∧ (0 : Int) ≤ 0 ∧ (0 : Int) ≤ 7) := ⟨rfl, .inl rfl, witness_rows.2.1, witness_rows.1⟩

/-- The first clause, with GETROW of another row and a SETROW of another device in between. -/
theorem witness_RoundTripUntilTheNextSetRow :
    (two.hasDevice 1 ∧ (0 : Int) ≤ 7 ∧ (7 : Int) ≤ 7) ∧
    (∃ t u, exec (.setrow 1 7 0xAA) two = .next t ∧ execAll [.getrow 1 0, .setrow 0 7 0x55] t = .next u ∧ u.idle) ∧
    ∀ i, i ∈ [Instr.getrow 1 0, .setrow 0 7 0x55] → ¬ setsRow (Int.toNat 1) (Int.toNat 7) i :=
  ⟨witness_rows.2.1, ⟨_, _, rfl, rfl, rfl⟩, fun i h => by
    simp only [List.mem_cons, List.not_mem_nil, or_false] at h
    rcases h with rfl | rfl
    · exact id
    · exact fun x => absurd x.1 (by decide)⟩

/-- No grant, a grant about to come, and a SETROW of row 0 of device 0 at the port. -/
def stalling : State :=
  { twoBlock with bus := ⟨some 0, none⟩, busEvents := [.setGrants none], port := [0x100000AA] }

/-- The second clause, with a SETROW that the bus stopped, a grant as a bus change, and a SETROW of another row. -/
theorem witness_RoundTrip_steps :
    stalling.hasDevice 1 ∧ (∃ t u, exec (.setrow 1 7 0xAA) stalling = .next t ∧ t.busy = true ∧
      Host.Core.run Sys2Proof.core 3 t = .next u ∧ u.idle ∧
      ∀ (j : Nat) (m : State), j < 3 → Host.Core.run Sys2Proof.core j t = .next m → ¬ m.startsSetRow 1 7) := by
  refine ⟨⟨by decide, by decide⟩, _, _, rfl, rfl, rfl, rfl, fun j m hj h => ?_⟩
  have hw : decode (.command 0x100000AA) = .ok (.setrow 0 0 0xAA) := by decide
  obtain rfl | rfl | rfl : j = 0 ∨ j = 1 ∨ j = 2 := by omega
  · cases h; exact id
  · cases h; rintro ⟨c, hc, -⟩; cases hc
  · cases h
    show ¬ (match decode (.command 0x100000AA) with | .ok i => setsRow 1 7 i | .error _ => False)
    rw [hw]
    exact fun x => absurd x.1 (by decide)

theorem witness_OnlySetRowChangesARow :
    (∃ t, exec (.setrow 0 7 0xAA) two = .next t) ∧ 1 < two.cfg.n ∧ 7 < 8 ∧ ¬ setsRow 1 7 (.setrow 0 7 0xAA) ∧
    (∃ t, step waitsForPeripheral = .next t) ∧ ¬ waitsForPeripheral.startsSetRow 1 0 :=
  ⟨⟨_, rfl⟩, by decide, by decide, fun h => absurd h.1 (by decide), ⟨_, rfl⟩, fun ⟨_, hc, _⟩ => by cases hc⟩

theorem witness_BadArgumentIsASilentNoOp :
    two.idle ∧ badArgument two.cfg (.transact 2 0 0) ∧ badArgument two.cfg (.setrow 0 8 0) ∧
    badArgument two.cfg (.setpixel 0 0 8 true) ∧ badArgument two.cfg (.setrowbits (-1) 0 0) ∧
    badArgument two.cfg (.setcolbits 0 8 0) ∧ badArgument two.cfg (.setdigit 0 0 16 true) ∧
    badArgument two.cfg (.setchar 0 8 0 true) ∧ badArgument two.cfg (.cleardev 2) ∧
    badArgument two.cfg (.setshutdown 2 true) ∧ badArgument two.cfg (.setscanlimit 0 8) ∧
    badArgument two.cfg (.setintensity 0 16) ∧ badArgument two.cfg (.initdev 2) ∧ badArgument two.cfg (.startdev 2 8) ∧
    badArgument two.cfg (.drawpixel 8 0 1) := by
  refine ⟨rfl, ?_⟩
  simp only [badArgument]
  decide

theorem witness_RepeatedSetrowIsSentAgain :
    two.idle ∧ two.busFair ∧ (two.hasDevice 1 ∧ (0 : Int) ≤ 7 ∧ (7 : Int) ≤ 7) := ⟨rfl, .inl rfl, witness_rows.2.1⟩

theorem witness_SetpixelChangesOneBit :
    two.idle ∧ two.busFair ∧
    (two.hasDevice 1 ∧ ((0 : Int) ≤ 7 ∧ (7 : Int) ≤ 7) ∧ ((0 : Int) ≤ 0 ∧ (0 : Int) ≤ 7)) ∧
    ¬ (two.hasDevice 1 ∧ ((0 : Int) ≤ 7 ∧ (7 : Int) ≤ 7) ∧ ((0 : Int) ≤ 8 ∧ (8 : Int) ≤ 7)) :=
  ⟨rfl, .inl rfl, ⟨witness_rows.1.1, by decide, by decide⟩, fun h => absurd h.2.2 (by decide)⟩

/-- The pixel is off before, at the last column of the last row. -/
theorem witness_PixelOnThenOff :
    two.idle ∧ two.busFair ∧ two.hasDevice 1 ∧ ((0 : Int) ≤ 7 ∧ (7 : Int) ≤ 7) ∧
    (two.shadowAt (Int.toNat 1) (Int.toNat 7)).getLsbD (7 - Int.toNat 7) = false :=
  ⟨rfl, .inl rfl, witness_rows.1.1, by decide, rfl⟩

theorem witness_SetrowbitsOverwritesTheRow :
    two.idle ∧ two.busFair ∧ (two.hasDevice 1 ∧ (0 : Int) ≤ 0 ∧ (0 : Int) ≤ 7) ∧
    ¬ (two.hasDevice 2 ∧ (0 : Int) ≤ 7 ∧ (7 : Int) ≤ 7) := ⟨rfl, .inl rfl, witness_rows.1, witness_rows.2.2.2.2⟩

theorem witness_SetcolbitsWritesOneColumn :
    two.idle ∧ two.busFair ∧ (two.hasDevice 1 ∧ (0 : Int) ≤ 7 ∧ (7 : Int) ≤ 7) ∧
    ¬ (two.hasDevice 1 ∧ (0 : Int) ≤ 8 ∧ (8 : Int) ≤ 7) := ⟨rfl, .inl rfl, witness_rows.2.1, witness_rows.2.2.1⟩

theorem witness_SetdigitWritesTheGlyph :
    two.idle ∧ two.busFair ∧
    (two.hasDevice 1 ∧ ((0 : Int) ≤ 7 ∧ (7 : Int) ≤ 7) ∧ ((0 : Int) ≤ 15 ∧ (15 : Int) ≤ 15)) ∧
    ¬ (two.hasDevice 1 ∧ ((0 : Int) ≤ 7 ∧ (7 : Int) ≤ 7) ∧ ((0 : Int) ≤ 16 ∧ (16 : Int) ≤ 15)) :=
  ⟨rfl, .inl rfl, ⟨witness_rows.1.1, by decide, by decide⟩, fun h => absurd h.2.2 (by decide)⟩

/-- Position 7, and position 8 out of range; codes 127 and 128 are on the two sides of the remap. -/
theorem witness_SetcharWritesTheGlyphOrTheSpace :
    two.idle ∧ two.busFair ∧ (two.hasDevice 1 ∧ (0 : Int) ≤ 7 ∧ (7 : Int) ≤ 7) ∧
    ¬ (two.hasDevice 1 ∧ (0 : Int) ≤ 8 ∧ (8 : Int) ≤ 7) ∧ ((0 : Int) ≤ 127 ∧ (127 : Int) ≤ 127) ∧
    ¬ ((0 : Int) ≤ 128 ∧ (128 : Int) ≤ 127) :=
  ⟨rfl, .inl rfl, witness_rows.2.1, witness_rows.2.2.1, by decide, by decide⟩

/-- CLEARDEV, SETSHUTDOWN and INITDEV check the device alone; CLEARALL and the transaction counts ask nothing more. -/
theorem witness_CleardevClearsEightRows :
    two.idle ∧ two.busFair ∧ two.hasDevice 0 ∧ two.hasDevice 1 ∧ ¬ two.hasDevice 2 ∧ ¬ two.hasDevice (-1) := by
  obtain ⟨h1, h2, -, -, h3, h4, h5, h6⟩ := witness_idle_fair_devices
  exact ⟨h1, h2, h3, h4, h6, h5⟩

theorem witness_ClearallClearsEveryDevice : two.idle ∧ two.busFair ∧ 1 < two.cfg.n ∧ 7 < 8 ∧ 8 * two.cfg.n ≤ 16 :=
  ⟨rfl, .inl rfl, by decide, by decide, by decide⟩

theorem witness_DrawpixelEditsDeviceZero :
    two.idle ∧ two.busFair ∧ (((0 : Int) ≤ 7 ∧ (7 : Int) ≤ 7) ∧ ((0 : Int) ≤ 0 ∧ (0 : Int) ≤ 7)) ∧
    ¬ (((0 : Int) ≤ 8 ∧ (8 : Int) ≤ 7) ∧ ((0 : Int) ≤ 0 ∧ (0 : Int) ≤ 7)) := ⟨rfl, .inl rfl, by decide, by decide⟩

theorem witness_SetshutdownSendsOneFrame : two.idle ∧ two.busFair ∧ two.hasDevice 1 ∧ ¬ two.hasDevice 2 :=
  ⟨rfl, .inl rfl, witness_rows.1.1, witness_CleardevClearsEightRows.2.2.2.2.1⟩

theorem witness_SetscanlimitSendsTheLimit :
    two.idle ∧ two.busFair ∧ (two.hasDevice 1 ∧ (0 : Int) ≤ 7 ∧ (7 : Int) ≤ 7) ∧
    ¬ (two.hasDevice 1 ∧ (0 : Int) ≤ 8 ∧ (8 : Int) ≤ 7) := ⟨rfl, .inl rfl, witness_rows.2.1, witness_rows.2.2.1⟩

theorem witness_SetintensitySendsTheIntensity :
    two.idle ∧ two.busFair ∧ (two.hasDevice 1 ∧ (0 : Int) ≤ 15 ∧ (15 : Int) ≤ 15) ∧
    ¬ (two.hasDevice 1 ∧ (0 : Int) ≤ 16 ∧ (16 : Int) ≤ 15) :=
  ⟨rfl, .inl rfl, ⟨witness_rows.1.1, by decide⟩, fun h => absurd h.2 (by decide)⟩

theorem witness_InitdevMakesTheDeviceSafe :
    two.idle ∧ two.busFair ∧ two.hasDevice 1 ∧ Int.toNat 1 < two.chips.length ∧ ¬ two.hasDevice 2 :=
  ⟨rfl, .inl rfl, witness_rows.1.1, by decide, witness_CleardevClearsEightRows.2.2.2.2.1⟩

theorem witness_StartdevMakesTheDeviceActive :
    two.idle ∧ two.busFair ∧ two.hasDevice 1 ∧ ((0 : Int) ≤ 15 ∧ (15 : Int) ≤ 15) ∧ ¬ ((0 : Int) ≤ 16 ∧ (16 : Int) ≤ 15) ∧
    Int.toNat 1 < two.chips.length ∧ ¬ two.hasDevice 2 :=
  ⟨rfl, .inl rfl, witness_rows.1.1, by decide, by decide, by decide, witness_CleardevClearsEightRows.2.2.2.2.1⟩

theorem witness_TransactionCountOfEveryCommand : two.idle ∧ two.busFair ∧ twoBlock.idle ∧ twoBlock.busFair :=
  ⟨rfl, .inl rfl, rfl, .inr ⟨rfl, rfl⟩⟩

/-- A frame for a chip that is there, and one for a chip that is not. -/
theorem witness_FrameWritesTheChipsRegister :
    two.rxChip < two.chips.length ∧ ¬ ({ two with rxChip := 2 } : State).rxChip < two.chips.length ∧
    (∃ f, (15, f) ∈ [(1, Instr.digit0), (15, .displaytest)]) := ⟨by decide, by decide, _, List.mem_cons_of_mem _ (List.mem_cons_self ..)⟩

theorem witness_UnassignedFrameLeavesTheChipUnknown :
    two.resetIn = false ∧ State.latches { two with latches := [(1, 0x0DFF)] } = [(1, 0x0DFF)] ∧
    (0x0DFF : FrameWord).toNat / 256 = 13 ∧ (0x0EFF : FrameWord).toNat / 256 = 14 ∧ 16 ≤ (0x1000 : FrameWord).toNat / 256 := by
  decide

theorem witness_StepRunsTheDecodedCommand :
    let s : State := { two with port := [0x100100AA] }
    s.resetIn = false ∧ s.latches = [] ∧ s.busEvents = [] ∧ s.seq = none ∧ s.port = [0x100100AA] ∧
    decode (.command 0x100100AA) = .ok (.setrow 1 0 0xAA) := by decide

theorem witness_StepRunsTheDecodedFrame :
    let s : State := { two with latches := [(1, 0x0A0F)] }
    s.resetIn = false ∧ s.latches = [(1, 0x0A0F)] ∧ decode (.frame 0x0A0F) = .ok (.intensity 0x0F) := by decide

theorem witness_CommandInABusyBlockIsRefused : isCommand (.getrow 0 0) = true ∧ waitsForGrant.busy = true := by decide

theorem witness_BusyBlockTakesNoCommand : waitsForGrant.busy = true ∧ waitsForGrant.resetIn = false := by decide

theorem witness_OnlyGetrowWritesRdata :
    (∃ t, exec .clearall two = .next t) ∧ (∀ d r, Instr.clearall ≠ .getrow d r) ∧
    (∃ t, step waitsForGrant = .next t) ∧ waitsForGrant.turn ≠ .reset ∧ ∀ w, waitsForGrant.turn ≠ .command w :=
  ⟨⟨_, rfl⟩, fun _ _ h => (by cases h), ⟨_, rfl⟩, fun h => (by cases h), fun _ h => by cases h⟩

theorem witness_ConfigurationIsFixed : ∃ t, step { two with port := [0x48000000] } = .next t := ⟨_, rfl⟩

theorem witness_StalledSetrowIsAheadOfTheChip :
    let s : State := { twoBlock with bus := ⟨some 0, none⟩ }
    s.idle ∧ s.cfg.backend = .block ∧ s.bus.grants = some 0 ∧ (s.hasDevice 1 ∧ (0 : Int) ≤ 7 ∧ (7 : Int) ≤ 7) :=
  ⟨rfl, rfl, rfl, ⟨by decide, by decide⟩, by decide⟩

theorem witness_StalledBlockStaysAsItIs :
    (waitsForGrant.resetIn = false ∧ waitsForGrant.latches = [] ∧ waitsForGrant.busEvents = [] ∧
      waitsForGrant.cfg.backend = .block ∧ waitsForGrant.bus.grants = some 0 ∧
      ∃ q rest, waitsForGrant.seq = some q ∧ q.wire = .acquire :: rest) ∧
    waitsForPeripheral.resetIn = false ∧ waitsForPeripheral.latches = [] ∧ waitsForPeripheral.busEvents = [] ∧
      waitsForPeripheral.cfg.backend = .block ∧ waitsForPeripheral.bus.slots = some 0 ∧
      ∃ q b rest, waitsForPeripheral.seq = some q ∧ q.wire = .byte b :: rest :=
  ⟨⟨rfl, rfl, rfl, rfl, rfl, _, _, rfl, rfl⟩, rfl, rfl, rfl, rfl, rfl, _, _, _, rfl, rfl⟩

/-- A run that stops at the second transaction, and one that does not stop. -/
theorem witness_StallThenGrantEndsAsWithoutStall :
    let s : State := { twoBlock with bus := ⟨some 1, none⟩ }
    s.idle ∧ s.resetIn = false ∧ s.latches = [] ∧ s.busEvents = [] ∧
    (∃ t u q, exec (.cleardev 1) s = .next t ∧ exec (.cleardev 1) { s with bus := ⟨none, none⟩ } = .next u ∧ t.seq = some q) ∧
    ∃ t u, exec (.setrow 1 0 0xAA) s = .next t ∧ exec (.setrow 1 0 0xAA) { s with bus := ⟨none, none⟩ } = .next u ∧
      t.seq = none :=
  ⟨rfl, rfl, rfl, rfl, ⟨_, _, _, rfl, rfl, rfl⟩, _, _, rfl, rfl, rfl⟩

/-- A reset sequence that stops after its first transaction, and one that does not stop. -/
theorem witness_StallThenGrant_reset :
    let s : State := { twoBlock with resetIn := true, bus := ⟨some 1, none⟩ }
    s.idle ∧ s.resetIn = true ∧ s.latches = [] ∧ s.busEvents = [] ∧
    (∃ t u q, step s = .next t ∧ step { s with bus := ⟨none, none⟩ } = .next u ∧ t.seq = some q) ∧
    ∃ t u, step { s with bus := ⟨some 24, none⟩ } = .next t ∧ step { s with bus := ⟨none, none⟩ } = .next u ∧ t.seq = none :=
  ⟨rfl, rfl, rfl, rfl, ⟨_, _, _, rfl, rfl, rfl⟩, _, _, rfl, rfl, rfl⟩

theorem witness_StalledResetIsBusyAndUninitialized :
    let s : State := { twoBlock with resetIn := true, bus := ⟨some 0, none⟩ }
    s.idle ∧ s.cfg.backend = .block ∧ s.bus.grants = some 0 ∧ s.resetIn = true ∧ 1 < s.chips.length :=
  ⟨rfl, rfl, rfl, rfl, by decide⟩

/-- 95_test_vectors.md P3, transactions T10 to T20: device 1 is started and stays ACTIVE past a row write. -/
theorem witness_ActiveOutlastsItsEntry :
    ∃ s t, exec (.startdev 1 8) two = .next s ∧ exec (.setdigit 1 7 5 true) s = .next t ∧ 1 < s.cfg.n ∧
      ¬ touchesPower 1 s.rxChip (.setdigit 1 7 5 true) ∧ activeNow 1 [s, two] ∧ activeNow 1 [t, s, two] ∧ ¬ t.cleared 1 := by
  have hs : ∀ r, r < 8 → ∃ s, exec (.startdev 1 8) two = .next s ∧ s.chipReg 1 (1 + r) = some 0x00 := by
    intro r hr
    refine ⟨_, rfl, ?_⟩
    have key : ∀ r : Fin 8, (match exec (.startdev 1 8) two with | .next s => s.chipReg 1 (1 + r) | _ => none) = some 0x00 := by decide
    exact key ⟨r, hr⟩
  have hc : ∀ s, exec (.startdev 1 8) two = .next s → s.cleared 1 := fun s h r hr => by
    obtain ⟨s', h', e⟩ := hs r hr
    rw [h] at h'
    cases h'
    exact e
  refine ⟨_, _, rfl, rfl, by decide, id, ?_, ?_, fun h => ?_⟩
  · exact ⟨⟨rfl, 8, by decide, rfl⟩, .inl (hc _ rfl)⟩
  · exact ⟨⟨rfl, 8, by decide, rfl⟩, .inr ⟨⟨rfl, 8, by decide, rfl⟩, .inl (hc _ rfl)⟩⟩
  · have := h 7 (by decide)
    revert this
    decide

theorem witness_ResetSequenceMakesEveryDeviceSafe :
    let s : State := { two with resetIn := true }
    s.idle ∧ s.busFair ∧ s.chainMatches ∧ s.resetIn = true := ⟨rfl, .inl rfl, rfl, rfl⟩

theorem witness_ResetWhileBusyIsRefused :
    let s : State := { waitsForGrant with resetIn := true }
    s.resetIn = true ∧ s.busy = true := by decide

/-- Idle with a raw TRANSACT at the port and a frame from elsewhere that the conditions admit; a SETROW ahead of its chip that
waits for the grant; and the same with its first byte in the shift path, waiting for the peripheral. -/
theorem witness_ShadowMirrorsTheChips :
    let s : State := { two with port := [0x00010A0F], latches := [(0, 0x0A08)] }
    let g : State := { waitsForGrant with shadow := [(8, 0xAA)] }
    let p : State := { waitsForPeripheral with shadow := [(8, 0xAA)], chain := [0x01, 0, 0, 0] }
    (MirrorInv s ∧ ∃ t, step s = .next t) ∧ (MirrorInv g ∧ ∃ t, step g = .next t) ∧ MirrorInv p ∧ ∃ t, step p = .next t := by
  have key : ∀ d : Fin 2, ∀ r : Fin 8, two.chipReg d (1 + r) = some (two.shadowAt d r) := by decide
  have ahead : ∀ d : Fin 2, ∀ r : Fin 8, two.chipReg d (1 + r) = some (Memory.read [(8, 0xAA)] (shadowAddr d r)) ∨
      d.val = 1 ∧ (1 : Byte).toNat = 1 + r := by decide
  refine ⟨⟨⟨rfl, fun x hx => ?_, fun w hw t op data h => ?_, fun _ d r hd hr => key ⟨d, hd⟩ ⟨r, hr⟩, fun q h => by cases h⟩, _, rfl⟩,
    ⟨⟨rfl, fun x hx => (by cases hx), fun w hw => (by cases hw), fun h => (by cases h), fun q h => ?_⟩, _, rfl⟩,
    ⟨rfl, fun x hx => (by cases hx), fun w hw => (by cases hw), fun h => (by cases h), fun q h => ?_⟩, _, rfl⟩
  · rw [List.mem_singleton.mp hx]
    exact .inr (by decide)
  · rw [List.mem_singleton.mp hw] at h
    have h' : decode (.command 0x00010A0F) = .ok (.transact 1 0x0A 0x0F) := by decide
    rw [h'] at h
    cases h
    exact .inr (by decide)
  · cases h
    exact ⟨rfl, fun c hc => (by cases hc), 1, ⟨1, 0xAA⟩, ⟨by decide, .inl rfl⟩, .inr ⟨0, by decide, rfl⟩, fun d r hd hr =>
      (ahead ⟨d, hd⟩ ⟨r, hr⟩).imp id .inl⟩
  · cases h
    exact ⟨rfl, fun c hc => (by cases hc), 1, ⟨1, 0xAA⟩, ⟨by decide, .inr ⟨[1], [0xAA, 0, 0], rfl, rfl, rfl⟩⟩, .inr ⟨0, by decide, rfl⟩,
      fun d r hd hr => (ahead ⟨d, hd⟩ ⟨r, hr⟩).imp id .inl⟩

/-- An idle state, a state that waits for the grant and one that waits for the peripheral. -/
theorem witness_StepKeepsStatesWellFormed :
    (two.Wf ∧ ∃ t, step two = .next t) ∧ (waitsForGrant.Wf ∧ ∃ t, step waitsForGrant = .next t) ∧
    (waitsForPeripheral.Wf ∧ ∃ t, step waitsForPeripheral = .next t) := by
  have hc : ∀ c, c ∈ List.replicate 2 Chip.afterReset → cellsRise c.regs = true ∧
      ∀ x, x ∈ c.regs → (1 ≤ x.1 ∧ x.1 ≤ 12) ∨ x.1 = 15 := by decide
  have hs : ∀ x, x ∈ ([] : Memory) → x.1 < 8 * two.cfg.n := by simp
  refine ⟨⟨⟨rfl, hs, fun c h => (hc c h).1, fun c h => (hc c h).2, rfl, rfl, fun _ => ⟨rfl, rfl⟩, fun q h => by cases h⟩,
    _, rfl⟩, ⟨⟨rfl, hs, fun c h => (hc c h).1, fun c h => (hc c h).2, rfl, rfl, fun h => (by cases h), fun q h => ?_⟩, _, rfl⟩,
    ⟨rfl, hs, fun c h => (hc c h).1, fun c h => (hc c h).2, rfl, rfl, fun h => (by cases h), fun q h => ?_⟩, _, rfl⟩
  · cases h
    exact ⟨rfl, 1, ⟨1, 0xAA⟩, by decide, .inl ⟨rfl, rfl, rfl⟩⟩
  · cases h
    exact ⟨rfl, 1, ⟨1, 0xAA⟩, by decide, .inr ⟨[1], 0xAA, [0, 0], rfl, rfl, rfl, rfl⟩⟩

end Sys2Proof.Tests
end

/-! PROOFS. The parameters of the block are fixed (rule R3): what a command that answers a next state did, and that no
step changes the configuration. -/

namespace Sys2Proof.Machine

/-- `N = max(1, COUNT)` as integers: the maximum is positive, so `toNat` loses nothing. -/
theorem Config.cast_n (c : Config) : (c.n : Int) = max 1 c.count :=
  Int.toNat_of_nonneg (le_max_of_le_left (by decide))

theorem execGetrow_next {s t : State} {d r : Int} (h : execGetrow d r s = .next t) :
    s.idle ∧ t = s.putRdata (getRow s d r) := by
  unfold execGetrow at h
  split at h
  · cases h
  · next hb => exact ⟨by simpa [State.busy, State.idle] using hb, (Host.Outcome.next.inj h).symm⟩

/-- A command that answers a next state started idle, and either is GETROW or ran its calls. -/
theorem exec_command_next {i : Instr} {s t : State} (hc : isCommand i = true) (h : exec i s = .next t) :
    s.idle ∧ ((∃ d r, i = .getrow d r ∧ t = s.putRdata (getRow s d r)) ∨
      t = State.settle (some i) (s.runCalls (commandCalls s.cfg i))) := by
  by_cases hg : ∃ d r, i = .getrow d r
  · obtain ⟨d, r, rfl⟩ := hg
    obtain ⟨hi, ht⟩ := execGetrow_next h
    exact ⟨hi, .inl ⟨d, r, rfl, ht⟩⟩
  · rw [exec_command hc fun d r e => hg ⟨d, r, e⟩] at h
    obtain ⟨hi, ht⟩ := perform_next h
    exact ⟨hi, .inr ht⟩

theorem settle_runCalls_keeps (cmd : Option Instr) (s : State) (cs : List Call) :
    Keeps s (State.settle cmd (s.runCalls cs)) :=
  (runCalls_keeps s cs).trans (settle_keeps cmd _)

theorem resume_keeps (s : State) (q : Sequencer) : Keeps s (s.resume q) :=
  (runRest_keeps s q.calls q.wire).trans (settle_keeps q.cmd _)

theorem restart_cfg (s : State) : s.restart.cfg = s.cfg :=
  (settle_runCalls_keeps none s.atReset (resetCalls s.cfg)).cfg

theorem exec_command_cfg {i : Instr} {s t : State} (hc : isCommand i = true) (h : exec i s = .next t) : t.cfg = s.cfg := by
  obtain ⟨-, ⟨d, r, -, rfl⟩ | rfl⟩ := exec_command_next hc h
  · exact State.putRdata_cfg s _
  · exact (settle_runCalls_keeps _ s _).cfg

/-- No step changes `COUNT`, `BACKEND`, `GLYPH` or `GETROW_OOR`: one case for each form of a step. -/
theorem step_cfg {s t : State} (h : step s = .next t) : t.cfg = s.cfg := by
  rcases step_cases h with reset | latch | bus | sequencer | command | nobody
  · obtain ⟨-, -, rfl⟩ := reset
    exact restart_cfg s
  · obtain ⟨-, k, f, rest, -, rfl⟩ := latch
    simp
  · obtain ⟨-, -, e, rest, -, rfl⟩ := bus
    simp
  · obtain ⟨-, -, -, q, -, rfl⟩ := sequencer
    exact (resume_keeps s q).cfg
  · obtain ⟨-, -, -, -, w, rest, -, ⟨i, hd, he⟩ | ⟨-, rfl⟩⟩ := command
    · exact (exec_command_cfg (decode_command_isCommand hd) he).trans (State.popPort_cfg s)
    · exact State.popPort_cfg s
  · obtain ⟨-, -, -, -, -, rfl⟩ := nobody
    rfl

/-- Settles O46: every form of a step keeps the configuration, and `N` is a function of it alone. -/
theorem configurationIsFixed : Obligations.ConfigurationIsFixed := by
  intro s t h
  have hcfg : t.cfg = s.cfg := step_cfg h
  exact ⟨hcfg, hcfg ▸ Config.cast_n t.cfg⟩

end Sys2Proof.Machine

/-! PROOFS. A run of calls by its transactions: what holds when every transaction has ended, and what holds where the bus
stops one. -/

namespace Sys2Proof.Machine

/-! ## An invariant of runs, proved once -/

/-- Wire operations ended in a state with `P`, or stopped with some of them left, in a state with `W`. -/
def WireEnds (P : State → Prop) (W : State → List WireOp → Prop) (x : State × List WireOp) : Prop :=
  (x.2 = [] ∧ P x.1) ∨ (x.2 ≠ [] ∧ W x.1 x.2)

/-- Calls ended in a state with `P`, or stopped inside a transaction, in a state with `W` and the rest that is left. -/
def RunEnds (P : State → List Call → Prop) (W : State → List Call → List WireOp → Prop)
    (x : State × List Call × List WireOp) : Prop :=
  (x.2.1 = [] ∧ x.2.2 = [] ∧ P x.1 []) ∨ (x.2.2 ≠ [] ∧ W x.1 x.2.1 x.2.2)

/-- A call up to the end of its transaction or to where the bus stops it. -/
def State.runCall (s : State) (c : Call) : State × List WireOp := (s.beginCall c).1.runWire (s.beginCall c).2

section
variable {P : State → List Call → Prop} {W : State → List Call → List WireOp → Prop}

theorem WireEnds.runRest {s : State} {cs : List Call} {ops : List WireOp}
    (h : WireEnds (P · cs) (W · cs ·) (s.runWire ops)) (hcs : ∀ t, P t cs → RunEnds P W (t.runCalls cs)) :
    RunEnds P W (s.runRest cs ops) := by
  unfold State.runRest
  split
  · next t ht =>
    rw [ht] at h
    obtain ⟨-, hP⟩ | ⟨hne, -⟩ := h
    · exact hcs t hP
    · exact absurd rfl hne
  · next t op rest ht =>
    rw [ht] at h
    obtain ⟨hnil, -⟩ | ⟨-, hW⟩ := h
    · cases hnil
    · exact .inr ⟨by simp, hW⟩

/-- What every call keeps, a run of calls keeps. -/
theorem runCalls_ends (hcall : ∀ s c cs, P s (c :: cs) → WireEnds (P · cs) (W · cs ·) (s.runCall c))
    {s : State} {cs : List Call} (h : P s cs) : RunEnds P W (s.runCalls cs) := by
  induction cs generalizing s with
  | nil => exact .inl ⟨rfl, rfl, h⟩
  | cons c cs ih =>
    rw [runCalls_cons]
    exact (hcall s c cs h).runRest fun t => ih

end

end Sys2Proof.Machine

/-! PROOFS. The shadow invariant (rule R13). -/

namespace Sys2Proof.Machine

/-! ## Frames that spare the row registers -/

theorem sparesRows.assigned {op : Byte} (h : sparesRows op) : op = opNoop ∨ assignedOpcode op = true :=
  h.imp id And.right

/-- No row register has the opcode of such a frame. -/
theorem sparesRows.not_row {op : Byte} (h : sparesRows op) {r : Nat} (hr : r < 8) : op.toNat ≠ 1 + r := by
  rcases h with rfl | ⟨h9, -⟩
  · have : (0 : Byte).toNat = 0 := rfl
    omega
  · omega

theorem latchAt_row {s : State} {op : Byte} (h : sparesRows op) (k0 : Nat) (data : Byte) (k : Nat) {r : Nat}
    (hr : r < 8) :
    (s.latchAt k0 op data).chipReg k (1 + r) = s.chipReg k (1 + r) := by
  rw [State.chipReg_latchAt s k0 k (1 + r) op data h.assigned, if_neg]
  exact fun x => h.not_row hr x.2.2.2

/-! ## One transaction -/

/-- Every cell is mirrored, but while the reset sequence runs not those that its `calls` have still to clear. -/
def State.mirroredAfter (s : State) (cmd : Option Instr) (calls : List Call) : Prop :=
  ∀ d r, d < s.cfg.n → r < 8 → s.chipReg d (1 + r) = some (s.shadowAt d r) ∨
    (cmd = none ∧ .setRow (Int.ofNat d) (Int.ofNat r) 0x00 ∈ calls)

theorem State.mirroredAfter.mirrored {s : State} {cmd : Option Instr} (h : s.mirroredAfter cmd []) : s.mirrored :=
  fun d r hd hr => (h d r hd hr).resolve_right fun x => by simp at x

/-- Between two calls of a command: the chain, the calls still to make and the cells are as the invariant asks. -/
structure MirrorCalls (cmd : Option Instr) (s : State) (calls : List Call) : Prop where
  chain : s.chainMatches
  spares : ∀ c, c ∈ calls → c.keepsMirror
  cells : s.mirroredAfter cmd calls

/-- Stopped inside a transaction: the clause `waiting` of the invariant, and the chain. -/
structure MirrorStop (cmd : Option Instr) (s : State) (calls : List Call) (ops : List WireOp) : Prop where
  chain : s.chainMatches
  block : s.cfg.backend = .block
  spares : ∀ c, c ∈ calls → c.keepsMirror
  cells : ∃ d f, Sequencer.pending ⟨cmd, calls, ops⟩ s d f ∧ s.mirroredBut ⟨cmd, calls, ops⟩ d f

/-- When the pending frame is taken, its cell is mirrored too. -/
theorem State.mirroredBut.took {s t : State} {q : Sequencer} {d : Nat} {f : Frame} (h : s.mirroredBut q d f)
    (hc : s.chainMatches) (ht : s.took t d f) (hcfg : t.cfg = s.cfg) (hsh : t.shadow = s.shadow) :
    t.mirroredAfter q.cmd q.calls := by
  obtain ⟨hop, hcells⟩ := h
  have hshadow : ∀ d' r', t.shadowAt d' r' = s.shadowAt d' r' := fun d' r' => by simp only [State.shadowAt, hsh]
  intro d' r' hd hr
  rw [hcfg] at hd
  rw [hshadow]
  have hlen : d' < s.chips.length := by rwa [show s.chips.length = s.cfg.n from hc]
  rcases hop with hsp | ⟨r, hr8, rfl⟩
  · have hkeep : t.chipReg d' (1 + r') = s.chipReg d' (1 + r') := by
      rw [ht.chipReg hd hsp.assigned, if_neg fun x => hsp.not_row hr x.2.2.2]
    rw [hkeep]
    exact (hcells d' r' hd hr).imp_right fun x => x.resolve_left fun y => hsp.not_row hr y.2
  · obtain ⟨h0, ha, hnat⟩ := rowOpcode_named hr8
    rw [ht.chipReg hd (.inr ha)]
    by_cases e : d' = d ∧ r' = r
    · obtain ⟨rfl, rfl⟩ := e
      exact .inl (if_pos ⟨rfl, hlen, h0, hnat⟩)
    · have hne : ¬ (d' = d ∧ (BitVec.ofNat 8 (1 + r)).toNat = 1 + r') := fun x =>
        e ⟨x.1, by have := hnat.symm.trans x.2; omega⟩
      rw [if_neg fun x => hne ⟨x.1, x.2.2.2⟩]
      exact (hcells d' r' hd hr).imp_right fun x => x.resolve_left hne

/-- Neither the chips nor the shadow know of a stop. -/
theorem State.mirroredBut.stopped {s t : State} {q : Sequencer} {d : Nat} {f : Frame} (h : s.mirroredBut q d f)
    (hcfg : t.cfg = s.cfg) (hsh : t.shadow = s.shadow)
    (hrow : ∀ k r, r < 8 → t.chipReg k (1 + r) = s.chipReg k (1 + r)) :
    t.mirroredBut q d f := by
  have hshadow : ∀ d' r', t.shadowAt d' r' = s.shadowAt d' r' := fun d' r' => by simp only [State.shadowAt, hsh]
  refine ⟨?_, fun d' r' hd hr => ?_⟩
  · simpa only [hshadow] using h.1
  · rw [hshadow, hrow d' r' hr]
    exact h.2 d' r' (hcfg ▸ hd) hr

/-- In a chain of N chips a rest of a transaction is what a sequencer can wait in, and the other way round. -/
theorem pending_iff_left {s : State} (hc : s.chainMatches) {q : Sequencer} {d : Nat} {f : Frame} :
    q.pending s d f ↔ d < s.cfg.n ∧ s.left q.wire d f := by
  refine and_congr_right fun _ => or_congr_right ⟨?_, ?_⟩
  · exact fun ⟨sent, rest, hb, hw, ht⟩ => ⟨sent, rest, hb, hw, State.shifted_of_take ht⟩
  · rintro ⟨sent, rest, hb, hw, hs⟩
    have hlen : sent.length + rest.length = 2 * s.cfg.n := by
      rw [← List.length_append, ← hb, txBytes_length]
    have hchips : s.chips.length = s.cfg.n := hc
    exact ⟨sent, rest, hb, hw, State.shifted_take hs (by omega)⟩

/-- A transaction that ends or stops, from a state in which only its own cell need not be mirrored. -/
theorem wireEnds_mirror {s : State} {cmd : Option Instr} {cs : List Call} {ops : List WireOp} {d : Nat} {f : Frame}
    (hc : s.chainMatches) (hcs : ∀ c, c ∈ cs → c.keepsMirror) (hd : d < s.cfg.n) (hm : s.mirroredBut ⟨cmd, cs, ops⟩ d f)
    (h : ((s.runWire ops).2 = [] ∧ s.took (s.runWire ops).1 d f) ∨
      ((s.runWire ops).2 ≠ [] ∧ s.cfg.backend = .block ∧ (s.runWire ops).1.chips = s.chips ∧
        (s.runWire ops).1.left (s.runWire ops).2 d f)) :
    WireEnds (MirrorCalls cmd · cs) (MirrorStop cmd · cs ·) (s.runWire ops) := by
  have hq := runWire_quiet s ops
  have hchain : (s.runWire ops).1.chainMatches := by
    unfold State.chainMatches
    rw [hq.chipCount, hq.cfg]
    exact hc
  refine h.imp (fun ⟨hnil, ht⟩ => ⟨hnil, hchain, hcs, hm.took hc ht hq.cfg hq.shadow⟩) ?_
  rintro ⟨hne, hb, hchips, hleft⟩
  refine ⟨hne, hchain, hq.cfg ▸ hb, hcs, d, f, (pending_iff_left hchain).mpr ⟨hq.cfg ▸ hd, hleft⟩, ?_⟩
  exact hm.stopped hq.cfg hq.shadow fun k r _ => by rw [State.chipReg, hchips, State.chipReg]

/-! ## One call -/

/-- A `SetRow` in range does start something. -/
theorem beginCall_setRow_ne_skip {s : State} {d r : Nat} (hd : d < s.cfg.n) (hr : r < 8) (v : Byte) :
    s.beginCall (.setRow (Int.ofNat d) (Int.ofNat r) v) ≠ (s, []) := by
  have hdev : deviceOk s.cfg (Int.ofNat d) = true := (deviceOk_iff _ _).mpr (hasDevice_ofNat (s := s) hd)
  have hrow : rowOk (Int.ofNat r) = true := (rowOk_iff _).mpr (by simp; omega)
  have hops : ∀ b bytes, txOps b bytes ≠ [] := fun b bytes => by cases b <;> simp [txOps]
  simp only [State.beginCall, State.beginSetRow, transactOps, hdev, hrow, Bool.and_self, if_true]
  exact fun h => hops _ _ (congrArg Prod.snd h)

/-- What a call starts is a transaction whose own cell alone need not be mirrored; a call that starts nothing had no cell
to clear. -/
theorem runCall_mirror {cmd : Option Instr} {s : State} {c : Call} {cs : List Call} (h : MirrorCalls cmd s (c :: cs)) :
    WireEnds (MirrorCalls cmd · cs) (MirrorStop cmd · cs ·) (s.runCall c) := by
  obtain ⟨hchain, hcalls, hcells⟩ := h
  obtain ⟨hcall, hcs⟩ := List.forall_mem_cons.mp hcalls
  unfold State.runCall
  rcases beginCall_cases s c with hskip | ⟨t, op, data, rfl, ht, hb⟩ | ⟨d, r, v, hd, hr, hsets, -, hb⟩
  · rw [hskip]
    refine .inl ⟨rfl, hchain, hcs, fun d r hd hr => (hcells d r hd hr).imp_right fun ⟨hn, hmem⟩ => ⟨hn, ?_⟩⟩
    exact (List.mem_cons.mp hmem).resolve_left fun e => beginCall_setRow_ne_skip hd hr 0x00 (e ▸ hskip)
  · rw [hb]
    refine wireEnds_mirror hchain hcs (hasDevice_toNat ht) (f := ⟨op, data⟩) ⟨.inl hcall, fun d r hd hr => ?_⟩
      (runWire_whole s _ _)
    exact (hcells d r hd hr).imp_right fun ⟨hn, hmem⟩ => .inr ⟨hn, (List.mem_cons.mp hmem).resolve_left fun e => by cases e⟩
  · rw [hb]
    refine wireEnds_mirror (s := s.putShadow d r v) hchain hcs hd ⟨.inr ⟨r, hr, ?_⟩, fun d' r' hd' hr' => ?_⟩
      (runWire_whole (s.putShadow d r v) d _)
    · rw [State.shadowAt_putShadow_same]
    · by_cases e : d' = d ∧ r' = r
      · exact .inr (.inl ⟨e.1, by rw [e.2]; exact (rowOpcode_named hr).2.2⟩)
      · have hsh : (s.putShadow d r v).shadowAt d' r' = s.shadowAt d' r' :=
          State.read_putShadow_other s v fun x => e (shadowAddr_inj hr' hr x)
        rw [hsh]
        refine (hcells d' r' hd' hr').imp_right fun ⟨hn, hmem⟩ => .inr ⟨hn, (List.mem_cons.mp hmem).resolve_left ?_⟩
        rintro rfl
        exact e ⟨Int.ofNat.inj hsets.1, Int.ofNat.inj hsets.2⟩

theorem runCalls_mirror {cmd : Option Instr} {s : State} {cs : List Call} (h : MirrorCalls cmd s cs) :
    RunEnds (MirrorCalls cmd) (MirrorStop cmd) (s.runCalls cs) :=
  runCalls_ends (fun _ _ _ => runCall_mirror) h

/-! ## The calls of commands -/

theorem clearDeviceCalls_keepsMirror {d : Int} {c : Call} (h : c ∈ clearDeviceCalls d) : c.keepsMirror := by
  obtain ⟨r, -, rfl⟩ := List.mem_map.mp h
  trivial

theorem shutdownCalls_keepsMirror {d : Int} {e : Bool} {c : Call} (h : c ∈ shutdownCalls d e) : c.keepsMirror := by
  rw [List.mem_singleton.mp h]
  exact .inr (by decide)

theorem scanLimitCalls_keepsMirror {d limit : Int} {c : Call} (h : c ∈ scanLimitCalls d limit) : c.keepsMirror := by
  unfold scanLimitCalls at h
  split at h
  · rw [List.mem_singleton.mp h]
    exact .inr (by decide)
  · cases h

theorem intensityCalls_keepsMirror {d i : Int} {c : Call} (h : c ∈ intensityCalls d i) : c.keepsMirror := by
  unfold intensityCalls at h
  split at h
  · rw [List.mem_singleton.mp h]
    exact .inr (by decide)
  · cases h

theorem initDeviceCalls_keepsMirror {d : Int} {c : Call} (h : c ∈ initDeviceCalls d) : c.keepsMirror := by
  simp only [initDeviceCalls, List.mem_append, List.mem_singleton] at h
  rcases h with (((rfl | h) | rfl) | h) | h
  · exact .inr (by decide)
  · exact scanLimitCalls_keepsMirror h
  · exact .inr (by decide)
  · exact clearDeviceCalls_keepsMirror h
  · exact shutdownCalls_keepsMirror h

theorem resetCalls_keepsMirror {cfg : Config} {c : Call} (h : c ∈ resetCalls cfg) : c.keepsMirror := by
  obtain ⟨d, -, h⟩ := List.mem_flatMap.mp h
  exact initDeviceCalls_keepsMirror h

/-- The reset sequence clears every cell. -/
theorem setRow_mem_resetCalls {cfg : Config} {d r : Nat} (hd : d < cfg.n) (hr : r < 8) :
    .setRow (Int.ofNat d) (Int.ofNat r) 0x00 ∈ resetCalls cfg := by
  refine List.mem_flatMap.mpr ⟨d, List.mem_range.mpr hd, ?_⟩
  have hclear : .setRow (Int.ofNat d) (Int.ofNat r) 0x00 ∈ clearDeviceCalls (Int.ofNat d) :=
    List.mem_map.mpr ⟨r, List.mem_range.mpr hr, rfl⟩
  simp only [initDeviceCalls, List.mem_append]
  exact .inl (.inr hclear)

/-- No command but a raw TRANSACT makes a call that rule R172 warns of. -/
theorem commandCalls_keepsMirror {cfg : Config} {i : Instr} (hi : ∀ t op data, i = .transact t op data → sparesRows op)
    {c : Call} (h : c ∈ commandCalls cfg i) : c.keepsMirror := by
  cases i with
  | transact t op data =>
    rw [List.mem_singleton.mp h]
    exact hi t op data rfl
  | setrow d r v => rw [List.mem_singleton.mp h]; trivial
  | setpixel d r k on => rw [List.mem_singleton.mp h]; trivial
  | setrowbits d r v => rw [List.mem_singleton.mp h]; trivial
  | setcolbits d k v =>
    obtain ⟨r, -, rfl⟩ := List.mem_map.mp h
    trivial
  | setdigit d p v dp =>
    simp only [commandCalls, digitCalls] at h
    split at h
    · rw [List.mem_singleton.mp h]; trivial
    · cases h
  | setchar d p code dp => rw [List.mem_singleton.mp h]; trivial
  | cleardev d => exact clearDeviceCalls_keepsMirror h
  | clearall =>
    obtain ⟨d, -, h⟩ := List.mem_flatMap.mp h
    exact clearDeviceCalls_keepsMirror h
  | setshutdown d e => exact shutdownCalls_keepsMirror h
  | setscanlimit d l => exact scanLimitCalls_keepsMirror h
  | setintensity d i => exact intensityCalls_keepsMirror h
  | initdev d => exact initDeviceCalls_keepsMirror h
  | startdev d i =>
    simp only [commandCalls, startDeviceCalls, List.mem_append] at h
    rcases h with (h | h) | h
    · exact shutdownCalls_keepsMirror h
    · exact intensityCalls_keepsMirror h
    · exact clearDeviceCalls_keepsMirror h
  | drawpixel x y color =>
    simp only [commandCalls, drawPixelCalls] at h
    split at h
    · rw [List.mem_singleton.mp h]; trivial
    · cases h
  | _ => cases h

/-! ## The invariant -/

/-- The parts of the state the invariant speaks of are the same, and no input is new. -/
structure MirrorSame (s t : State) : Prop where
  cfg : t.cfg = s.cfg
  shadow : t.shadow = s.shadow
  seq : t.seq = s.seq
  chain : t.chain = s.chain
  chipCount : t.chips.length = s.chips.length
  rows : ∀ k r, r < 8 → t.chipReg k (1 + r) = s.chipReg k (1 + r)
  latches : ∀ x, x ∈ t.latches → x ∈ s.latches
  port : ∀ w, w ∈ t.port → w ∈ s.port

theorem MirrorInv.same {s t : State} (h : MirrorInv s) (e : MirrorSame s t) : MirrorInv t where
  chain := by
    unfold State.chainMatches
    rw [e.chipCount, e.cfg]
    exact h.chain
  frames x hx := h.frames x (e.latches x hx)
  port w hw := h.port w (e.port w hw)
  idle hi d r hd hr := by
    have hs : s.idle := e.seq.symm.trans hi
    rw [e.rows d r hr, State.shadowAt, e.shadow]
    exact h.idle hs d r (e.cfg ▸ hd) hr
  waiting q hq := by
    obtain ⟨hb, hcalls, d, f, hp, hm⟩ := h.waiting q (e.seq ▸ hq)
    refine ⟨e.cfg ▸ hb, hcalls, d, f, ?_, hm.stopped e.cfg e.shadow e.rows⟩
    unfold Sequencer.pending
    rw [e.cfg, e.chain]
    exact hp

/-- The end of a run with the invariant of runs, and inputs as the invariant asks. -/
theorem RunEnds.mirrorInv {cmd : Option Instr} {x : State × List Call × List WireOp}
    (h : RunEnds (MirrorCalls cmd) (MirrorStop cmd) x) (hf : ∀ y, y ∈ x.1.latches → sparesRows (opField y.2))
    (hp : ∀ w, w ∈ x.1.port → keepsMirror w) : MirrorInv (State.settle cmd x) := by
  obtain ⟨t, cs, ops⟩ := x
  obtain ⟨rfl, rfl, hP⟩ | ⟨hne, hW⟩ := h
  · exact ⟨hP.chain, hf, hp, fun _ => hP.cells.mirrored, nofun⟩
  · obtain ⟨op, rest, rfl⟩ := List.exists_cons_of_ne_nil hne
    rw [State.settle_waiting]
    refine ⟨hW.chain, hf, hp, nofun, fun q hq => ?_⟩
    cases hq
    exact ⟨hW.block, hW.spares, hW.cells⟩

theorem MirrorInv.settle_runCalls {s : State} {cmd : Option Instr} {cs : List Call}
    (hf : ∀ x, x ∈ s.latches → sparesRows (opField x.2)) (hp : ∀ w, w ∈ s.port → keepsMirror w)
    (h : MirrorCalls cmd s cs) : MirrorInv (State.settle cmd (s.runCalls cs)) := by
  have hk := runCalls_keeps s cs
  exact (runCalls_mirror h).mirrorInv (hk.latches ▸ hf) (hk.port ▸ hp)

theorem MirrorInv.restart {s : State} (h : MirrorInv s) : MirrorInv s.restart := by
  refine .settle_runCalls (s := s.atReset) h.frames h.port ⟨?_, fun c => resetCalls_keepsMirror, fun d r hd hr => ?_⟩
  · simpa [State.chainMatches] using h.chain
  · exact .inr ⟨rfl, setRow_mem_resetCalls hd hr⟩

theorem MirrorInv.resume {s : State} (h : MirrorInv s) {q : Sequencer} (hq : s.seq = some q) : MirrorInv (s.resume q) := by
  obtain ⟨hb, hcalls, d, f, hp, hm⟩ := h.waiting q hq
  obtain ⟨hd, hleft⟩ := (pending_iff_left h.chain).mp hp
  have htx : WireEnds (MirrorCalls q.cmd · q.calls) (MirrorStop q.cmd · q.calls ·) (s.runWire q.wire) :=
    wireEnds_mirror h.chain hcalls hd hm ((runWire_left hb hleft).imp_right fun ⟨hne, x⟩ => ⟨hne, hb, x⟩)
  have hk := runRest_keeps s q.calls q.wire
  exact (htx.runRest fun _ => runCalls_mirror).mirrorInv (hk.latches ▸ h.frames) (hk.port ▸ h.port)

theorem MirrorInv.exec_command {s t : State} {i : Instr} (h : MirrorInv s) (hc : isCommand i = true)
    (hi : ∀ t op data, i = .transact t op data → sparesRows op) (he : exec i s = .next t) : MirrorInv t := by
  obtain ⟨hidle, ⟨d, r, -, rfl⟩ | rfl⟩ := exec_command_next hc he
  · exact h.same ⟨rfl, rfl, rfl, rfl, rfl, fun _ _ _ => rfl, fun _ => id, fun _ => id⟩
  · exact .settle_runCalls h.frames h.port
      ⟨h.chain, fun c => commandCalls_keepsMirror hi, fun d r hd hr => .inl (h.idle hidle d r hd hr)⟩

theorem MirrorInv.popPort {s : State} (h : MirrorInv s) : MirrorInv s.popPort :=
  h.same ⟨rfl, rfl, rfl, rfl, rfl, fun _ _ _ => rfl, fun _ => id, fun _ => List.mem_of_mem_tail⟩

/-- Settles O54: the reset sequence, a resumption and a command keep the invariant as runs of calls, and the other steps
leave what it speaks of as it was. -/
theorem shadowMirrorsTheChips : Obligations.ShadowMirrorsTheChips := by
  intro s t h hstep
  rcases step_cases hstep with reset | latch | bus | sequencer | command | nobody
  · obtain ⟨-, -, rfl⟩ := reset
    exact h.restart
  · obtain ⟨-, k, f, rest, hl, rfl⟩ := latch
    have hop : sparesRows (opField f) := h.frames (k, f) (hl ▸ List.mem_cons_self)
    exact h.same ⟨rfl, rfl, rfl, rfl, by simp, fun k' r hr => latchAt_row (s := s.popLatch k) hop k (dataField f) k' hr,
      fun _ => List.mem_of_mem_tail, fun _ => id⟩
  · obtain ⟨-, -, e, rest, -, rfl⟩ := bus
    exact h.same ⟨by simp, by simp, by simp, by simp, by simp, fun _ _ _ => by simp [State.chipReg], by simp, by simp⟩
  · obtain ⟨-, -, -, q, hq, rfl⟩ := sequencer
    exact h.resume hq
  · obtain ⟨-, -, -, -, w, rest, hp, ⟨i, hd, he⟩ | ⟨-, rfl⟩⟩ := command
    · have hw : keepsMirror w := h.port w (hp ▸ List.mem_cons_self)
      exact h.popPort.exec_command (decode_command_isCommand hd) (fun t op data e => hw t op data (e ▸ hd)) he
    · exact h.popPort
  · obtain ⟨-, -, -, -, -, rfl⟩ := nobody
    exact h

end Sys2Proof.Machine

/-! PROOFS. Well-formed states: storage and shift path, and the lines of a run. -/

namespace Sys2Proof.Machine

/-! ## Storage, shift path and clock -/

/-- The clauses of `State.Wf` for a chip. -/
def Chip.Wf (c : Chip) : Prop := cellsRise c.regs = true ∧ ∀ x, x ∈ c.regs → (1 ≤ x.1 ∧ x.1 ≤ 12) ∨ x.1 = 15

/-- The clauses of `State.Wf` that hold at every moment of a run. -/
structure Stored (s : State) : Prop where
  shadow : Memory.wf s.shadow = true
  shadowSpace : ∀ x, x ∈ s.shadow → x.1 < 8 * s.cfg.n
  chips : ∀ c, c ∈ s.chips → c.Wf
  path : s.chain.length = 2 * s.chips.length
  sclk : s.sclk = false

theorem Chip.wf_nil (b : Bool) : Chip.Wf ⟨[], b⟩ := ⟨rfl, nofun⟩

theorem assignedOpcode_iff (op : Byte) : assignedOpcode op = true ↔ op.toNat ≤ 12 ∨ op.toNat = 15 := by
  simp [assignedOpcode]

theorem Chip.Wf.latch {c : Chip} (h : c.Wf) (op data : Byte) : (c.latch op data).Wf := by
  unfold Chip.latch
  split
  · exact h
  · next h0 =>
    split
    · next ha =>
      have hpos : op.toNat ≠ 0 := fun e => h0 (BitVec.eq_of_toNat_eq e)
      have hspace := (assignedOpcode_iff op).mp ha
      refine ⟨cellsRise_putCell _ _ h.1, fun x hx => ?_⟩
      rcases mem_putCell hx with rfl | hx
      · exact hspace.imp_left fun hle => ⟨by omega, hle⟩
      · exact h.2 x hx
    · exact Chip.wf_nil true

theorem latchChips_wf {cs : List Chip} (h : ∀ c, c ∈ cs → c.Wf) (bs : List Byte) : ∀ c, c ∈ latchChips cs bs → c.Wf := by
  induction cs generalizing bs with
  | nil => cases bs <;> exact h
  | cons c cs ih =>
    obtain ⟨hc, hcs⟩ := List.forall_mem_cons.mp h
    rcases bs with _ | ⟨data, _ | ⟨op, rest⟩⟩
    · exact h
    · exact h
    · exact List.forall_mem_cons.mpr ⟨hc.latch op data, ih hcs rest⟩

theorem shiftIn_length {m : Nat} {chain : List Byte} (h : chain.length = 2 * m) (b : Byte) :
    (shiftIn m chain b).length = 2 * m := by
  simp only [shiftIn, List.length_take, List.length_cons]
  omega

theorem Stored.putShadow {s : State} (h : Stored s) {d r : Nat} (hd : d < s.cfg.n) (hr : r < 8) (v : Byte) :
    Stored (s.putShadow d r v) := by
  refine ⟨Memory.wf_write _ _ h.shadow, fun x hx => ?_, h.chips, h.path, h.sclk⟩
  rcases Memory.mem_write hx with ⟨rfl, -⟩ | hx
  · show shadowAddr d r < 8 * s.cfg.n
    simp only [shadowAddr, rows]
    omega
  · exact h.shadowSpace x hx

theorem Stored.latchAt {s : State} (h : Stored s) (k : Nat) (op data : Byte) : Stored (s.latchAt k op data) := by
  refine ⟨h.shadow, h.shadowSpace, fun c hc => ?_, by simpa using h.path, h.sclk⟩
  obtain ⟨j, hj⟩ := List.mem_iff_getElem?.mp hc
  rw [State.latchAt_chips, List.getElem?_modify] at hj
  obtain ⟨c', hc', rfl⟩ := Option.map_eq_some_iff.mp hj
  have hwf : c'.Wf := h.chips c' (List.mem_of_getElem? hc')
  split
  · exact hwf.latch op data
  · exact hwf

theorem Stored.atReset {s : State} (h : Stored s) : Stored s.atReset := by
  refine ⟨h.shadow, h.shadowSpace, fun c hc => ?_, by simpa using h.path, rfl⟩
  obtain ⟨-, -, rfl⟩ := List.mem_map.mp hc
  exact Chip.wf_nil false

theorem Stored.wireOp {s t : State} (h : Stored s) {op : WireOp} (hop : s.wireOp op = some t) : Stored t := by
  cases op with
  | acquire =>
    simp only [State.wireOp] at hop
    split at hop <;> cases hop
    exact ⟨h.shadow, h.shadowSpace, h.chips, h.path, h.sclk⟩
  | csLow => cases hop; exact ⟨h.shadow, h.shadowSpace, h.chips, h.path, h.sclk⟩
  | byte b =>
    have hpath := shiftIn_length h.path b
    simp only [State.wireOp] at hop
    split at hop
    · cases hop; exact ⟨h.shadow, h.shadowSpace, h.chips, hpath, rfl⟩
    · split at hop <;> cases hop
      exact ⟨h.shadow, h.shadowSpace, h.chips, hpath, h.sclk⟩
  | csHigh =>
    cases hop
    refine ⟨h.shadow, h.shadowSpace, latchChips_wf h.chips s.chain, ?_, h.sclk⟩
    exact h.path.trans (congrArg (2 * ·) (latchChips_length s.chips s.chain).symm)
  | release => cases hop; exact ⟨h.shadow, h.shadowSpace, h.chips, h.path, h.sclk⟩

theorem Stored.runWire {s : State} (h : Stored s) (ops : List WireOp) : Stored (s.runWire ops).1 := by
  induction ops generalizing s with
  | nil => exact h
  | cons op ops ih =>
    unfold State.runWire
    split
    · next t ht => exact ih (h.wireOp ht)
    · exact h

/-! ## Lines -/

/-- Chip select released and ownership given back. -/
def State.linesIdle (s : State) : Prop := s.csN = true ∧ s.own = false

/-- Wire operations ended with the lines idle, or stopped where a sequencer may wait; its command and calls do not
matter. -/
def LinesEnd : State × List WireOp → Prop :=
  WireEnds State.linesIdle fun s ops => ∀ cmd cs, Sequencer.wf ⟨cmd, cs, ops⟩ s.cfg s.csN s.own

/-- The rest of a window ends with the lines idle, or stops before a byte with the window open. -/
theorem runWire_window_lines {s : State} {d : Nat} {f : Frame} {sent rest : List Byte} (hb : s.cfg.backend = .block)
    (hd : d < s.cfg.n) (hcs : s.csN = false) (hown : s.own = true) (h : txBytes s.cfg.n d f = sent ++ rest) :
    LinesEnd (s.runWire (rest.map .byte ++ [.csHigh, .release])) := by
  induction rest generalizing s sent with
  | nil => exact .inl ⟨rfl, rfl, rfl⟩
  | cons b bs ih =>
    rw [List.map_cons, List.cons_append, State.runWire]
    split
    · next t ht =>
      have hlines : t.cfg = s.cfg ∧ t.csN = s.csN ∧ t.own = s.own := by
        simp only [State.wireOp, hb] at ht
        split at ht <;> cases ht
        exact ⟨rfl, rfl, rfl⟩
      obtain ⟨hcfg, hcs', hown'⟩ := hlines
      rw [← hcfg] at hb hd h
      exact ih hb hd (hcs'.trans hcs) (hown'.trans hown) (sent := sent ++ [b]) (by simpa using h)
    · exact .inr ⟨by simp, fun _ _ => ⟨hb, d, f, hd, .inr ⟨sent, b, bs, h, rfl, hcs, hown⟩⟩⟩

/-- A whole transaction from idle lines. -/
theorem runWire_tx_lines {s : State} {d : Nat} (f : Frame) (hd : d < s.cfg.n) (hs : s.linesIdle) :
    LinesEnd (s.runWire (txOps s.cfg.backend (txBytes s.cfg.n d f))) := by
  cases hb : s.cfg.backend with
  | bitbang =>
    have h := runWire_tx s (txBytes s.cfg.n d f) (.inl hb)
    rw [hb] at h
    rw [h]
    refine .inl ⟨rfl, rfl, ?_⟩
    simpa [State.afterTx, hb] using hs.2
  | block =>
    rw [txOps, State.runWire]
    split
    · next t ht =>
      have hlines : t.cfg = s.cfg ∧ t.own = true := by
        simp only [State.wireOp] at ht
        split at ht <;> cases ht
        exact ⟨rfl, rfl⟩
      obtain ⟨hcfg, hown⟩ := hlines
      rw [← hcfg] at hb hd ⊢
      exact runWire_window_lines (s := { t with csN := false, wire := t.wire ++ opEvents t.cfg.backend .csLow })
        (sent := []) hb hd rfl hown rfl
    · exact .inr ⟨by simp, fun _ _ => ⟨hb, d, f, hd, .inl ⟨rfl, hs⟩⟩⟩

/-- What a sequencer waits for, once it goes on. -/
theorem Sequencer.wf.runWire {s : State} {q : Sequencer} (h : q.wf s.cfg s.csN s.own) : LinesEnd (s.runWire q.wire) := by
  obtain ⟨hb, d, f, hd, ⟨hw, hs⟩ | ⟨sent, b, rest, htx, hw, hcs, hown⟩⟩ := h
  · rw [hw, ← hb]
    exact runWire_tx_lines f hd hs
  · rw [hw]
    exact runWire_window_lines hb hd hcs hown htx

/-! ## Runs -/

/-- Between two calls: storage as it should be, lines idle. -/
def WfCalls (s : State) (_ : List Call) : Prop := Stored s ∧ s.linesIdle

/-- Stopped inside a transaction. -/
def WfStop (cmd : Option Instr) (s : State) (calls : List Call) (ops : List WireOp) : Prop :=
  Stored s ∧ Sequencer.wf ⟨cmd, calls, ops⟩ s.cfg s.csN s.own

theorem LinesEnd.wireEnds {s : State} (hs : Stored s) {ops : List WireOp} (h : LinesEnd (s.runWire ops))
    (cmd : Option Instr) (cs : List Call) : WireEnds (WfCalls · cs) (WfStop cmd · cs ·) (s.runWire ops) :=
  h.imp (fun ⟨hnil, hl⟩ => ⟨hnil, hs.runWire ops, hl⟩) fun ⟨hne, hw⟩ => ⟨hne, hs.runWire ops, hw cmd cs⟩

theorem runCall_wf (cmd : Option Instr) {s : State} {c : Call} {cs : List Call} (h : WfCalls s (c :: cs)) :
    WireEnds (WfCalls · cs) (WfStop cmd · cs ·) (s.runCall c) := by
  obtain ⟨hs, hl⟩ := h
  unfold State.runCall
  rcases beginCall_cases s c with hskip | ⟨t, op, data, -, ht, hb⟩ | ⟨d, r, v, hd, hr, -, -, hb⟩
  · rw [hskip]
    exact .inl ⟨rfl, hs, hl⟩
  · rw [hb]
    exact LinesEnd.wireEnds hs (runWire_tx_lines _ (hasDevice_toNat ht) hl) cmd cs
  · rw [hb]
    exact LinesEnd.wireEnds (hs.putShadow hd hr v) (runWire_tx_lines (s := s.putShadow d r v) _ hd hl) cmd cs

theorem runCalls_wf (cmd : Option Instr) {s : State} {cs : List Call} (h : WfCalls s cs) :
    RunEnds WfCalls (WfStop cmd) (s.runCalls cs) :=
  runCalls_ends (fun _ _ _ => runCall_wf cmd) h

/-! ## The states -/

theorem State.wf_iff (s : State) :
    s.Wf ↔ Stored s ∧ (s.seq = none → s.linesIdle) ∧ ∀ q, s.seq = some q → q.wf s.cfg s.csN s.own := by
  refine ⟨fun h => ⟨⟨h.shadow, h.shadowSpace, fun c hc => ⟨h.regs c hc, h.regSpace c hc⟩, h.path, h.sclk⟩, h.idleLines,
    h.waiting⟩, fun ⟨h, hi, hw⟩ => ?_⟩
  exact ⟨h.shadow, h.shadowSpace, fun c hc => (h.chips c hc).1, fun c hc => (h.chips c hc).2, h.path, h.sclk, hi, hw⟩

theorem State.Wf.stored {s : State} (h : s.Wf) : Stored s := ((State.wf_iff s).mp h).1

/-- Storage alone changed: the sequencer and the lines it speaks of are the same. -/
theorem State.Wf.of_stored {s t : State} (h : s.Wf) (ht : Stored t) (hseq : t.seq = s.seq) (hcfg : t.cfg = s.cfg)
    (hcs : t.csN = s.csN) (hown : t.own = s.own) : t.Wf := by
  refine (State.wf_iff t).mpr ⟨ht, ?_, ?_⟩
  · unfold State.linesIdle
    rw [hseq, hcs, hown]
    exact h.idleLines
  · rw [hseq, hcfg, hcs, hown]
    exact h.waiting

theorem RunEnds.wf {cmd : Option Instr} {x : State × List Call × List WireOp} (h : RunEnds WfCalls (WfStop cmd) x) :
    (State.settle cmd x).Wf := by
  obtain ⟨t, cs, ops⟩ := x
  obtain ⟨rfl, rfl, hs, hl⟩ | ⟨hne, hs, hw⟩ := h
  · exact (State.wf_iff _).mpr ⟨⟨hs.shadow, hs.shadowSpace, hs.chips, hs.path, hs.sclk⟩, fun _ => hl, nofun⟩
  · obtain ⟨op, rest, rfl⟩ := List.exists_cons_of_ne_nil hne
    rw [State.settle_waiting]
    refine (State.wf_iff _).mpr ⟨⟨hs.shadow, hs.shadowSpace, hs.chips, hs.path, hs.sclk⟩, nofun, fun q hq => ?_⟩
    cases hq
    exact hw

theorem State.Wf.restart {s : State} (h : s.Wf) : s.restart.Wf :=
  (runCalls_wf none ⟨h.stored.atReset, rfl, rfl⟩).wf

theorem State.Wf.resume {s : State} (h : s.Wf) {q : Sequencer} (hq : s.seq = some q) : (s.resume q).Wf :=
  (((h.waiting q hq).runWire.wireEnds h.stored q.cmd q.calls).runRest fun _ => runCalls_wf q.cmd).wf

theorem State.Wf.popPort {s : State} (h : s.Wf) : s.popPort.Wf :=
  ⟨h.shadow, h.shadowSpace, h.regs, h.regSpace, h.path, h.sclk, h.idleLines, h.waiting⟩

theorem State.Wf.exec_command {s t : State} {i : Instr} (h : s.Wf) (hc : isCommand i = true) (he : exec i s = .next t) :
    t.Wf := by
  obtain ⟨hidle, ⟨d, r, -, rfl⟩ | rfl⟩ := exec_command_next hc he
  · exact ⟨h.shadow, h.shadowSpace, h.regs, h.regSpace, h.path, h.sclk, h.idleLines, h.waiting⟩
  · exact (runCalls_wf (some i) ⟨h.stored, h.idleLines hidle⟩).wf

/-- Settles O56: the reset sequence, a resumption and a command keep well-formed states as runs of calls; a latched frame
changes one chip, and the other steps inputs alone. -/
theorem stepKeepsStatesWellFormed : Obligations.StepKeepsStatesWellFormed := by
  intro s t h hstep
  rcases step_cases hstep with reset | latch | bus | sequencer | command | nobody
  · obtain ⟨-, -, rfl⟩ := reset
    exact h.restart
  · obtain ⟨-, k, f, rest, -, rfl⟩ := latch
    have hpop : Stored (s.popLatch k) :=
      ⟨h.shadow, h.shadowSpace, h.stored.chips, h.path, h.sclk⟩
    exact h.of_stored (hpop.latchAt k (opField f) (dataField f)) rfl rfl rfl rfl
  · obtain ⟨-, -, e, rest, -, rfl⟩ := bus
    cases e <;> exact ⟨h.shadow, h.shadowSpace, h.regs, h.regSpace, h.path, h.sclk, h.idleLines, h.waiting⟩
  · obtain ⟨-, -, -, q, hq, rfl⟩ := sequencer
    exact h.resume hq
  · obtain ⟨-, -, -, -, w, rest, -, ⟨i, hd, he⟩ | ⟨-, rfl⟩⟩ := command
    · exact h.popPort.exec_command (decode_command_isCommand hd) he
    · exact h.popPort
  · obtain ⟨-, -, -, -, -, rfl⟩ := nobody
    exact h

end Sys2Proof.Machine

/-! PROOFS. The transaction log, the command port, `RDATA`, and the state after reset. -/

namespace Sys2Proof.Machine

/-- Settles O10: the law of the log for one transaction, by induction on the transactions. -/
theorem transactionLogListsEveryTransaction : Obligations.TransactionLogListsEveryTransaction :=
  txLog_append_sentWire

/-! ## The command port -/

/-- Settles O41: it is the command's turn, and the word taken is the head of the port. -/
theorem stepRunsTheDecodedCommand : Obligations.StepRunsTheDecodedCommand := by
  intro s w rest i hr hl hb hq hp hd
  have hpop : s.popPort = { s with port := rest } := by rw [State.popPort, hp, List.tail_cons]
  rw [← hpop]
  simp only [step, turn_command hr hl hb hq hp, hd]

/-- Settles O44: a busy block's step latches a frame, hears the bus or resumes the sequencer. -/
theorem busyBlockTakesNoCommand : Obligations.BusyBlockTakesNoCommand := by
  intro s hbusy hr
  obtain ⟨q, hq⟩ := Option.isSome_iff_exists.mp (show s.seq.isSome = true from hbusy)
  rcases hl : s.latches with _ | ⟨⟨k, f⟩, rest⟩
  · rcases hb : s.busEvents with _ | ⟨e, rest⟩
    · refine ⟨s.resume q, ?_, (resume_keeps s q).port⟩
      simp only [step, turn_sequencer hr hl hb hq]
    · refine ⟨s.popBusEvent.applyBusEvent e, ?_, by simp⟩
      simp [step, State.turn, hr, hl, hb]
  · refine ⟨(s.popLatch k).latchAt k (opField f) (dataField f), ?_, rfl⟩
    have hturn : s.turn = .latch k f := by simp [State.turn, hr, hl]
    simp only [step, hturn]
    split
    · next i hd => exact exec_frame hd (s.popLatch k)
    · rfl

/-! ## `RDATA` -/

/-- An instruction that is no command is one latch at the receiving chip. -/
theorem exec_latches {i : Instr} (h : isCommand i = false) (s : State) :
    ∃ op data, exec i s = .next (s.latchAt s.rxChip op data) := by
  cases i <;> first | exact ⟨_, _, rfl⟩ | cases h

theorem exec_rdata {i : Instr} {s t : State} (h : exec i s = .next t) (hg : ∀ d r, i ≠ .getrow d r) :
    t.rdata = s.rdata := by
  cases hc : isCommand i with
  | true =>
    obtain ⟨-, ⟨d, r, rfl, -⟩ | rfl⟩ := exec_command_next hc h
    · exact absurd rfl (hg d r)
    · exact (settle_runCalls_keeps _ s _).rdata
  | false =>
    obtain ⟨op, data, he⟩ := exec_latches hc s
    rw [he] at h
    cases h
    rfl

theorem step_rdata {s t : State} (h : step s = .next t) (hreset : s.turn ≠ .reset)
    (hg : ∀ w d r, s.turn = .command w → decode (.command w) ≠ .ok (.getrow d r)) : t.rdata = s.rdata := by
  rcases step_cases h with reset | latch | bus | sequencer | command | nobody
  · exact absurd (turn_reset reset.1) hreset
  · obtain ⟨-, k, f, rest, -, rfl⟩ := latch
    rfl
  · obtain ⟨-, -, e, rest, -, rfl⟩ := bus
    simp
  · obtain ⟨-, -, -, q, -, rfl⟩ := sequencer
    exact (resume_keeps s q).rdata
  · obtain ⟨hr, hl, hb, hidle, w, rest, hp, ⟨i, hd, he⟩ | ⟨-, rfl⟩⟩ := command
    · have hturn : s.turn = .command w := turn_command hr hl hb hidle hp
      exact (exec_rdata he fun d r e => hg w d r hturn (e ▸ hd)).trans (State.popPort_rdata s)
    · rfl
  · obtain ⟨-, -, -, -, -, rfl⟩ := nobody
    rfl

/-- Settles O45: runs of calls and latched frames leave `RDATA` alone, for instructions and for steps. -/
theorem onlyGetrowWritesRdata : Obligations.OnlyGetrowWritesRdata :=
  ⟨fun _ _ _ => exec_rdata, fun _ _ => step_rdata⟩

/-! ## The state after reset -/

/-- The frames of rule R123 are those of the initialisation transactions. -/
theorem resetWire_eq_sentWire (c : Config) : resetWire c = sentWire c ((List.range c.n).flatMap initTxs) := by
  have hinit : ∀ d, initTxs d = initFrames.map fun f => (d, f) := fun _ => rfl
  simp only [resetWire, sentWire, List.flatMap_assoc, hinit, List.flatMap_map]

theorem afterReset_chips_get {c : Config} {d : Nat} (hd : d < c.n) :
    (State.afterReset c).chips[d]? = some Chip.afterReset :=
  List.getElem?_replicate_of_lt hd

theorem afterReset_chipReg {c : Config} {d : Nat} (hd : d < c.n) (op : Nat) :
    (State.afterReset c).chipReg d op = Chip.afterReset.read op := by
  rw [State.chipReg, afterReset_chips_get hd, Option.bind_some]

theorem Chip.afterReset_row {r : Nat} (hr : r < 8) : Chip.afterReset.read (1 + r) = some 0x00 := by
  have h : ∀ r : Fin 8, Chip.afterReset.read (1 + r) = some 0x00 := by decide
  exact h ⟨r, hr⟩

theorem afterReset_safe {c : Config} {d : Nat} (hd : d < c.n) : (State.afterReset c).safe d := by
  unfold State.safe
  simp only [afterReset_chipReg hd]
  exact ⟨rfl, rfl, rfl, fun r hr => Chip.afterReset_row hr, rfl⟩

/-- Twelve transactions for each device. -/
theorem length_txLog_resetWire (c : Config) : (txLog (resetWire c)).length = 12 * c.n := by
  have hlog := txLog_append_sentWire [] c ((List.range c.n).flatMap initTxs)
  rw [List.nil_append, ← resetWire_eq_sentWire] at hlog
  have hinit : ∀ d, (initTxs d).length = 12 := fun _ => rfl
  have hnil : txLog [] = [] := rfl
  rw [hlog, hnil, List.nil_append, List.length_map, List.length_flatMap]
  simp [hinit, Nat.mul_comm]

/-- Settles O53: the wire is that of the initialisation transactions, and every chip is `Chip.afterReset`. -/
theorem resetStateIsTheResetTable : Obligations.ResetStateIsTheResetTable := by
  intro c
  refine ⟨rfl, fun _ _ => rfl, rfl, rfl, rfl, rfl, rfl, rfl, resetWire_eq_sentWire c, length_txLog_resetWire c,
    List.length_replicate, fun d hd => ⟨afterReset_safe hd, ?_⟩⟩
  rw [afterReset_chipReg hd]
  rfl

/-- Settles O55: every row register and every shadow byte is 0x00. -/
theorem shadowMirrorsTheChipsAfterReset : Obligations.ShadowMirrorsTheChipsAfterReset := by
  intro c
  refine ⟨List.length_replicate, nofun, nofun, fun _ d r hd hr => ?_, nofun⟩
  rw [afterReset_chipReg (c := c) hd, Chip.afterReset_row hr]
  rfl

theorem Chip.afterReset_wf : Chip.afterReset.Wf := ⟨by decide, by decide⟩

/-- Settles O57: empty storage, chips as after reset, and the shift path full of the last transaction's bytes. -/
theorem resetStateIsWellFormed : Obligations.ResetStateIsWellFormed := by
  intro c
  refine (State.wf_iff _).mpr ⟨⟨rfl, nofun, fun chip h => ?_, ?_, rfl⟩, fun _ => ⟨rfl, rfl⟩, nofun⟩
  · rw [List.eq_of_mem_replicate h]
    exact Chip.afterReset_wf
  · simp [State.afterReset, txBytes_length]

end Sys2Proof.Machine

/-! PROOFS. Frames at a chip (rules R40, R51), and SETROW given twice or given no grant (rules R29, R39, R42). -/

namespace Sys2Proof.Machine

/-! ## One latch at one chip -/

theorem Chip.latch_disturbed (c : Chip) {op : Byte} (data : Byte) (ha : assignedOpcode op = true) :
    (c.latch op data).disturbed = c.disturbed := by
  rw [Chip.latch, if_pos ha]
  split <;> rfl

theorem State.latchAt_noop (s : State) (k : Nat) (data : Byte) : s.latchAt k opNoop data = s := by
  have hid : (fun c : Chip => c.latch opNoop data) = id := funext fun c => c.latch_noop data
  rw [State.latchAt, hid, List.modify_id]

theorem State.latchAt_chips_other (s : State) {k m : Nat} (op data : Byte) (h : m ≠ k) :
    (s.latchAt k op data).chips[m]? = s.chips[m]? := by
  rw [State.latchAt_chips, List.getElem?_modify_ne _ _ h.symm]

theorem State.latchAt_disturbed (s : State) (k : Nat) {op : Byte} (data : Byte) (ha : assignedOpcode op = true) :
    ((s.latchAt k op data).chips[k]?).map Chip.disturbed = (s.chips[k]?).map Chip.disturbed := by
  rw [State.latchAt_chips, List.getElem?_modify_eq, Option.map_eq_map, Option.map_map]
  exact congrArg (fun f => Option.map f s.chips[k]?) (funext fun c => c.latch_disturbed data ha)

/-! ## Frames -/

/-- Settles O39: the receiving chip latches a NOOP. -/
theorem noopFrameChangesNothing : Obligations.NoopFrameChangesNothing := fun s data =>
  congrArg Host.Outcome.next (s.latchAt_noop s.rxChip data)

/-- Settles O38: each of the 13 frames is one latch of its opcode at the receiving chip, and the laws of a latch say the
rest. -/
theorem frameWritesTheChipsRegister : Obligations.FrameWritesTheChipsRegister := by
  intro s data p hp
  obtain ⟨op, hop, h0, ha, he⟩ : ∃ op : Byte, op.toNat = p.1 ∧ op ≠ opNoop ∧ assignedOpcode op = true ∧
      exec (p.2 data) s = .next (s.latchAt s.rxChip op data) := by
    refine ⟨BitVec.ofNat 8 p.1, ?_⟩
    simp only [List.mem_cons, List.not_mem_nil, or_false] at hp
    rcases hp with rfl | rfl | rfl | rfl | rfl | rfl | rfl | rfl | rfl | rfl | rfl | rfl | rfl
    all_goals exact ⟨rfl, by decide, by decide, rfl⟩
  refine ⟨_, he, rfl, by simp, fun m => s.latchAt_chips_other op data, s.latchAt_disturbed s.rxChip data ha, fun k j => ?_⟩
  rw [State.chipReg_latchAt _ _ _ _ _ _ (.inr ha)]
  simp only [hop, h0, ne_eq, not_false_eq_true, true_and, eq_comm (a := p.1)]

theorem turn_latch {s : State} {k : Nat} {f : FrameWord} {rest : List (Nat × FrameWord)} (hr : s.resetIn = false)
    (hl : s.latches = (k, f) :: rest) : s.turn = .latch k f := by simp [State.turn, hr, hl]

/-- Settles O42: it is the chip's turn, and the frame taken is the head of the queue. -/
theorem stepRunsTheDecodedFrame : Obligations.StepRunsTheDecodedFrame := by
  intro s k f rest i hr hl hd
  have hpop : s.popLatch k = { s with latches := rest, rxChip := k } := by rw [State.popLatch, hl, List.tail_cons]
  rw [← hpop]
  simp only [step, turn_latch hr hl, hd]

/-! ## SETROW twice -/

/-- Writing the byte a row already holds changes no shadow byte. -/
theorem RowWritten.shadow_same {s t : State} {d r : Nat} {v : Byte} (h : RowWritten s t d r v)
    (hv : s.shadowAt d r = v) (a : Nat) : Memory.read t.shadow a = Memory.read s.shadow a := by
  obtain ⟨hrow, hother, -⟩ := h
  by_cases ha : a = shadowAddr d r
  · subst ha
    exact hrow.trans hv.symm
  · exact hother a ha

/-- Settles O21: the second SETROW writes the byte the row already holds, and both send their transaction. -/
theorem repeatedSetrowIsSentAgain : Obligations.RepeatedSetrowIsSentAgain := by
  intro s d r v hi hf ⟨hd, hr⟩
  obtain ⟨t, hran, hrow, -⟩ := ran_setRow hi hf v ⟨hd, hr⟩
  obtain ⟨u, hran', hw⟩ := ran_setRow hran.idle (hran.sends.busFair hf) v ⟨hran.hasDevice hd, hr⟩
  refine ⟨t, u, hran.perform hi _, hran'.perform hran.idle _, hw.shadow_same hrow, ?_⟩
  rw [(hran.trans hran').sends.wire, txLog_append_sentWire]
  rfl

/-! ## SETROW without a grant -/

theorem beginSetRow_inRange {s : State} {d r : Int} (v : Byte) (h : s.hasDevice d ∧ 0 ≤ r ∧ r ≤ 7) :
    s.beginSetRow d r v = (s.putShadow d.toNat r.toNat v,
      txOps s.cfg.backend (txBytes s.cfg.n d.toNat ⟨rowOpcode r.toNat, v⟩)) := by
  rw [State.beginSetRow, if_pos ((rangeOk_iff s d r).mpr h), transactOps, if_pos ((deviceOk_iff s.cfg d).mpr h.1)]

theorem runWire_noGrant {s : State} (hg : s.bus.grants = some 0) (ops : List WireOp) :
    s.runWire (.acquire :: ops) = (s, .acquire :: ops) := by
  simp [State.runWire, State.wireOp, hg, Credit.take]

/-- With no grant coming, a SETROW in range waits before its first wire event, its shadow byte written (rules R42, R78). -/
theorem exec_setrow_noGrant {s : State} (hi : s.idle) (hb : s.cfg.backend = .block) (hg : s.bus.grants = some 0)
    {d r : Int} (v : Byte) (h : s.hasDevice d ∧ 0 ≤ r ∧ r ≤ 7) :
    exec (.setrow d r v) s = .next { s.putShadow d.toNat r.toNat v with
      seq := some ⟨some (.setrow d r v), [], txOps .block (txBytes s.cfg.n d.toNat ⟨rowOpcode r.toNat, v⟩)⟩ } := by
  have hrun : s.runCalls [.setRow d r v] = (s.putShadow d.toNat r.toNat v, [],
      txOps .block (txBytes s.cfg.n d.toNat ⟨rowOpcode r.toNat, v⟩)) := by
    rw [runCalls_cons, State.beginCall, beginSetRow_inRange v h, hb, State.runRest, txOps,
      runWire_noGrant (s := s.putShadow d.toNat r.toNat v) hg]
  exact (perform_idle _ _ hi).trans (by rw [hrun, txOps, State.settle_waiting])

/-- Settles O47: SETROW stops at the acquire of its transaction, after the shadow write. -/
theorem stalledSetrowIsAheadOfTheChip : Obligations.StalledSetrowIsAheadOfTheChip := by
  intro s d r v hi hb hg h
  exact ⟨_, exec_setrow_noGrant hi hb hg v h, rfl, s.shadowAt_putShadow_same d.toNat r.toNat v,
    fun a ha => s.read_putShadow_other v ha, rfl, rfl, rfl, rfl, rfl⟩

end Sys2Proof.Machine

/-! PROOFS. The encodings (rules R50 to R59): the command map as one table, decoding after encoding in both formats, the
fields a command does not use, and the words and frames that name nothing. -/

namespace Sys2Proof

/-! ## The command map (rule R57) -/

/-- The instruction of a command code, from the fields `F`, `DEV`, `A` and `B` of its word; the last row is code 15. -/
def commandOf (c : Fin 16) (f : Bool) (dev a b : Byte) : Instr :=
  match c.val with
  | 0 => .transact (fieldInt dev) a b
  | 1 => .getrow (fieldInt dev) (fieldInt a)
  | 2 => .setrow (fieldInt dev) (fieldInt a) b
  | 3 => .setpixel (fieldInt dev) (fieldInt a) (fieldInt b) f
  | 4 => .setrowbits (fieldInt dev) (fieldInt a) b
  | 5 => .setcolbits (fieldInt dev) (fieldInt a) b
  | 6 => .setdigit (fieldInt dev) (fieldInt a) (fieldInt b) f
  | 7 => .setchar (fieldInt dev) (fieldInt a) (fieldInt b) f
  | 8 => .cleardev (fieldInt dev)
  | 9 => .clearall
  | 10 => .setshutdown (fieldInt dev) f
  | 11 => .setscanlimit (fieldInt dev) (fieldInt b)
  | 12 => .setintensity (fieldInt dev) (fieldInt b)
  | 13 => .initdev (fieldInt dev)
  | 14 => .startdev (fieldInt dev) (fieldInt b)
  | _ => .drawpixel (fieldInt a) (fieldInt b) (fieldInt dev)

theorem decodeCommand_eq_commandOf {w : CmdWord} (c : Fin 16) (hc : cmdField w = c) (h0 : rsvField w = 0) :
    decodeCommand w = .ok (commandOf c (flagField w) (devField w) (aField w) (bField w)) := by
  rw [decodeCommand, if_pos h0, hc]
  fin_cases c <;> rfl

/-- A word that meets the match of a command code under the mask of rule R57 is that command. -/
theorem decode_of_masked (c : Fin 16) {w : CmdWord} (h : w &&& 0xFB000000 = BitVec.ofNat 32 (c * 2 ^ 27)) :
    decode (.command w) = .ok (commandOf c (flagField w) (devField w) (aField w) (bField w)) :=
  have ⟨hc, h0⟩ := (masked_iff w (by omega)).mp h
  decodeCommand_eq_commandOf c hc h0

/-- A built word is the row of its command code. -/
theorem decode_commandWord {cmd : Nat} (h : cmd < 16) (f : Bool) (dev a b : Byte) :
    decode (.command (commandWord cmd f dev a b)) = .ok (commandOf ⟨cmd, h⟩ f dev a b) := by
  obtain ⟨hc, h0, hdev, ha, hb, hf⟩ := commandWord_fields f dev a b (cmd := cmd) (by omega)
  rw [decode, decodeCommand_eq_commandOf ⟨cmd, h⟩ hc h0, hdev, ha, hb, hf]

/-! ## Decoding after encoding -/

/-- A well-formed command is read back: each integer operand survives its field (rule R56). -/
theorem decode_encode_command {i : Instr} (hw : i.wellFormed = true) (hc : Machine.isCommand i = true) :
    decode (encode i) = .ok i := by
  cases i <;> first
    | exact absurd hc Bool.false_ne_true
    | simp_all [Instr.wellFormed, encode, decode_commandWord, commandOf, fieldInt_intField]

/-- A frame of the opcode map is read back, whatever its data (rules R50, R51). -/
theorem decode_encode_frame {i : Instr} (hc : Machine.isCommand i = false) : decode (encode i) = .ok i := by
  cases i <;> first
    | exact absurd hc.symm Bool.false_ne_true
    | simp only [encode, decode, decodeFrame, frameWord_fields]; rfl

/-- Settles O1: a command is read back through its row of the command map, a frame through its opcode. -/
theorem decodeOfEncodeIsTheInstruction : Obligations.DecodeOfEncodeIsTheInstruction := by
  intro i hw
  cases hc : Machine.isCommand i with
  | true => exact decode_encode_command hw hc
  | false => exact decode_encode_frame hc

/-! ## Match and mask -/

/-- Settles O2: the match under the mask gives the row of the command map, and bit 31 makes the command code 16 or more. -/
theorem commandSelectedByMatchAndMask : Obligations.CommandSelectedByMatchAndMask := by
  intro w dev a b aByte bByte f
  obtain ⟨hcmd, -, hdev, ha, hb, hf⟩ := field_values w
  have eDev : dev = fieldInt (devField w) := congrArg Int.ofNat hdev.symm
  have eA : a = fieldInt (aField w) := congrArg Int.ofNat ha.symm
  have eB : b = fieldInt (bField w) := congrArg Int.ofNat hb.symm
  have eAByte : aByte = aField w := BitVec.eq_of_toNat_eq ((BitVec.toNat_ofNat ..).trans ha.symm)
  have eBByte : bByte = bField w := BitVec.eq_of_toNat_eq ((BitVec.toNat_ofNat ..).trans hb.symm)
  have row (c : Fin 16) (h : w &&& 0xFB000000 = BitVec.ofNat 32 (c * 2 ^ 27)) := decode_of_masked c h
  rw [eDev, eA, eB, eAByte, eBByte, show f = flagField w from hf.symm]
  exact ⟨row 0, row 1, row 2, row 3, row 4, row 5, row 6, row 7, row 8, row 9, row 10, row 11, row 12, row 13, row 14,
    row 15, fun h => decodeCommand_reserved (.inl (by omega))⟩

/-! ## Unused fields (rule R59) -/

/-- `CMD`, `RSV` and the fields a command uses, as a mask (rule R57). -/
def usedMask : Fin 16 → CmdWord :=
  ![0xFBFFFFFF, 0xFBFFFF00, 0xFBFFFFFF, 0xFFFFFFFF, 0xFBFFFFFF, 0xFBFFFFFF, 0xFFFFFFFF, 0xFFFFFFFF,
    0xFBFF0000, 0xFB000000, 0xFFFF0000, 0xFBFF00FF, 0xFBFF00FF, 0xFBFF0000, 0xFBFF00FF, 0xFBFFFFFF]

theorem usedMask_fixed (c : Fin 16) : usedMask c &&& 0xFB000000 = 0xFB000000 := by
  revert c
  decide

theorem flagField_and (w m : CmdWord) : flagField (w &&& m) = (flagField w && flagField m) := BitVec.getLsbD_and ..

theorem devField_and (w m : CmdWord) : devField (w &&& m) = devField w &&& devField m := BitVec.extractLsb'_and ..

theorem aField_and (w m : CmdWord) : aField (w &&& m) = aField w &&& aField m := BitVec.extractLsb'_and ..

theorem bField_and (w m : CmdWord) : bField (w &&& m) = bField w &&& bField m := BitVec.extractLsb'_and ..

/-- Clearing the fields a command does not use leaves its row of the command map as it was. -/
theorem commandOf_usedMask (c : Fin 16) (f : Bool) (dev a b : Byte) :
    commandOf c (f && flagField (usedMask c)) (dev &&& devField (usedMask c)) (a &&& aField (usedMask c))
      (b &&& bField (usedMask c)) = commandOf c f dev a b := by
  have whole (x : Byte) : x &&& 255#8 = x := BitVec.and_allOnes
  fin_cases c <;> simp [commandOf, usedMask, flagField, devField, aField, bField, whole]

/-- A command word means what its used fields alone mean. -/
theorem decode_and_usedMask (c : Fin 16) {w : CmdWord} (h : w &&& 0xFB000000 = BitVec.ofNat 32 (c * 2 ^ 27)) :
    decode (.command (w &&& usedMask c)) = decode (.command w) := by
  have h' : (w &&& usedMask c) &&& 0xFB000000 = BitVec.ofNat 32 (c * 2 ^ 27) := by
    rw [BitVec.and_assoc, usedMask_fixed, h]
  rw [decode_of_masked c h, decode_of_masked c h', flagField_and, devField_and, aField_and, bField_and,
    commandOf_usedMask]

/-- Settles O4: both words mean what their common used fields mean. -/
theorem unusedFieldsHaveNoEffect : Obligations.UnusedFieldsHaveNoEffect := by
  refine ⟨fun p hp w w' hw hused => ?_, by decide, by decide, by decide⟩
  change p ∈ List.ofFn fun c : Fin 16 => (BitVec.ofNat 32 (c * 2 ^ 27), usedMask c) at hp
  obtain ⟨c, rfl⟩ := List.mem_ofFn.mp hp
  have hw' : w' &&& 0xFB000000 = BitVec.ofNat 32 (c * 2 ^ 27) := by
    rw [← usedMask_fixed c, ← BitVec.and_assoc, ← hused, BitVec.and_assoc, usedMask_fixed, hw]
  rw [← decode_and_usedMask c hw, hused, decode_and_usedMask c hw']

/-! ## Frames (rules R50 to R52) -/

/-- Settles O5: a named frame is the encoding of its instruction. -/
theorem frameOpcodeMap : Obligations.FrameOpcodeMap := by
  refine fun op data => ⟨fun p hp hop => ?_, fun h => decodeFrame_unassigned (congrArg _ (frameWord_fields op data).1) h⟩
  obtain ⟨he, hc⟩ : encode (p.2 data) = .frame (BitVec.ofNat 8 p.1 ++ data) ∧
      Machine.isCommand (p.2 data) = false := by
    simp only [List.mem_cons, List.not_mem_nil, or_false] at hp
    rcases hp with rfl | rfl | rfl | rfl | rfl | rfl | rfl | rfl | rfl | rfl | rfl | rfl | rfl | rfl
    all_goals exact ⟨rfl, rfl⟩
  rw [← decode_encode_frame hc, he, ← hop, BitVec.ofNat_toNat, BitVec.setWidth_eq]

/-- Settles O6: each word is one value of the two maps. -/
theorem sampleWordsDecode : Obligations.SampleWordsDecode :=
  ⟨by decide, by decide, by decide, by decide, by decide, by decide⟩

end Sys2Proof

namespace Sys2Proof.Machine

/-! ## The step on a word or a frame that names nothing -/

/-- Settles O3: the word decodes to an error, and the step takes it from the port. -/
theorem reservedWordIsSkipped : Obligations.ReservedWordIsSkipped := by
  intro s w hturn hres
  obtain ⟨hcmd, hrsv, -⟩ := field_values w
  obtain ⟨e, he⟩ : ∃ e, decode (.command w) = .error e := decodeCommand_reserved (by rwa [hcmd, hrsv])
  simp only [step, hturn, he]
  rfl

theorem assignedOpcode_false {op : Byte} (h : op.toNat = 13 ∨ op.toNat = 14 ∨ 16 ≤ op.toNat) :
    assignedOpcode op = false := by
  simp only [assignedOpcode, Bool.or_eq_false_iff, decide_eq_false_iff_not]
  omega

/-- A chip that latches an unassigned opcode is left with no known register (rule R52, U2). -/
theorem Chip.read_latch_unassigned (c : Chip) {op : Byte} (data : Byte) (h : assignedOpcode op = false) (j : Nat) :
    (c.latch op data).read j = none := by
  have h0 : op ≠ opNoop := by
    rintro rfl
    cases h
  rw [Chip.latch, if_neg h0, h]
  rfl

theorem State.chipReg_latchAt_unassigned (s : State) (k : Nat) {op : Byte} (data : Byte)
    (h : assignedOpcode op = false) (j : Nat) : (s.latchAt k op data).chipReg k j = none := by
  rw [State.chipReg, State.latchAt_chips, List.getElem?_modify_eq]
  cases s.chips[k]? with
  | none => rfl
  | some c => exact c.read_latch_unassigned data h j

/-- Settles O40: the frame decodes to an error, and its chip alone latches it. -/
theorem unassignedFrameLeavesTheChipUnknown : Obligations.UnassignedFrameLeavesTheChipUnknown := by
  intro s k f rest hr hl hop
  have hpop : s.popLatch k = { s with latches := rest, rxChip := k } := by rw [State.popLatch, hl, List.tail_cons]
  have hop' : (opField f).toNat = 13 ∨ (opField f).toNat = 14 ∨ 16 ≤ (opField f).toNat := by rwa [opField_toNat]
  have hstep : step s = .next ((s.popLatch k).latchAt k (opField f) (dataField f)) := by
    have hd : decode (.frame f) = .error (.unassignedOpcode (opField f).toNat) := decodeFrame_unassigned rfl hop'
    simp only [step, turn_latch hr hl, hd]
  exact ⟨_, hstep, by rw [hpop]; rfl, State.chipReg_latchAt_unassigned _ k _ (assignedOpcode_false hop'),
    fun _ => State.latchAt_chips_other _ _ _⟩

end Sys2Proof.Machine

/-! PROOFS. The transport (rules R70 to R78): whose turn it is decides what a step answers; one transaction on the wire; a
TRANSACT; what a bus that stops a run costs; and the two backends side by side. -/

namespace Sys2Proof.Machine

/-! ## What a step answers -/

theorem step_reset {s : State} (hi : s.idle) (hr : s.resetIn = true) : step s = .next s.restart := by
  simp [step, turn_reset hr, State.busy, show s.seq = none from hi]

/-- With a name or without, the frame is latched at its chip. -/
theorem step_latch {s : State} {k : Nat} {f : FrameWord} {rest : List (Nat × FrameWord)} (hr : s.resetIn = false)
    (hl : s.latches = (k, f) :: rest) :
    step s = .next ((s.popLatch k).latchAt k (opField f) (dataField f)) := by
  simp only [step, turn_latch hr hl]
  split
  · next i hd => exact exec_frame hd (s.popLatch k)
  · rfl

theorem step_sequencer {s : State} {q : Sequencer} (hr : s.resetIn = false) (hl : s.latches = []) (hb : s.busEvents = [])
    (hq : s.seq = some q) : step s = .next (s.resume q) := by
  simp only [step, turn_sequencer hr hl hb hq]

theorem step_idle {s : State} (hr : s.resetIn = false) (hl : s.latches = []) (hb : s.busEvents = []) (hq : s.idle)
    (hp : s.port = []) : step s = .next s := by
  simp [step, State.turn, hr, hl, hb, show s.seq = none from hq, hp]

/-! ## One transaction on the wire -/

/-- Positions are sent from the far end: the `j`-th frame is that of position `n-1-j` (rule R71). -/
theorem txFrames_get (t : Nat) (f : Frame) {n j : Nat} (hj : j < n) :
    (txFrames t f n)[j]? = some (if n - 1 - j = t then f else Frame.noop) := by
  induction n generalizing j with
  | zero => omega
  | succ n ih =>
    cases j with
    | zero => simp [txFrames]
    | succ j =>
      have hpos : n + 1 - 1 - (j + 1) = n - 1 - j := by omega
      rw [txFrames, List.getElem?_cons_succ, ih (by omega), hpos]

/-- Settles O8: the window of each backend, as it stands in the byte view. -/
theorem transactionByteView : Obligations.TransactionByteView := by
  intro w n t f
  refine ⟨txBytes_length n t f, ?_, ?_⟩ <;> simp [byteView_append_tx, windowView]

/-- Bit 7 first: data, clock up, clock down (rule R74). -/
theorem byteEvents_eq_range (b : Byte) :
    byteEvents b = (List.range 8).flatMap fun i => [.mosi (b.getLsbD (7 - i)), .sclk true, .sclk false] := rfl

/-- Each of the eight bits is one clock pulse. -/
theorem count_pulses_byteEvents (b : Byte) : (byteEvents b).count (.sclk true) = 8 := by
  simp [byteEvents, bitEvents]

theorem count_pulses_bytes (bytes : List Byte) : (bytes.flatMap byteEvents).count (.sclk true) = 8 * bytes.length := by
  induction bytes with
  | nil => rfl
  | cons b bs ih =>
    rw [List.flatMap_cons, List.count_append, count_pulses_byteEvents, ih, List.length_cons]
    omega

theorem count_pulses_txEvents (bytes : List Byte) :
    (txEvents .bitbang bytes).count (.sclk true) = 8 * bytes.length := by
  simp [txEvents_bitbang, count_pulses_bytes]

/-- Settles O9: the events of a byte are those of its bits, each with one rising edge. -/
theorem bitbangSendsEveryBitWithOnePulse : Obligations.BitbangSendsEveryBitWithOnePulse := by
  refine ⟨fun bytes => ?_, fun n t f => ?_⟩
  · rw [txEvents_bitbang, funext byteEvents_eq_range]
    rfl
  · rw [count_pulses_txEvents, txBytes_length]
    omega

/-! ## TRANSACT -/

/-- In range, on a fair bus: one whole transaction (rule R70). -/
theorem exec_transact {s : State} (hi : s.idle) (hf : s.busFair) {t : Int} (op data : Byte) (ht : s.hasDevice t) :
    exec (.transact t op data) s = .next (s.afterTx (txBytes s.cfg.n t.toNat ⟨op, data⟩)) :=
  perform_done hi (runCalls_transact hf op data ht []) hi

/-- Out of range: nothing (rule R72). -/
theorem exec_transact_skip {s : State} (hi : s.idle) {t : Int} (op data : Byte) (ht : ¬ s.hasDevice t) :
    exec (.transact t op data) s = .next s :=
  perform_done hi (runCalls_transact_skip op data ht []) hi

theorem afterTx_txLog (s : State) (n t : Nat) (f : Frame) :
    txLog (s.afterTx (txBytes n t f)).wire = txLog s.wire ++ [txFrames t f n] := txLog_append_tx ..

/-- Settles O7: the frame list by induction on the chain, and the transaction of TRANSACT is that list. -/
theorem framesAreSentFarChipFirst : Obligations.FramesAreSentFarChipFirst := by
  refine ⟨fun n t f => ⟨txFrames_length t f n, fun j => txFrames_get t f⟩, fun s t op data hi hf ht => ?_⟩
  refine ⟨_, _, exec_transact hi hf op data ht, afterTx_txLog .., txFrames_length .., fun j hj => ?_⟩
  have htn : t.toNat < s.cfg.n := hasDevice_toNat ht
  have hpos : s.cfg.n - 1 - j = t.toNat ↔ j = s.cfg.n - 1 - t.toNat := by omega
  simp only [txFrames_get t.toNat ⟨op, data⟩ hj, hpos]
  rfl

theorem txBytes_ne_nil {n : Nat} (hn : 0 < n) (t : Nat) (f : Frame) : txBytes n t f ≠ [] := by
  have hlen := txBytes_length n t f
  intro h
  rw [h, List.length_nil] at hlen
  omega

/-- How the lines rest after a transaction in the BITBANG backend (rules R16, R74). -/
theorem afterTx_lines_bitbang {s : State} (hb : s.cfg.backend = .bitbang) {n : Nat} (hn : 0 < n) (t : Nat) (f : Frame) :
    (s.afterTx (txBytes n t f)).sclk = false ∧ (s.afterTx (txBytes n t f)).own = s.own ∧
      (s.afterTx (txBytes n t f)).mosi = if t = 0 then f.data.getLsbD 0 else false := by
  simp only [State.afterTx, hb, if_neg (txBytes_ne_nil hn t f), txBytes_lastBit n t f s.mosi hn, and_self]

/-- How the lines rest after a transaction in the BLOCK backend (rules R16, R20). -/
theorem afterTx_lines_block {s : State} (hb : s.cfg.backend = .block) (bytes : List Byte) :
    (s.afterTx bytes).own = false ∧ (s.afterTx bytes).sclk = s.sclk ∧ (s.afterTx bytes).mosi = s.mosi := by
  simp only [State.afterTx, hb, and_self]

/-- Settles O12: the closed form of one transaction, field by field. -/
theorem transactSendsOneTransaction : Obligations.TransactSendsOneTransaction := by
  intro s t op data hi hf
  refine ⟨fun ht => ?_, exec_transact_skip hi op data⟩
  have htn : t.toNat < s.cfg.n := hasDevice_toNat ht
  have hzero : t = 0 ↔ t.toNat = 0 := by have := ht.1; omega
  refine ⟨_, exec_transact hi hf op data ht, rfl, afterTx_txLog .., rfl, rfl, rfl, hi, rfl, fun hb => ?_,
    fun hb => afterTx_lines_block hb _, rfl, rfl, rfl, rfl, rfl, rfl, latchChips_length .., fun k hk hne => ?_, ?_, ?_⟩
  · simp only [hzero]
    exact afterTx_lines_bitbang hb (by omega) t.toNat ⟨op, data⟩
  · rw [afterTx_chips s _ _ _ k hk]
    simp [hne]
  · rintro rfl
    rw [afterTx_chips s _ _ _ _ htn]
    simp [show (0 : Byte) = opNoop from rfl, Chip.latch_noop]
  · intro h0 ha hlen j
    rw [afterTx_chipReg s _ _ _ _ j htn (.inr ha)]
    simp [hlen, show op ≠ opNoop from h0, eq_comm]

/-! ## A stop by the bus -/

theorem runWire_noSlot {s : State} (hb : s.cfg.backend = .block) (hs : s.bus.slots = some 0) (b : Byte)
    (ops : List WireOp) : s.runWire (.byte b :: ops) = (s, .byte b :: ops) := by
  simp [State.runWire, State.wireOp, hb, hs, Credit.take]

/-- A sequencer whose first operation has to wait goes nowhere. -/
theorem resume_stuck {s : State} {q : Sequencer} (hq : s.seq = some q) {op : WireOp} {rest : List WireOp}
    (hw : q.wire = op :: rest) (hstuck : s.runWire (op :: rest) = (s, op :: rest)) : s.resume q = s := by
  have hself : q = ⟨q.cmd, q.calls, op :: rest⟩ := by rw [← hw]
  rw [State.resume, State.runRest, hw, hstuck, State.settle_waiting, ← hself, ← hq]

/-- Settles O48: the operation the sequencer waits for is not let happen. -/
theorem stalledBlockStaysAsItIs : Obligations.StalledBlockStaysAsItIs := by
  intro s q hr hl hev hq hb hwait
  have hstay : s.resume q = s := by
    obtain ⟨⟨rest, hw⟩, hg⟩ | ⟨⟨b, rest, hw⟩, hs⟩ := hwait
    · exact resume_stuck hq hw (runWire_noGrant hg rest)
    · exact resume_stuck hq hw (runWire_noSlot hb hs b rest)
  rw [step_sequencer hr hl hev hq, hstay]

theorem settle_seq (cmd : Option Instr) (q : Option Sequencer) (x : State × List Call × List WireOp) :
    State.settle cmd ({ x.1 with seq := q }, x.2) = State.settle cmd x := by
  obtain ⟨s, _ | _, _ | _⟩ := x <;> rfl

/-- `t`, once its bus gives without limit, is `u` or ends in `u` in one step. -/
def State.endsAs (t u : State) : Prop :=
  (t.seq = none → t.openBus = u) ∧ ∀ q, t.seq = some q → step t.openBus = .next u

/-- A run with this rest goes on from where it waits. -/
theorem step_waiting {s : State} (q : Sequencer) (hr : s.resetIn = false) (hl : s.latches = []) (hb : s.busEvents = []) :
    step { s with seq := some q } = .next (State.settle q.cmd (s.runRest q.calls q.wire)) := by
  rw [step_sequencer (s := { s with seq := some q }) hr hl hb rfl, State.resume, runRest_seq, settle_seq]

theorem settle_cases (cmd : Option Instr) (s : State) (calls : List Call) (ops : List WireOp) :
    (calls = [] ∧ ops = []) ∨ State.settle cmd (s, calls, ops) = { s with seq := some ⟨cmd, calls, ops⟩ } := by
  cases ops with
  | cons op ops => exact .inr (State.settle_waiting cmd s calls op ops)
  | nil =>
    cases calls with
    | nil => exact .inl ⟨rfl, rfl⟩
    | cons c cs => exact .inr rfl

/-- A run that ended leaves no more than its bus, and one that stopped ends in one step of the open bus. -/
theorem settle_endsAs (cmd : Option Instr) {x : State × List Call × List WireOp} (hr : x.1.resetIn = false)
    (hl : x.1.latches = []) (hb : x.1.busEvents = []) :
    (State.settle cmd x).endsAs (State.settle cmd (x.1.openBus.runRest x.2.1 x.2.2)) := by
  obtain ⟨s, calls, ops⟩ := x
  obtain ⟨rfl, rfl⟩ | hwait := settle_cases cmd s calls ops
  · exact ⟨fun _ => rfl, nofun⟩
  · rw [hwait]
    exact ⟨nofun, fun _ _ => step_waiting (s := s.openBus) ⟨cmd, calls, ops⟩ hr hl hb⟩

theorem settle_runCalls_endsAs (cmd : Option Instr) {s : State} (cs : List Call) (hr : s.resetIn = false)
    (hl : s.latches = []) (hb : s.busEvents = []) :
    (State.settle cmd (s.runCalls cs)).endsAs (State.settle cmd (s.openBus.runCalls cs)) := by
  have hk := runCalls_keeps s cs
  rw [runCalls_openBus]
  exact settle_endsAs cmd (hk.resetIn.trans hr) (hk.latches.trans hl) (hk.busEvents.trans hb)

/-- An instruction that is no command latches the same two bytes in every state. -/
theorem exec_frame_latches {i : Instr} (h : isCommand i = false) :
    ∃ op data, ∀ s, exec i s = .next (s.latchAt s.rxChip op data) := by
  cases i <;> first | exact ⟨_, _, fun _ => rfl⟩ | cases h

theorem State.endsAs_openBus {t : State} (h : t.idle) : t.endsAs t.openBus :=
  ⟨fun _ => rfl, fun _ hq => nomatch h.symm.trans hq⟩

theorem exec_endsAs {i : Instr} {s t u : State} (hi : s.idle) (hr : s.resetIn = false) (hl : s.latches = [])
    (hb : s.busEvents = []) (ht : exec i s = .next t) (hu : exec i s.openBus = .next u) : t.endsAs u := by
  cases hc : isCommand i with
  | true =>
    by_cases hg : ∃ d r, i = .getrow d r
    · obtain ⟨d, r, rfl⟩ := hg
      obtain ⟨-, rfl⟩ := execGetrow_next ht
      obtain ⟨-, rfl⟩ := execGetrow_next hu
      exact State.endsAs_openBus hi
    · have hcalls := exec_command hc fun d r e => hg ⟨d, r, e⟩
      obtain ⟨-, rfl⟩ := perform_next ((hcalls s).symm.trans ht)
      obtain ⟨-, rfl⟩ := perform_next ((hcalls s.openBus).symm.trans hu)
      exact settle_runCalls_endsAs (some i) _ hr hl hb
  | false =>
    obtain ⟨op, data, he⟩ := exec_frame_latches hc
    cases (he s).symm.trans ht
    cases (he s.openBus).symm.trans hu
    exact State.endsAs_openBus hi

/-- Settles O49: a command and the reset sequence are runs of calls, and the open bus takes nothing else from them. -/
theorem stallThenGrantEndsAsWithoutStall : Obligations.StallThenGrantEndsAsWithoutStall := by
  refine ⟨fun i s t u hi hr hl hb => exec_endsAs hi hr hl hb, fun s t u hi hr hl hb ht hu => ?_⟩
  cases (step_reset hi hr).symm.trans ht
  cases (step_reset (s := s.openBus) hi hr).symm.trans hu
  exact settle_runCalls_endsAs none (s := s.atReset) _ rfl hl hb

/-! ## The two backends side by side (rule R76) -/

theorem BackendRel.n_eq {s t : State} (h : BackendRel s t) : t.cfg.n = s.cfg.n := by rw [h.block]; rfl

theorem BackendRel.deviceOk_eq {s t : State} (h : BackendRel s t) (d : Int) : deviceOk t.cfg d = deviceOk s.cfg d := by
  rw [h.block]; rfl

theorem BackendRel.shadowAt_eq {s t : State} (h : BackendRel s t) (d r : Nat) : t.shadowAt d r = s.shadowAt d r := by
  rw [State.shadowAt, h.shadow, State.shadowAt]

theorem BackendRel.putShadow {s t : State} (h : BackendRel s t) (d r : Nat) (v : Byte) :
    BackendRel (s.putShadow d r v) (t.putShadow d r v) :=
  { h with shadow := by simp [h.shadow] }

theorem BackendRel.putRdata {s t : State} (h : BackendRel s t) (v : Byte) : BackendRel (s.putRdata v) (t.putRdata v) :=
  { h with rdata := rfl }

theorem BackendRel.latchAt {s t : State} (h : BackendRel s t) (k : Nat) (op data : Byte) :
    BackendRel (s.latchAt k op data) (t.latchAt k op data) :=
  { h with chips := by simp [h.chips] }

theorem BackendRel.popLatch {s t : State} (h : BackendRel s t) (k : Nat) : BackendRel (s.popLatch k) (t.popLatch k) :=
  { h with rxChip := rfl, latches := by simp [h.latches] }

theorem BackendRel.popPort {s t : State} (h : BackendRel s t) : BackendRel s.popPort t.popPort :=
  { h with port := by simp [h.port] }

theorem BackendRel.atReset {s t : State} (h : BackendRel s t) : BackendRel s.atReset t.atReset :=
  { h with idle := ⟨rfl, rfl⟩, rdata := rfl, chips := by simp [h.chips], view := rfl, log := rfl, resetIn := rfl }

/-- Each backend sends the bytes of the same frames in its own way, and both views grow alike. -/
theorem BackendRel.afterTx {s t : State} (h : BackendRel s t) (fs : List Frame) :
    BackendRel (s.afterTx (frameBytes fs)) (t.afterTx (frameBytes fs)) :=
  { h with
    chips := by simp only [State.afterTx, h.chips, h.chain]
    chain := by simp only [State.afterTx, h.chips, h.chain]
    view := by simp only [State.afterTx, sharedView_append_tx, h.view]
    log := by simp only [State.afterTx, txLog_append_tx, h.log] }

/-- Two runs of wire operations that end in related states. -/
def BackendRuns (x y : State × List WireOp) : Prop :=
  ∃ s t, x.1.runWire x.2 = (s, []) ∧ y.1.runWire y.2 = (t, []) ∧ BackendRel s t

theorem BackendRel.runs_nil {s t : State} (h : BackendRel s t) : BackendRuns (s, []) (t, []) := ⟨s, t, rfl, rfl, h⟩

theorem BackendRel.transact {s t : State} (h : BackendRel s t) (d : Int) (op data : Byte) :
    BackendRuns (s, transactOps s.cfg d op data) (t, transactOps t.cfg d op data) := by
  unfold transactOps
  rw [h.deviceOk_eq, h.n_eq]
  split
  · exact ⟨_, _, runWire_tx s _ (.inl h.bitbang), runWire_tx t _ (.inr h.fair), h.afterTx _⟩
  · exact h.runs_nil

theorem BackendRel.beginSetRow {s t : State} (h : BackendRel s t) (d r : Int) (v : Byte) :
    BackendRuns (s.beginSetRow d r v) (t.beginSetRow d r v) := by
  unfold State.beginSetRow
  rw [h.deviceOk_eq]
  split
  · exact (h.putShadow d.toNat r.toNat v).transact d _ v
  · exact h.runs_nil

theorem BackendRel.beginCall {s t : State} (h : BackendRel s t) (c : Call) :
    BackendRuns (s.beginCall c) (t.beginCall c) := by
  cases c with
  | transact d op data => exact h.transact d op data
  | setRow d r v => exact h.beginSetRow d r v
  | setPixel d r k on =>
    simp only [State.beginCall, h.deviceOk_eq, h.shadowAt_eq]
    split
    · exact h.beginSetRow d r _
    · exact h.runs_nil

theorem BackendRel.runCalls {s t : State} (h : BackendRel s t) (cs : List Call) :
    ∃ s' t', s.runCalls cs = (s', [], []) ∧ t.runCalls cs = (t', [], []) ∧ BackendRel s' t' := by
  induction cs generalizing s t with
  | nil => exact ⟨s, t, rfl, rfl, h⟩
  | cons c cs ih =>
    obtain ⟨u, v, hu, hv, huv⟩ := h.beginCall c
    rw [runCalls_cons_done hu, runCalls_cons_done hv]
    exact ih huv

/-- Both answer a next state, and these are related again. -/
def BackendAnswers (x y : Host.Outcome State Fault Refusal) : Prop := ∃ s t, x = .next s ∧ y = .next t ∧ BackendRel s t

theorem BackendRel.settle {s t : State} (h : BackendRel s t) (cs : List Call) (cmd : Option Instr) :
    BackendRel (State.settle cmd (s.runCalls cs)) (State.settle cmd (t.runCalls cs)) := by
  obtain ⟨u, v, hu, hv, huv⟩ := h.runCalls cs
  rw [hu, hv]
  exact { huv with idle := ⟨rfl, rfl⟩ }

theorem BackendRel.restart {s t : State} (h : BackendRel s t) : BackendRel s.restart t.restart := by
  have hcalls : resetCalls t.cfg = resetCalls s.cfg := by rw [resetCalls, h.n_eq, resetCalls]
  rw [State.restart, State.restart, hcalls]
  exact h.atReset.settle _ none

/-- The calls of a command do not depend on the backend. -/
theorem commandCalls_backend (c : Config) (b : Backend) (i : Instr) :
    commandCalls { c with backend := b } i = commandCalls c i := by
  cases i <;> rfl

theorem BackendRel.getRow_eq {s t : State} (h : BackendRel s t) (d r : Int) : getRow t d r = getRow s d r := by
  have hoor : t.cfg.getrowOor = s.cfg.getrowOor := by rw [h.block]
  rw [getRow, h.deviceOk_eq, h.shadowAt_eq, hoor, getRow]

theorem BackendRel.exec_answers {s t : State} (h : BackendRel s t) {i : Instr} (hc : isCommand i = true) :
    BackendAnswers (exec i s) (exec i t) := by
  obtain ⟨hs, ht⟩ := h.idle
  by_cases hg : ∃ d r, i = .getrow d r
  · obtain ⟨d, r, rfl⟩ := hg
    refine ⟨_, _, execGetrow_idle hs d r, execGetrow_idle ht d r, ?_⟩
    rw [h.getRow_eq]
    exact h.putRdata _
  · have hcalls := exec_command hc fun d r e => hg ⟨d, r, e⟩
    rw [hcalls, hcalls, h.block, commandCalls_backend]
    exact ⟨_, _, perform_idle i _ hs, perform_idle i _ ht, h.settle _ (some i)⟩

theorem BackendRel.command_answers {s t : State} (h : BackendRel s t) {w : CmdWord} (hs : s.turn = .command w)
    (ht : t.turn = .command w) : BackendAnswers (step s) (step t) := by
  simp only [step, hs, ht]
  cases hd : decode (.command w) with
  | ok i => exact h.popPort.exec_answers (decode_command_isCommand hd)
  | error e => exact ⟨_, _, rfl, rfl, h.popPort⟩

/-- The step lemma of the relation: the same input is taken by both. -/
theorem BackendRel.step_answers {s t : State} (h : BackendRel s t) : BackendAnswers (step s) (step t) := by
  obtain ⟨hs, ht⟩ := h.idle
  obtain ⟨hbs, hbt⟩ := h.noBusEvents
  cases hr : s.resetIn with
  | true => exact ⟨_, _, step_reset hs hr, step_reset ht (h.resetIn.trans hr), h.restart⟩
  | false =>
    have hrt : t.resetIn = false := h.resetIn.trans hr
    cases hl : s.latches with
    | cons x rest =>
      obtain ⟨k, f⟩ := x
      exact ⟨_, _, step_latch hr hl, step_latch hrt (h.latches.trans hl), (h.popLatch k).latchAt k _ _⟩
    | nil =>
      have hlt : t.latches = [] := h.latches.trans hl
      cases hp : s.port with
      | nil => exact ⟨_, _, step_idle hr hl hbs hs hp, step_idle hrt hlt hbt ht (h.port.trans hp), h⟩
      | cons w rest =>
        exact h.command_answers (turn_command hr hl hbs hs hp) (turn_command hrt hlt hbt ht (h.port.trans hp))

theorem run_succ {s t : State} (h : step s = .next t) (k : Nat) :
    Host.Core.run Sys2Proof.core (k + 1) s = Host.Core.run Sys2Proof.core k t := by
  have hcore : Sys2Proof.core.step s = .next t := h
  simp only [Host.Core.run, hcore]

/-- Settles O11: the step lemma, by induction on the number of steps. -/
theorem backendsAgreeOnEveryRun : Obligations.BackendsAgreeOnEveryRun := by
  intro k
  induction k with
  | zero => exact fun s t h => ⟨s, t, rfl, rfl, h⟩
  | succ k ih =>
    intro s t h
    obtain ⟨u, v, hu, hv, huv⟩ := h.step_answers
    obtain ⟨s', t', hs', ht', h'⟩ := ih u v huv
    exact ⟨s', t', (run_succ hu k).trans hs', (run_succ hv k).trans ht', h'⟩

end Sys2Proof.Machine

/-! PROOFS. The SHADOW FILE's ports (rules R90 to R93): GETROW and SETROW, the commands that skip, and that a row keeps its
byte until the next `SetRow` on it. -/

namespace Sys2Proof.Machine

/-! ## The read port -/

/-- Settles O15: GETROW writes what the read port answers in either case. -/
theorem getrowAnswersTheShadowByte : Obligations.GetrowAnswersTheShadowByte := by
  intro s d r hi
  have hexec : exec (.getrow d r) s = .next (s.putRdata (getRow s d r)) := execGetrow_idle hi d r
  refine ⟨fun h => ?_, fun h => ?_⟩
  · rw [hexec, getRow_inRange h]
    rfl
  · rw [hexec, getRow_outOfRange h]
    rfl

/-! ## The write port -/

theorem exec_setrow_skip {s : State} (hi : s.idle) {d r : Int} (v : Byte) (h : ¬ (s.hasDevice d ∧ 0 ≤ r ∧ r ≤ 7)) :
    exec (.setrow d r v) s = .next s :=
  perform_done hi (runCalls_setRow_skip v h []) hi

/-- Settles O16: in range SETROW is one row write that runs to its end, out of range it is no call at all. -/
theorem setrowWritesThrough : Obligations.SetrowWritesThrough := by
  refine fun s d r v hi hf => ⟨fun h => ?_, exec_setrow_skip hi v⟩
  obtain ⟨t, hran, hw⟩ := ran_setRow hi hf v h
  exact ⟨t, hran.perform hi _, hw⟩

/-- Every row after one row was written. -/
theorem RowWritten.shadowAt {s t : State} {d r : Nat} {v : Byte} (h : RowWritten s t d r v) (hr : r < 8) (d' : Nat)
    {r' : Nat} (hr' : r' < 8) : t.shadowAt d' r' = if d' = d ∧ r' = r then v else s.shadowAt d' r' := by
  obtain ⟨hrow, hother, -⟩ := h
  split
  · next e => rw [e.1, e.2, hrow]
  · next hne => exact hother _ fun e => hne (shadowAddr_inj hr' hr e)

/-- Settles O17: the read port answers a row of the shadow in which one row was written. -/
theorem setrowThenGetrowReturnsTheByte : Obligations.SetrowThenGetrowReturnsTheByte := by
  intro s d r d' r' v hi hf h h'
  obtain ⟨t, hran, hw⟩ := ran_setRow hi hf v h
  have hsame : d' = d ∧ r' = r ↔ d'.toNat = d.toNat ∧ r'.toNat = r.toNat := by
    have := h.1.1
    have := h'.1.1
    omega
  refine ⟨t, _, hran.perform hi _, execGetrow_idle hran.idle d' r', ?_⟩
  rw [State.putRdata_rdata, getRow_inRange ⟨hran.hasDevice h'.1, h'.2⟩, hw.shadowAt (by omega) _ (by omega)]
  simp only [hsame]

/-! ## Commands that skip (rules R93, R141) -/

theorem runCalls_of_skips {s : State} {calls : List Call} (h : ∀ cs, s.runCalls (calls ++ cs) = s.runCalls cs) :
    s.runCalls calls = (s, [], []) := by
  have hnil := h []
  rwa [List.append_nil] at hnil

/-- The calls of a command with a bad argument do nothing. -/
theorem runCalls_badArgument {s : State} {i : Instr} (h : badArgument s.cfg i) :
    s.runCalls (commandCalls s.cfg i) = (s, [], []) := by
  cases i with
  | transact t op data => exact runCalls_transact_skip op data h []
  | setrow d r v => exact runCalls_setRow_skip v h []
  | setpixel d r k on => exact runCalls_setPixel_skip on h []
  | setrowbits d r v => exact runCalls_setRow_skip v h []
  | setcolbits d k v => exact runCalls_of_skips (column_skips v h)
  | setdigit d p v dp =>
    simp only [commandCalls, digitCalls, nibbleOk_iff]
    split
    · next hv => exact runCalls_setRow_skip _ (fun x => h ⟨x.1, x.2, hv⟩) []
    · rfl
  | setchar d p code dp => exact runCalls_setRow_skip _ h []
  | cleardev d => exact runCalls_of_skips (clearDevice_skips h)
  | setshutdown d e => exact runCalls_transact_skip _ _ h []
  | setscanlimit d l =>
    simp only [commandCalls, scanLimitCalls, rowOk_iff]
    split
    · next hl => exact runCalls_transact_skip _ _ (fun x => h ⟨x, hl⟩) []
    · rfl
  | setintensity d i =>
    simp only [commandCalls, intensityCalls, nibbleOk_iff]
    split
    · next hv => exact runCalls_transact_skip _ _ (fun x => h ⟨x, hv⟩) []
    · rfl
  | initdev d => exact runCalls_of_skips (initDevice_skips h)
  | startdev d i => exact runCalls_of_skips (startDevice_skips i h)
  | drawpixel x y color =>
    have hskip : drawPixelCalls x y color = [] :=
      if_neg fun ok => h (by simpa only [Bool.and_eq_true, rowOk_iff] using ok)
    rw [commandCalls, hskip]
    rfl
  | _ => exact h.elim

/-- Only commands have arguments to check, and GETROW answers whatever they are. -/
theorem badArgument_command {c : Config} {i : Instr} (h : badArgument c i) :
    isCommand i = true ∧ ∀ d r, i ≠ .getrow d r := by
  cases i <;> first | exact h.elim | exact ⟨rfl, nofun⟩

/-- Settles O20: the command runs its calls, and they do nothing. -/
theorem badArgumentIsASilentNoOp : Obligations.BadArgumentIsASilentNoOp := by
  intro i s hi h
  obtain ⟨hc, hg⟩ := badArgument_command h
  rw [exec_command hc hg]
  exact perform_done hi (runCalls_badArgument h) hi

/-! ## A row without a `SetRow` (rule R92) -/

theorem clearDeviceCalls_sets {d : Int} {call : Call} {dev row : Nat} (h : call ∈ clearDeviceCalls d)
    (hs : call.sets dev row) : d = dev := by
  obtain ⟨r, -, rfl⟩ := List.mem_map.mp h
  exact hs.1

theorem shutdownCalls_not_sets {d : Int} {e : Bool} {call : Call} (h : call ∈ shutdownCalls d e) (dev row : Nat) :
    ¬ call.sets dev row := by
  rw [List.mem_singleton.mp h]
  exact id

theorem scanLimitCalls_not_sets {d limit : Int} {call : Call} (h : call ∈ scanLimitCalls d limit) (dev row : Nat) :
    ¬ call.sets dev row := by
  rw [List.mem_singleton.mp (List.mem_ite_nil_right.mp h).2]
  exact id

theorem intensityCalls_not_sets {d i : Int} {call : Call} (h : call ∈ intensityCalls d i) (dev row : Nat) :
    ¬ call.sets dev row := by
  rw [List.mem_singleton.mp (List.mem_ite_nil_right.mp h).2]
  exact id

/-- Of the calls of `InitDevice` only those of `ClearDevice` write rows (rule R123). -/
theorem initDeviceCalls_sets {d : Int} {call : Call} {dev row : Nat} (h : call ∈ initDeviceCalls d)
    (hs : call.sets dev row) : d = dev := by
  simp only [initDeviceCalls, List.mem_append, List.mem_singleton] at h
  rcases h with (((rfl | h) | rfl) | h) | h
  · exact hs.elim
  · exact absurd hs (scanLimitCalls_not_sets h dev row)
  · exact hs.elim
  · exact clearDeviceCalls_sets h hs
  · exact absurd hs (shutdownCalls_not_sets h dev row)

/-- Of the calls of `StartDevice` only those of `ClearDevice` write rows (rule R124). -/
theorem startDeviceCalls_sets {d i : Int} {call : Call} {dev row : Nat} (h : call ∈ startDeviceCalls d i)
    (hs : call.sets dev row) : d = dev := by
  simp only [startDeviceCalls, List.mem_append] at h
  rcases h with (h | h) | h
  · exact absurd hs (shutdownCalls_not_sets h dev row)
  · exact absurd hs (intensityCalls_not_sets h dev row)
  · exact clearDeviceCalls_sets h hs

/-- A command writes no row but those it is said to make a `SetRow` on. -/
theorem commandCalls_sets {cfg : Config} {i : Instr} {call : Call} {dev row : Nat} (h : call ∈ commandCalls cfg i)
    (hs : call.sets dev row) : setsRow dev row i := by
  cases i with
  | transact t op data => cases List.mem_singleton.mp h; exact hs
  | setrow d r v => cases List.mem_singleton.mp h; exact hs
  | setpixel d r k on => cases List.mem_singleton.mp h; exact hs
  | setrowbits d r v => cases List.mem_singleton.mp h; exact hs
  | setcolbits d k v =>
    obtain ⟨r, -, rfl⟩ := List.mem_map.mp h
    exact hs.1
  | setdigit d p v dp =>
    cases List.mem_singleton.mp (List.mem_ite_nil_right.mp h).2
    exact hs
  | setchar d p code dp => cases List.mem_singleton.mp h; exact hs
  | cleardev d => exact clearDeviceCalls_sets h hs
  | clearall => trivial
  | setshutdown d e => exact shutdownCalls_not_sets h dev row hs
  | setscanlimit d l => exact scanLimitCalls_not_sets h dev row hs
  | setintensity d i => exact intensityCalls_not_sets h dev row hs
  | initdev d => exact initDeviceCalls_sets h hs
  | startdev d i => exact startDeviceCalls_sets h hs
  | drawpixel x y color =>
    cases List.mem_singleton.mp (List.mem_ite_nil_right.mp h).2
    obtain ⟨hdev, hrow⟩ := hs
    exact ⟨by omega, hrow⟩
  | _ => cases h

/-- The configuration and the shadow byte of row `r` of device `d` are the same. -/
structure SameRow (s t : State) (d r : Nat) : Prop where
  cfg : t.cfg = s.cfg
  byte : t.shadowAt d r = s.shadowAt d r

theorem SameRow.trans {s t u : State} {d r : Nat} (h : SameRow s t d r) (h' : SameRow t u d r) : SameRow s u d r :=
  ⟨h'.cfg.trans h.cfg, h'.byte.trans h.byte⟩

theorem settle_shadowAt (cmd : Option Instr) (x : State × List Call × List WireOp) (d r : Nat) :
    (State.settle cmd x).shadowAt d r = x.1.shadowAt d r := by
  rw [State.shadowAt, settle_shadow, State.shadowAt]

/-- An instruction that makes no `SetRow` on a row keeps it, whatever the bus does. -/
theorem exec_sameRow {i : Instr} {s t : State} {d r : Nat} (h : exec i s = .next t) (hr : r < 8) (hi : ¬ setsRow d r i) :
    SameRow s t d r := by
  cases hc : isCommand i with
  | true =>
    refine ⟨exec_command_cfg hc h, ?_⟩
    obtain ⟨-, ⟨d', r', -, rfl⟩ | rfl⟩ := exec_command_next hc h
    · rfl
    · rw [settle_shadowAt]
      exact runCalls_other hr fun call hcall hs => hi (commandCalls_sets hcall hs)
  | false =>
    obtain ⟨op, data, he⟩ := exec_latches hc s
    cases he.symm.trans h
    exact ⟨rfl, rfl⟩

/-- A step that starts no `SetRow` on a row keeps it: one case for each form of a step. -/
theorem step_sameRow {s t : State} {d r : Nat} (h : step s = .next t) (hr : r < 8) (hn : ¬ s.startsSetRow d r) :
    SameRow s t d r := by
  refine ⟨step_cfg h, ?_⟩
  unfold State.startsSetRow at hn
  rcases step_cases h with reset | latch | bus | sequencer | command | nobody
  · rw [turn_reset reset.1] at hn
    exact absurd trivial hn
  · obtain ⟨-, k, f, rest, -, rfl⟩ := latch
    rfl
  · obtain ⟨-, -, e, rest, -, rfl⟩ := bus
    simp [State.shadowAt]
  · obtain ⟨hreset, hl, hb, q, hq, rfl⟩ := sequencer
    rw [turn_sequencer hreset hl hb hq] at hn
    rw [State.resume, settle_shadowAt]
    exact runRest_other hr fun call hcall hs => hn ⟨call, hcall, hs⟩
  · obtain ⟨hreset, hl, hb, hidle, w, rest, hp, ⟨i, hd, he⟩ | ⟨-, rfl⟩⟩ := command
    · rw [turn_command hreset hl hb hidle hp] at hn
      simp only [hd] at hn
      exact (exec_sameRow he hr hn).byte
    · rfl
  · obtain ⟨-, -, -, -, -, rfl⟩ := nobody
    rfl

/-- Settles O19: runs of calls keep the rows that none of their calls writes, and everything else keeps the shadow. -/
theorem onlySetRowChangesARow : Obligations.OnlySetRowChangesARow :=
  ⟨fun _ _ _ _ _ h _ hr hi => (exec_sameRow h hr hi).byte, fun _ _ _ _ h _ hr hn => (step_sameRow h hr hn).byte⟩

/-! ## The byte of a SETROW until the next `SetRow` (rule R92) -/

theorem execAll_cons_next {i : Instr} {is : List Instr} {s u : State} (h : execAll (i :: is) s = .next u) :
    ∃ t, exec i s = .next t ∧ execAll is t = .next u := by
  rw [execAll] at h
  split at h
  · next t ht => exact ⟨t, ht, h⟩
  all_goals cases h

theorem run_succ_next {k : Nat} {s u : State} (h : Host.Core.run Sys2Proof.core (k + 1) s = .next u) :
    ∃ t, step s = .next t ∧ Host.Core.run Sys2Proof.core k t = .next u := by
  simp only [Host.Core.run] at h
  split at h
  · next t ht => exact ⟨t, ht, h⟩
  all_goals cases h

theorem execAll_sameRow {is : List Instr} {s u : State} {d r : Nat} (h : execAll is s = .next u) (hr : r < 8)
    (his : ∀ i, i ∈ is → ¬ setsRow d r i) : SameRow s u d r := by
  induction is generalizing s with
  | nil => cases h; exact ⟨rfl, rfl⟩
  | cons i is ih =>
    obtain ⟨hi, his⟩ := List.forall_mem_cons.mp his
    obtain ⟨t, ht, h⟩ := execAll_cons_next h
    exact (exec_sameRow ht hr hi).trans (ih h his)

theorem run_sameRow {k : Nat} {s u : State} {d r : Nat} (h : Host.Core.run Sys2Proof.core k s = .next u) (hr : r < 8)
    (hk : ∀ (j : Nat) (m : State), j < k → Host.Core.run Sys2Proof.core j s = .next m → ¬ m.startsSetRow d r) :
    SameRow s u d r := by
  induction k generalizing s with
  | zero => cases h; exact ⟨rfl, rfl⟩
  | succ k ih =>
    obtain ⟨t, ht, h⟩ := run_succ_next h
    have hstep : SameRow s t d r := step_sameRow ht hr (hk 0 s k.succ_pos rfl)
    exact hstep.trans (ih h fun j m hj hm => hk (j + 1) m (Nat.succ_lt_succ hj) ((run_succ ht j).trans hm))

/-- SETROW has written its byte when it answers, stopped by the bus or not (rule R42). -/
theorem exec_setrow_byte {s t : State} {d r : Int} {v : Byte} (hin : s.hasDevice d ∧ 0 ≤ r ∧ r ≤ 7)
    (h : exec (.setrow d r v) s = .next t) : t.shadowAt d.toNat r.toNat = v := by
  obtain ⟨-, rfl⟩ := perform_next h
  rw [settle_shadowAt, runCalls_cons, State.beginCall, beginSetRow_inRange v hin, runRest_other (cs := []) (by omega) nofun,
    State.shadowAt_putShadow_same]

/-- GETROW answers the byte of an earlier SETROW if its row was kept since. -/
theorem getrow_of_sameRow {s t u : State} {d r : Int} {v : Byte} (hin : s.hasDevice d ∧ 0 ≤ r ∧ r ≤ 7)
    (h : exec (.setrow d r v) s = .next t) (hsame : SameRow t u d.toNat r.toNat) (hu : u.idle) :
    ∃ w, exec (.getrow d r) u = .next w ∧ w.rdata = v := by
  have hcfg : u.cfg = s.cfg := hsame.cfg.trans (exec_command_cfg rfl h)
  have hdev : u.hasDevice d := by
    unfold State.hasDevice
    rw [hcfg]
    exact hin.1
  refine ⟨_, execGetrow_idle hu d r, ?_⟩
  rw [State.putRdata_rdata, getRow_inRange ⟨hdev, hin.2⟩, hsame.byte, exec_setrow_byte hin h]

/-- Settles O18: instructions and steps that make no `SetRow` on the row keep it. -/
theorem roundTripUntilTheNextSetRow : Obligations.RoundTripUntilTheNextSetRow := by
  refine ⟨fun s t u d r v is hin h his hn hu => ?_, fun s t u d r v k hin h hrun hn hu => ?_⟩
  · exact getrow_of_sameRow hin h (execAll_sameRow his (by omega) hn) hu
  · exact getrow_of_sameRow hin h (run_sameRow hrun (by omega) hn) hu

end Sys2Proof.Machine

/-! PROOFS. The editing commands (rules R100 to R107, R110): in range each is a run of row writes, out of range a silent
no-op. -/

namespace Sys2Proof.Machine

/-! ## Pixels -/

/-- One `SetPixel` in range: a row write of the edited byte (rule R100). -/
theorem ran_setPixel {s : State} (hi : s.idle) (hf : s.busFair) {d r c : Int} (on : Bool)
    (h : s.hasDevice d ∧ (0 ≤ r ∧ r ≤ 7) ∧ 0 ≤ c ∧ c ≤ 7) :
    ∃ t txs, Ran s [.setPixel d r c on] t txs ∧
      RowWritten s t d.toNat r.toNat (pixelByte (s.shadowAt d.toNat r.toNat) c.toNat on) := by
  have hw := setRow_written hi (pixelByte (s.shadowAt d.toNat r.toNat) c.toNat on) ⟨h.1, h.2.1⟩
  exact ⟨_, _, ⟨fun cs => runCalls_setPixel hf on h cs, hw.2.2⟩, hw⟩

/-- Settles O22: in range one row write of the edited byte, out of range a bad argument. -/
theorem setpixelChangesOneBit : Obligations.SetpixelChangesOneBit := by
  refine fun s d r c on hi hf => ⟨fun h => ?_, badArgumentIsASilentNoOp (.setpixel d r c on) s hi⟩
  obtain ⟨t, _, hran, hw⟩ := ran_setPixel hi hf on h
  exact ⟨t, _, hran.perform hi _, hw, pixelByte_bits _ on (by omega)⟩

/-- Clearing a pixel after setting it leaves it clear and keeps the other seven bits. -/
theorem pixelByte_on_off_bits (cur : Byte) {c : Nat} (hc : c < 8) :
    (pixelByte (pixelByte cur c true) c false).getLsbD (7 - c) = false ∧
      ∀ j, j < 8 → j ≠ 7 - c → (pixelByte (pixelByte cur c true) c false).getLsbD j = cur.getLsbD j := by
  obtain ⟨-, honRest⟩ := pixelByte_bits cur true hc
  obtain ⟨hoff, hoffRest⟩ := pixelByte_bits (pixelByte cur c true) false hc
  exact ⟨hoff, fun j hj hne => (hoffRest j hj hne).trans (honRest j hj hne)⟩

/-- Settles O23: two row writes, the second of which edits the byte of the first; a byte with the pixel off agrees with
the final one in all eight bits. -/
theorem pixelOnThenOff : Obligations.PixelOnThenOff := by
  intro s d r c hi hf hd hr hc
  obtain ⟨t, _, hran, hrow, -⟩ := ran_setPixel hi hf true ⟨hd, hr, hc⟩
  obtain ⟨u, _, hran', hrow', -⟩ :=
    ran_setPixel hran.idle (hran.sends.busFair hf) false ⟨hran.hasDevice hd, hr, hc⟩
  obtain ⟨hoff, hrest⟩ := pixelByte_on_off_bits (s.shadowAt d.toNat r.toNat) (c := c.toNat) (by omega)
  rw [hrow] at hrow'
  refine ⟨t, u, hran.perform hi _, hran'.perform hran.idle _, ?_⟩
  rw [hrow']
  refine ⟨fun hwas => BitVec.eq_of_getLsbD_eq fun j hj => ?_, hoff, hrest⟩
  by_cases hpix : j = 7 - c.toNat
  · rw [hpix, hoff, hwas]
  · exact hrest j hj hpix

/-- In range `DrawPixel` is a `SetPixel` on device 0 (rule R107). -/
theorem drawPixelCalls_inRange {x y : Int} (color : Int) (h : (0 ≤ x ∧ x ≤ 7) ∧ 0 ≤ y ∧ y ≤ 7) :
    drawPixelCalls x y color = [.setPixel 0 y x (decide (color ≠ 0))] :=
  if_pos (by simpa only [Bool.and_eq_true, rowOk_iff] using h)

/-- Device 0 is there in every configuration, since `N` is at least 1 (rule R3). -/
theorem hasDevice_zero (s : State) : s.hasDevice 0 :=
  hasDevice_ofNat (d := 0) (by have := Config.cast_n s.cfg; omega)

/-- Settles O30: in range the `SetPixel` on device 0 is one row write of the edited byte, out of range the coordinates
are a bad argument. -/
theorem drawpixelEditsDeviceZero : Obligations.DrawpixelEditsDeviceZero := by
  refine fun s x y color hi hf => ⟨fun h => ?_, badArgumentIsASilentNoOp (.drawpixel x y color) s hi⟩
  obtain ⟨t, _, hran, hw⟩ := ran_setPixel hi hf (decide (color ≠ 0)) ⟨hasDevice_zero s, h.2, h.1⟩
  rw [← drawPixelCalls_inRange color h] at hran
  exact ⟨t, _, hran.perform hi _, hw, pixelByte_bits _ _ (by omega)⟩

/-! ## Rows and columns -/

/-- Settles O24: both commands are the one call `SetRow`. -/
theorem setrowbitsOverwritesTheRow : Obligations.SetrowbitsOverwritesTheRow := by
  refine fun s d r v hi hf => ⟨fun h => ?_, badArgumentIsASilentNoOp (.setrowbits d r v) s hi⟩
  obtain ⟨t, hran, hw⟩ := ran_setRow hi hf v h
  exact ⟨t, hran.perform hi _, hran.perform hi _, hw⟩

/-- Settles O25: in range the loop over the rows edits bit `7 - c` of each to its bit of the value. -/
theorem setcolbitsWritesOneColumn : Obligations.SetcolbitsWritesOneColumn := by
  refine fun s d c v hi hf => ⟨fun h => ?_, badArgumentIsASilentNoOp (.setcolbits d c v) s hi⟩
  obtain ⟨t, hran, hrows, honly⟩ := ran_column hi hf v h
  refine ⟨t, hran.perform hi _, fun r hr => ?_, honly, hran.sends⟩
  rw [hrows r hr]
  exact pixelByte_bits _ (columnBit v r) (by omega)

/-! ## Glyphs -/

/-- Within the table the glyph read is the table's entry. -/
theorem getElem?_glyph (c : Config) {i : Nat} (h : i < 128) : c.glyph[i]? = some (c.glyphAt i) := by
  rw [Vector.getElem?_eq_getElem h, Config.glyphAt, Vector.get_eq_getElem]
  simp only [Fin.val_ofNat, Nat.mod_eq_of_lt h]

/-- A code outside 0..127 has the index of the space (rule R104). -/
theorem charIndex_eq (code : Int) : charIndex code = if 0 ≤ code ∧ code ≤ 127 then code.toNat else 32 := by
  simp only [charIndex, codeOk, Bool.and_eq_true, decide_eq_true_eq, spaceCode]

theorem charIndex_lt (code : Int) : charIndex code < 128 := by
  rw [charIndex_eq]
  split <;> omega

/-- For a value in range `SetDigit` is one `SetRow` of the glyph (rule R103). -/
theorem digitCalls_inRange (c : Config) (d p : Int) {value : Int} (dp : Bool) (h : 0 ≤ value ∧ value ≤ 15) :
    digitCalls c d p value dp = [.setRow d p (withPoint dp (c.glyphAt value.toNat))] :=
  if_pos ((nibbleOk_iff value).mpr h)

/-- Settles O26: in range one row write of the digit's glyph, out of range a bad argument. -/
theorem setdigitWritesTheGlyph : Obligations.SetdigitWritesTheGlyph := by
  refine fun s d p value dp hi hf => ⟨fun ⟨hd, hp, hv⟩ => ?_, badArgumentIsASilentNoOp (.setdigit d p value dp) s hi⟩
  obtain ⟨t, hran, hw⟩ := ran_setRow hi hf (withPoint dp (s.cfg.glyphAt value.toNat)) ⟨hd, hp⟩
  rw [← digitCalls_inRange s.cfg d p dp hv] at hran
  exact ⟨t, _, hran.perform hi _, getElem?_glyph s.cfg (by omega), hw⟩

/-- Settles O27: for any code one row write of a glyph of the table; a bad device or position is a bad argument. -/
theorem setcharWritesTheGlyphOrTheSpace : Obligations.SetcharWritesTheGlyphOrTheSpace := by
  refine fun s d p code dp hi hf => ⟨fun h => ?_, badArgumentIsASilentNoOp (.setchar d p code dp) s hi⟩
  obtain ⟨t, hran, hw⟩ := ran_setRow hi hf (withPoint dp (s.cfg.glyphAt (charIndex code))) h
  refine ⟨t, _, hran.perform hi _, ?_, hw⟩
  rw [← charIndex_eq]
  exact getElem?_glyph s.cfg (charIndex_lt code)

/-! ## Clearing -/

/-- Settles O28: in range the loop that clears the rows of one device, out of range a bad argument. -/
theorem cleardevClearsEightRows : Obligations.CleardevClearsEightRows := by
  refine fun s d hi hf => ⟨fun h => ?_, badArgumentIsASilentNoOp (.cleardev d) s hi⟩
  obtain ⟨t, hran, hrows, honly⟩ := ran_clearDevice hi hf h
  exact ⟨t, hran.perform hi _, hrows, honly, hran.sends⟩

/-- Settles O29: the loop over the devices that clears each of them. -/
theorem clearallClearsEveryDevice : Obligations.ClearallClearsEveryDevice := by
  intro s hi hf
  obtain ⟨t, hran, hrows, hrest⟩ := ran_clearAll hi hf
  exact ⟨t, hran.perform hi _, hrows, hrest, hran.sends⟩

end Sys2Proof.Machine

/-! PROOFS. The lifecycle commands (rules R120 to R124): each is its calls, in order, and the chip holds what it was last
sent. Then rule R126: what keeps a device ACTIVE. -/

namespace Sys2Proof.Machine

/-! ## One control register (rules R120 to R122) -/

/-- Settles O31: in range the one transaction of opcode 12, out of range a bad argument. -/
theorem setshutdownSendsOneFrame : Obligations.SetshutdownSendsOneFrame := by
  refine fun s d enabled hi hf => ⟨fun hd => ?_, badArgumentIsASilentNoOp (.setshutdown d enabled) s hi⟩
  obtain ⟨t, hran, hshadow⟩ := ran_transact hi hf hd (op := opShutdown) (shutdownData enabled) (by decide) (by decide)
  exact ⟨t, hran.perform hi _, hshadow, hran.sends⟩

/-- Settles O32: in range the one transaction of opcode 11, out of range a bad argument. -/
theorem setscanlimitSendsTheLimit : Obligations.SetscanlimitSendsTheLimit := by
  refine fun s d limit hi hf => ⟨fun ⟨hd, hl⟩ => ?_, badArgumentIsASilentNoOp (.setscanlimit d limit) s hi⟩
  obtain ⟨t, hran, hshadow⟩ :=
    ran_transact hi hf hd (op := opScanLimit) (BitVec.ofNat 8 limit.toNat) (by decide) (by decide)
  rw [← scanLimitCalls_inRange d hl] at hran
  exact ⟨t, hran.perform hi _, hshadow, hran.sends⟩

/-- Settles O33: in range the one transaction of opcode 10, out of range a bad argument. -/
theorem setintensitySendsTheIntensity : Obligations.SetintensitySendsTheIntensity := by
  refine fun s d i hi hf => ⟨fun ⟨hd, hv⟩ => ?_, badArgumentIsASilentNoOp (.setintensity d i) s hi⟩
  obtain ⟨t, hran, hshadow⟩ :=
    ran_transact hi hf hd (op := opIntensity) (BitVec.ofNat 8 i.toNat) (by decide) (by decide)
  rw [← intensityCalls_inRange d hv] at hran
  exact ⟨t, hran.perform hi _, hshadow, hran.sends⟩

/-! ## What a device was last sent -/

/-- A register that transactions wrote holds the last byte they carried to it. -/
theorem Sends.chipReg_eq {s t : State} {txs : List (Nat × Frame)} (h : Sends s t txs) {d op : Nat} {v : Byte}
    (hd : d < s.cfg.n) (hc : d < s.chips.length) (hv : lastSent txs d op = some v) : t.chipReg d op = some v := by
  rw [h.chips d hd hc, hv]

/-- What one device was last sent depends on the frames and not on which device it is. -/
theorem lastSent_oneDevice (d : Nat) (fs : List Frame) (op : Nat) :
    lastSent (fs.map fun f => (d, f)) d op = lastSent (fs.map fun f => (0, f)) 0 op := by
  induction fs with
  | nil => rfl
  | cons f fs ih => simp only [List.map_cons, lastSent, ih, true_and]

theorem lastSent_initTxs (d op : Nat) : lastSent (initTxs d) d op = lastSent (initTxs 0) 0 op :=
  lastSent_oneDevice d initFrames op

theorem lastSent_clearTxs (d op : Nat) : lastSent (clearTxs d) d op = lastSent (clearTxs 0) 0 op :=
  lastSent_oneDevice d ((List.range 8).map fun r => ⟨BitVec.ofNat 8 (1 + r), 0x00⟩) op

theorem lastSent_initTxs_row (d : Nat) {r : Nat} (hr : r < 8) : lastSent (initTxs d) d (1 + r) = some 0x00 := by
  have hrows : ∀ r : Fin 8, lastSent (initTxs 0) 0 (1 + r) = some 0x00 := by decide
  rw [lastSent_initTxs]
  exact hrows ⟨r, hr⟩

theorem lastSent_clearTxs_row (d : Nat) {r : Nat} (hr : r < 8) : lastSent (clearTxs d) d (1 + r) = some 0x00 := by
  have hrows : ∀ r : Fin 8, lastSent (clearTxs 0) 0 (1 + r) = some 0x00 := by decide
  rw [lastSent_clearTxs]
  exact hrows ⟨r, hr⟩

/-! ## Initialisation and start (rules R123, R124) -/

/-- The initialisation leaves its chip SAFE (rule R126). -/
theorem Sends.safe {s t : State} {d : Nat} (h : Sends s t (initTxs d)) (hd : d < s.cfg.n) (hc : d < s.chips.length) :
    t.safe d := by
  have hreg : ∀ {op : Nat} {v : Byte}, lastSent (initTxs 0) 0 op = some v → t.chipReg d op = some v := fun hv =>
    h.chipReg_eq hd hc ((lastSent_initTxs d _).trans hv)
  exact ⟨hreg rfl, hreg rfl, hreg rfl, fun r hr => h.chipReg_eq hd hc (lastSent_initTxs_row d hr), hreg rfl⟩

/-- Settles O34: in range the twelve calls run to their end and the chip holds what it was last sent, out of range a bad
argument. -/
theorem initdevMakesTheDeviceSafe : Obligations.InitdevMakesTheDeviceSafe := by
  refine fun s d hi hf => ⟨fun hd => ?_, badArgumentIsASilentNoOp (.initdev d) s hi⟩
  obtain ⟨t, hran, hrows, honly⟩ := ran_initDevice hi hf hd
  exact ⟨t, hran.perform hi _, hrows, honly, hran.sends, hran.sends.safe (hasDevice_toNat hd)⟩

/-- The start with an intensity in range leaves its chip at the entry of ACTIVE (rule R126). -/
theorem Sends.entersActive {s t : State} {d : Nat} {i : Int} (h : Sends s t (startTxs d i ++ clearTxs d))
    (hv : 0 ≤ i ∧ i ≤ 15) (hd : d < s.cfg.n) (hc : d < s.chips.length) : t.entersActive d := by
  have hstart : startTxs d i = [⟨12, 0x01⟩, ⟨10, BitVec.ofNat 8 i.toNat⟩].map fun f => (d, f) := by
    rw [startTxs, if_pos hv]
    rfl
  have hcontrol : ∀ {op : Nat} {v : Byte}, lastSent (clearTxs 0) 0 op = none →
      lastSent ([⟨12, 0x01⟩, ⟨10, BitVec.ofNat 8 i.toNat⟩].map fun f => (0, f)) 0 op = some v →
        t.chipReg d op = some v := fun hclear hs => by
    refine h.chipReg_eq hd hc ?_
    rw [lastSent_append, lastSent_clearTxs, hclear, Option.none_or, hstart, lastSent_oneDevice, hs]
  refine ⟨⟨hcontrol rfl rfl, _, ?_, hcontrol rfl rfl⟩, fun r hr => h.chipReg_eq hd hc ?_⟩
  · rw [BitVec.toNat_ofNat]
    omega
  · rw [lastSent_append, lastSent_clearTxs_row d hr, Option.some_or]

/-- Settles O35: in range the calls run to their end and the chip holds what it was last sent, out of range a bad
argument. -/
theorem startdevMakesTheDeviceActive : Obligations.StartdevMakesTheDeviceActive := by
  refine fun s d i hi hf => ⟨fun hd => ?_, badArgumentIsASilentNoOp (.startdev d i) s hi⟩
  obtain ⟨t, hran, hrows, honly⟩ := ran_startDevice hi hf i hd
  exact ⟨t, hran.perform hi _, hrows, honly, hran.sends, fun hv => hran.sends.entersActive hv (hasDevice_toNat hd)⟩

/-! ## The power registers of a chip (rule R126) -/

/-- A frame with this opcode writes INTENSITY or SHUTDOWN of its chip, or leaves them unknown (rule R52). -/
abbrev writesPower (op : Byte) : Prop := op = 10 ∨ op = 12 ∨ assignedOpcode op = false

/-- The call may send such a frame to chip `k`. -/
def Call.touchesPower (k : Nat) : Call → Prop
  | .transact t op _ => t = k ∧ writesPower op
  | .setRow _ _ _ => False
  | .setPixel _ _ _ _ => False

/-- The configuration, and INTENSITY and SHUTDOWN of chip `k`, are the same. -/
structure SamePower (s t : State) (k : Nat) : Prop where
  cfg : t.cfg = s.cfg
  reg : ∀ j, j = 10 ∨ j = 12 → t.chipReg k j = s.chipReg k j

theorem SamePower.refl (s : State) (k : Nat) : SamePower s s k := ⟨rfl, fun _ _ => rfl⟩

theorem SamePower.trans {s t u : State} {k : Nat} (h : SamePower s t k) (h' : SamePower t u k) : SamePower s u k :=
  ⟨h'.cfg.trans h.cfg, fun j hj => (h'.reg j hj).trans (h.reg j hj)⟩

/-- The clauses of ACTIVE that last speak of these two registers alone. -/
theorem SamePower.lit {s t : State} {k : Nat} (h : SamePower s t k) (hs : s.lit k) : t.lit k := by
  unfold State.lit
  rwa [h.reg 12 (.inr rfl), h.reg 10 (.inl rfl)]

theorem Chip.read_latch_power (c : Chip) {op : Byte} (data : Byte) (h : ¬ writesPower op) {j : Nat}
    (hj : j = 10 ∨ j = 12) : (c.latch op data).read j = c.read j := by
  obtain ⟨h10, h12, hassigned⟩ : op ≠ 10 ∧ op ≠ 12 ∧ assignedOpcode op ≠ false := by simpa only [not_or] using h
  have hne : op.toNat ≠ j := by
    rcases hj with rfl | rfl
    · exact fun e => h10 (BitVec.eq_of_toNat_eq e)
    · exact fun e => h12 (BitVec.eq_of_toNat_eq e)
  rw [Chip.read_latch c op data j (.inr (Bool.of_not_eq_false hassigned)), if_neg fun x => hne x.2]

/-- A chip that latches a frame when `p` holds, and then no such frame, keeps the two registers. Both a transaction and a
frame standing alone have this form, with `p` for "this chip is the target". -/
theorem SamePower.of_latch {s t : State} {k : Nat} {p : Prop} [Decidable p] {op data : Byte} (hcfg : t.cfg = s.cfg)
    (hchip : t.chips[k]? = (s.chips[k]?).map fun c => if p then c.latch op data else c) (hop : p → ¬ writesPower op) :
    SamePower s t k := by
  refine ⟨hcfg, fun j hj => ?_⟩
  rw [State.chipReg, hchip, State.chipReg]
  cases s.chips[k]? with
  | none => rfl
  | some c =>
    by_cases hp : p
    · simp only [Option.map_some, if_pos hp, Option.bind_some, c.read_latch_power data (hop hp) hj]
    · simp only [Option.map_some, if_neg hp]

/-! ## Whatever cannot write them keeps them -/

/-- A transaction, stopped or not, keeps the power registers of a chip it does not send such a frame to. -/
theorem runWire_samePower (s : State) {d k : Nat} {f : Frame} (hk : k < s.cfg.n) (hf : k = d → ¬ writesPower f.op) :
    SamePower s (s.runWire (txOps s.cfg.backend (txBytes s.cfg.n d f))).1 k := by
  have hcfg := (runWire_quiet s (txOps s.cfg.backend (txBytes s.cfg.n d f))).cfg
  rcases runWire_whole s d f with ⟨-, htook⟩ | ⟨-, -, hchips, -⟩
  · exact .of_latch hcfg (htook k hk) hf
  · exact ⟨hcfg, fun j _ => by rw [State.chipReg, hchips, State.chipReg]⟩

/-- No row write carries such a frame. -/
theorem rowOpcode_not_writesPower {r : Nat} (hr : r < 8) : ¬ writesPower (BitVec.ofNat 8 (1 + r)) := by
  have hrows : ∀ r : Fin 8, ¬ writesPower (BitVec.ofNat 8 (1 + r)) := by decide
  exact hrows ⟨r, hr⟩

theorem runCall_samePower {s : State} {c : Call} {k : Nat} (hk : k < s.cfg.n) (hc : ¬ c.touchesPower k) :
    SamePower s (s.runCall c).1 k := by
  unfold State.runCall
  rcases beginCall_cases s c with hskip | ⟨t, op, data, rfl, ht, hb⟩ | ⟨d, r, v, -, hr, -, -, hb⟩
  · rw [hskip]
    exact .refl s k
  · rw [hb]
    exact runWire_samePower s hk fun e hop => hc ⟨by have := ht.1; omega, hop⟩
  · rw [hb]
    have hshadow : SamePower s (s.putShadow d r v) k := ⟨rfl, fun _ _ => rfl⟩
    exact hshadow.trans (runWire_samePower (f := ⟨_, v⟩) _ hk fun _ => rowOpcode_not_writesPower hr)

theorem runCalls_samePower {s : State} {cs : List Call} {k : Nat} (hk : k < s.cfg.n)
    (h : ∀ c, c ∈ cs → ¬ c.touchesPower k) : SamePower s (s.runCalls cs).1 k := by
  induction cs generalizing s with
  | nil => exact .refl s k
  | cons c cs ih =>
    obtain ⟨hc, hcs⟩ := List.forall_mem_cons.mp h
    have hcall := runCall_samePower hk hc
    unfold State.runCall at hcall
    simp only [State.runCalls]
    split
    · next t ht =>
      rw [ht] at hcall
      exact hcall.trans (ih (hcall.cfg ▸ hk) hcs)
    · next t op ops ht =>
      rw [ht] at hcall
      exact hcall

/-! ## The instructions that can write them -/

theorem clearDeviceCalls_not_touchesPower {d : Int} {call : Call} (h : call ∈ clearDeviceCalls d) (k : Nat) :
    ¬ call.touchesPower k := by
  obtain ⟨r, -, rfl⟩ := List.mem_map.mp h
  exact id

theorem scanLimitCalls_not_touchesPower {d limit : Int} {call : Call} (h : call ∈ scanLimitCalls d limit) (k : Nat) :
    ¬ call.touchesPower k := by
  rw [List.mem_singleton.mp (List.mem_ite_nil_right.mp h).2]
  exact fun hs => absurd hs.2 (by decide)

theorem shutdownCalls_touchesPower {d : Int} {e : Bool} {call : Call} {k : Nat} (h : call ∈ shutdownCalls d e)
    (hs : call.touchesPower k) : d = k := by
  cases List.mem_singleton.mp h
  exact hs.1

theorem intensityCalls_touchesPower {d i : Int} {call : Call} {k : Nat} (h : call ∈ intensityCalls d i)
    (hs : call.touchesPower k) : d = k := by
  cases List.mem_singleton.mp (List.mem_ite_nil_right.mp h).2
  exact hs.1

theorem initDeviceCalls_touchesPower {d : Int} {call : Call} {k : Nat} (h : call ∈ initDeviceCalls d)
    (hs : call.touchesPower k) : d = k := by
  simp only [initDeviceCalls, List.mem_append, List.mem_singleton] at h
  rcases h with (((rfl | h) | rfl) | h) | h
  · exact hs.1
  · exact absurd hs (scanLimitCalls_not_touchesPower h k)
  · exact hs.1
  · exact absurd hs (clearDeviceCalls_not_touchesPower h k)
  · exact shutdownCalls_touchesPower h hs

theorem startDeviceCalls_touchesPower {d i : Int} {call : Call} {k : Nat} (h : call ∈ startDeviceCalls d i)
    (hs : call.touchesPower k) : d = k := by
  simp only [startDeviceCalls, List.mem_append] at h
  rcases h with (h | h) | h
  · exact shutdownCalls_touchesPower h hs
  · exact intensityCalls_touchesPower h hs
  · exact absurd hs (clearDeviceCalls_not_touchesPower h k)

/-- A command sends such a frame to no chip but one whose power registers it is said to touch. -/
theorem commandCalls_touchesPower {cfg : Config} {i : Instr} {call : Call} {k : Nat} (rx : Nat)
    (h : call ∈ commandCalls cfg i) (hs : call.touchesPower k) : touchesPower k rx i := by
  cases i with
  | transact | setrow | setpixel | setrowbits | setchar =>
    cases List.mem_singleton.mp h
    exact hs
  | setcolbits d c v =>
    obtain ⟨r, -, rfl⟩ := List.mem_map.mp h
    exact hs
  | setdigit | drawpixel =>
    cases List.mem_singleton.mp (List.mem_ite_nil_right.mp h).2
    exact hs
  | cleardev d => exact clearDeviceCalls_not_touchesPower h k hs
  | clearall =>
    obtain ⟨d, -, h⟩ := List.mem_flatMap.mp h
    exact clearDeviceCalls_not_touchesPower h k hs
  | setshutdown d e => exact shutdownCalls_touchesPower h hs
  | setscanlimit d l => exact scanLimitCalls_not_touchesPower h k hs
  | setintensity d i => exact intensityCalls_touchesPower h hs
  | initdev d => exact initDeviceCalls_touchesPower h hs
  | startdev d i => exact startDeviceCalls_touchesPower h hs
  | _ => cases h

/-- A frame instruction is one latch at the receiving chip, and INTENSITY and SHUTDOWN alone touch its power registers. -/
theorem exec_latches_power {i : Instr} (h : isCommand i = false) (s : State) :
    ∃ op data, exec i s = .next (s.latchAt s.rxChip op data) ∧ (writesPower op → touchesPower s.rxChip s.rxChip i) := by
  cases i with
  | intensity data => exact ⟨_, _, rfl, fun _ => rfl⟩
  | shutdown data => exact ⟨_, _, rfl, fun _ => rfl⟩
  | noop | digit0 | digit1 | digit2 | digit3 | digit4 | digit5 | digit6 | digit7 | decodemode | scanlimit | displaytest =>
    exact ⟨_, _, rfl, fun hw => absurd hw (by decide)⟩
  | _ => cases h

/-- An instruction that cannot write the power registers of a chip keeps them, whatever the bus does. -/
theorem exec_samePower {i : Instr} {s t : State} {k : Nat} (hk : k < s.cfg.n) (h : exec i s = .next t)
    (hi : ¬ touchesPower k s.rxChip i) : SamePower s t k := by
  cases hc : isCommand i with
  | true =>
    obtain ⟨-, ⟨d, r, -, rfl⟩ | rfl⟩ := exec_command_next hc h
    · exact ⟨rfl, fun _ _ => rfl⟩
    · have hcalls := runCalls_samePower (cs := commandCalls s.cfg i) hk fun c hcall hs =>
        hi (commandCalls_touchesPower s.rxChip hcall hs)
      exact ⟨exec_command_cfg hc h, fun j hj => (settle_chipReg _ _ k j).trans (hcalls.reg j hj)⟩
  | false =>
    obtain ⟨op, data, he, hop⟩ := exec_latches_power hc s
    cases he.symm.trans h
    refine .of_latch (p := s.rxChip = k) rfl (List.getElem?_modify ..) fun hrx hw => hi ?_
    rw [← hrx]
    exact hop hw

/-- Settles O36: the two registers are as before, so the device is still lit, and it was ACTIVE in the state before. -/
theorem activeOutlastsItsEntry : Obligations.ActiveOutlastsItsEntry := by
  intro i s t past d hd h hi hactive
  exact ⟨(exec_samePower hd h hi).lit hactive.1, .inr hactive⟩

end Sys2Proof.Machine

/-! PROOFS. A command word presented to a busy block (rules R152, R155). -/

namespace Sys2Proof.Machine

/-- GETROW makes no call, so it has a busy check of its own. -/
theorem execGetrow_busy {s : State} (d r : Int) (h : s.busy = true) :
    execGetrow d r s = .refused .overlappingCommand := if_pos h

/-- Settles O43: GETROW checks for a busy block itself, and every other command is `perform` of its calls, which does. -/
theorem commandInABusyBlockIsRefused : Obligations.CommandInABusyBlockIsRefused := by
  intro i s hc hbusy
  by_cases hg : ∃ d r, i = .getrow d r
  · obtain ⟨d, r, rfl⟩ := hg
    exact execGetrow_busy d r hbusy
  · rw [exec_command hc fun d r e => hg ⟨d, r, e⟩]
    exact perform_busy i _ hbusy

end Sys2Proof.Machine

/-! PROOFS. What a transaction leaves outside the block's view (rules R171, R172), the number of transactions of every
command (rule R180), and the reset input (rules R160, R161). -/

namespace Sys2Proof.Machine

/-! ## Chips and shadow out of step (rules R171, R172) -/

/-- The chip at position `j` takes the frame that stands in its own two bytes of the shift path. -/
theorem latchChips_get {bs : List Byte} {j : Nat} {o v : Byte} (hv : bs[2 * j]? = some v) (ho : bs[2 * j + 1]? = some o)
    (cs : List Chip) : (latchChips cs bs)[j]? = (cs[j]?).map fun c => c.latch o v := by
  induction j generalizing bs cs with
  | zero =>
    rcases bs with _ | ⟨a, _ | ⟨b, rest⟩⟩
    · cases hv
    · cases ho
    · cases hv
      cases ho
      cases cs <;> rfl
  | succ j ih =>
    rcases bs with _ | ⟨a, _ | ⟨b, rest⟩⟩
    · simp at hv
    · simp [Nat.mul_add] at hv
    · cases cs with
      | nil => simp [latchChips]
      | cons c cs => simpa [latchChips] using ih (bs := rest) hv ho cs

/-- Settles O13: past chip `N` the shift path is what it was before, and the chips there latch it from its near end. -/
theorem fartherChipsLatchStaleFrames : Obligations.FartherChipsLatchStaleFrames := by
  intro s u t op data j o v hi hf ht he hv ho
  cases (exec_transact hi hf op data ht).symm.trans he
  rw [afterTx_chips_beyond s _ _ _ _ (Nat.le_add_right ..), Nat.add_sub_cancel_left, latchChips_get hv ho,
    List.getElem?_drop]

/-- Settles O14: the transaction writes the chip's register, and the read port answers from the shadow it left alone. -/
theorem rawRowTransactLeavesShadowStale : Obligations.RawRowTransactLeavesShadowStale := by
  intro s d r v hi hf hd hc hr
  have hdev : s.hasDevice d := hasDevice_ofNat hd
  obtain ⟨h0, ha, hop⟩ := rowOpcode_named hr
  refine ⟨_, _, exec_transact hi hf (rowOpcode r) v hdev, ?_, rfl, execGetrow_idle (s := s.afterTx _) hi d r, ?_⟩
  · rw [Int.toNat_natCast, afterTx_chipReg s _ d ⟨rowOpcode r, v⟩ d _ hd (.inr ha), if_pos ⟨rfl, hc, h0, hop⟩]
  · exact getRow_inRange (s := s.afterTx _) (d := d) (r := r) ⟨hdev, by omega⟩

/-! ## Transaction counts (rule R180) -/

/-- The instruction answers a next state whose transaction log is longer by `n`. -/
def State.logsMore (s : State) (i : Instr) (n : Nat) : Prop :=
  ∃ t, exec i s = .next t ∧ (txLog t.wire).length = (txLog s.wire).length + n

theorem Sends.logsMore {s t : State} {i : Instr} {txs : List (Nat × Frame)} (h : Sends s t txs) (he : exec i s = .next t) :
    s.logsMore i txs.length :=
  ⟨t, he, by rw [h.wire, txLog_append_sentWire, List.length_append, List.length_map]⟩

theorem RowWritten.logsMore {s t : State} {i : Instr} {d r : Nat} {v : Byte} (h : RowWritten s t d r v)
    (he : exec i s = .next t) : s.logsMore i 1 :=
  let ⟨_, _, hsends⟩ := h; hsends.logsMore he

/-- An instruction that leaves the wire trace alone sends nothing. -/
theorem State.logsMore.zero {s t : State} {i : Instr} (he : exec i s = .next t) (hw : t.wire = s.wire) : s.logsMore i 0 :=
  ⟨t, he, by rw [hw, Nat.add_zero]⟩

/-- A command that sends `n` transactions in range and skips out of range. -/
theorem State.logsMore.ite {s : State} {i : Instr} {n : Nat} {p : Prop} [Decidable p] (hin : p → s.logsMore i n)
    (hout : ¬ p → exec i s = .next s) : s.logsMore i (if p then n else 0) := by
  split
  · next h => exact hin h
  · next h => exact .zero (hout h) rfl

/-- A frame executed by a chip puts nothing on the wire. -/
theorem frame_logsMore {i : Instr} (h : isCommand i = false) (s : State) : s.logsMore i 0 := by
  obtain ⟨op, data, he⟩ := exec_latches h s
  exact .zero he rfl

theorem transact_logsMore {s : State} (hi : s.idle) (hf : s.busFair) {t : Int} (op data : Byte) (ht : s.hasDevice t) :
    s.logsMore (.transact t op data) 1 :=
  ⟨_, exec_transact hi hf op data ht, by rw [afterTx_txLog, List.length_append, List.length_singleton]⟩

/-- STARTDEV in range: nine transactions, and one more for an intensity in range (rule R124). -/
theorem startdev_logsMore {s : State} (hi : s.idle) (hf : s.busFair) {d : Int} (i : Int) (hd : s.hasDevice d) :
    s.logsMore (.startdev d i) (if 0 ≤ i ∧ i ≤ 15 then 10 else 9) := by
  obtain ⟨t, hran, -⟩ := ran_startDevice hi hf i hd
  have hlen : (startTxs d.toNat i ++ clearTxs d.toNat).length = if 0 ≤ i ∧ i ≤ 15 then 10 else 9 := by
    unfold startTxs
    split <;> rfl
  rw [← hlen]
  exact hran.sends.logsMore (hran.perform hi _)

/-- CLEARALL: eight transactions for each device (rule R106). -/
theorem clearall_logsMore {s : State} (hi : s.idle) (hf : s.busFair) : s.logsMore .clearall (8 * s.cfg.n) := by
  obtain ⟨t, hran, -⟩ := ran_clearAll hi hf
  have hclear : ∀ d, (clearTxs d).length = 8 := fun _ => rfl
  have hlen : ((List.range s.cfg.n).flatMap clearTxs).length = 8 * s.cfg.n := by
    simp [List.length_flatMap, hclear, Nat.mul_comm]
  rw [← hlen]
  exact hran.sends.logsMore (hran.perform hi _)

/-- Settles O37: in range the transactions that the command's own statement lists, out of range a bad argument. -/
theorem transactionCountOfEveryCommand : Obligations.TransactionCountOfEveryCommand := by
  intro i s hi hf
  have hskip : badArgument s.cfg i → exec i s = .next s := badArgumentIsASilentNoOp i s hi
  show s.logsMore i (txCount s.cfg i)
  cases i with
  | transact t op data => exact .ite (transact_logsMore hi hf op data) hskip
  | getrow d r => exact .zero (execGetrow_idle hi d r) rfl
  | setrow d r v =>
    exact .ite (fun h => let ⟨_, he, hw⟩ := (setrowWritesThrough s d r v hi hf).1 h; hw.logsMore he) hskip
  | setpixel d r k on =>
    exact .ite (fun h => let ⟨_, _, he, hw, _⟩ := (setpixelChangesOneBit s d r k on hi hf).1 h; hw.logsMore he) hskip
  | setrowbits d r v =>
    exact .ite (fun h => let ⟨_, he, _, hw⟩ := (setrowbitsOverwritesTheRow s d r v hi hf).1 h; hw.logsMore he) hskip
  | setcolbits d k v =>
    exact .ite (fun h => let ⟨_, he, _, _, hs⟩ := (setcolbitsWritesOneColumn s d k v hi hf).1 h; hs.logsMore he) hskip
  | setdigit d p v dp =>
    exact .ite (fun h => let ⟨_, _, he, _, hw⟩ := (setdigitWritesTheGlyph s d p v dp hi hf).1 h; hw.logsMore he) hskip
  | setchar d p code dp =>
    exact .ite (fun h =>
      let ⟨_, _, he, _, hw⟩ := (setcharWritesTheGlyphOrTheSpace s d p code dp hi hf).1 h; hw.logsMore he) hskip
  | cleardev d =>
    exact .ite (fun h => let ⟨_, he, _, _, hs⟩ := (cleardevClearsEightRows s d hi hf).1 h; hs.logsMore he) hskip
  | clearall => exact clearall_logsMore hi hf
  | setshutdown d e =>
    exact .ite (fun h => let ⟨_, he, _, hs⟩ := (setshutdownSendsOneFrame s d e hi hf).1 h; hs.logsMore he) hskip
  | setscanlimit d l =>
    exact .ite (fun h => let ⟨_, he, _, hs⟩ := (setscanlimitSendsTheLimit s d l hi hf).1 h; hs.logsMore he) hskip
  | setintensity d i =>
    exact .ite (fun h => let ⟨_, he, _, hs⟩ := (setintensitySendsTheIntensity s d i hi hf).1 h; hs.logsMore he) hskip
  | initdev d =>
    exact .ite (fun h => let ⟨_, he, _, _, hs, _⟩ := (initdevMakesTheDeviceSafe s d hi hf).1 h; hs.logsMore he) hskip
  | startdev d i => exact .ite (startdev_logsMore hi hf i) hskip
  | drawpixel x y color =>
    exact .ite (fun h => let ⟨_, _, he, hw, _⟩ := (drawpixelEditsDeviceZero s x y color hi hf).1 h; hw.logsMore he) hskip
  | _ => exact frame_logsMore rfl s

/-! ## Reset while busy (rule R161) -/

/-- Settles O52: it is the reset input's turn, and the block is busy. -/
theorem resetWhileBusyIsRefused : Obligations.ResetWhileBusyIsRefused := by
  intro s hr hbusy
  simp only [step, turn_reset hr, hbusy, if_true]

/-! ## The moment of reset (rule R27, "at reset") -/

theorem State.atReset_chips_get (s : State) {k : Nat} (hk : k < s.chips.length) :
    s.atReset.chips[k]? = some Chip.unknown := by
  rw [State.atReset_chips, List.getElem?_map, List.getElem?_eq_getElem hk, Option.map_some]

/-- No register is known. -/
theorem State.atReset_chipReg (s : State) (k op : Nat) : s.atReset.chipReg k op = none := by
  rw [State.chipReg, State.atReset_chips, List.getElem?_map]
  cases s.chips[k]? <;> rfl

/-! ## A reset sequence without a grant (rules R78, R160) -/

/-- The reset sequence begins with the decode mode of device 0, which every configuration has (rule R3). -/
theorem resetCalls_eq_cons (c : Config) : ∃ cs, resetCalls c = .transact 0 opDecodeMode decodeOffData :: cs := by
  obtain ⟨n, hn⟩ : ∃ n, c.n = n + 1 := ⟨c.n - 1, by have := Config.cast_n c; omega⟩
  rw [resetCalls, hn, List.range_succ_eq_map]
  exact ⟨_, rfl⟩

/-- With no grant coming, the reset sequence waits before its first wire event. -/
theorem restart_noGrant {s : State} (hb : s.cfg.backend = .block) (hg : s.bus.grants = some 0) :
    ∃ q, s.restart = { s.atReset with seq := some q } := by
  obtain ⟨cs, hcs⟩ := resetCalls_eq_cons s.cfg
  have hops : s.atReset.beginCall (.transact 0 opDecodeMode decodeOffData) =
      (s.atReset, txOps .block (txBytes s.cfg.n 0 ⟨opDecodeMode, decodeOffData⟩)) := by
    rw [State.beginCall, transactOps, if_pos ((deviceOk_iff _ 0).mpr (hasDevice_zero s.atReset)), State.atReset_cfg, hb]
    rfl
  rw [State.restart, hcs, runCalls_cons, hops, txOps, State.runRest, runWire_noGrant (s := s.atReset) hg,
    State.settle_waiting]
  exact ⟨_, rfl⟩

/-- Settles O51: the sequence waits in the state at reset, its sequencer apart. -/
theorem stalledResetIsBusyAndUninitialized : Obligations.StalledResetIsBusyAndUninitialized := by
  intro s hi hb hg hr
  obtain ⟨q, hq⟩ := restart_noGrant hb hg
  exact ⟨_, (step_reset hi hr).trans (congrArg _ hq), rfl, rfl, rfl, rfl, rfl, rfl, rfl,
    fun k hk => s.atReset_chips_get hk, List.length_map .., rfl, rfl, rfl, rfl, rfl, rfl, rfl⟩

/-! ## The whole reset sequence (rule R160) -/

/-- The last bit of an initialisation is that of (12, 0x00) or of a no-op frame. -/
theorem lastBit_initTxs (d : Nat) (level : Bool) : lastBit (initTxs d) level = false := by
  rw [initTxs, lastBit_append]
  simp [lastBit]

theorem lastBit_resetTxs (n : Nat) : lastBit ((List.range n).flatMap initTxs) false = false := by
  induction n with
  | zero => rfl
  | succ n _ => rw [List.range_succ, List.flatMap_append, List.flatMap_singleton, lastBit_append, lastBit_initTxs]

/-- Transactions to other devices carry nothing to this one. -/
theorem lastSent_eq_none {txs : List (Nat × Frame)} {k : Nat} (h : ∀ x, x ∈ txs → x.1 ≠ k) (op : Nat) :
    lastSent txs k op = none := by
  induction txs with
  | nil => rfl
  | cons x xs ih =>
    rw [lastSent, ih fun y hy => h y (List.mem_cons_of_mem _ hy)]
    exact if_neg fun hx => h x (List.mem_cons_self ..) hx.1

theorem mem_initTxs {d : Nat} {x : Nat × Frame} (h : x ∈ initTxs d) : x.1 = d := by
  obtain ⟨f, -, rfl⟩ := List.mem_map.mp (show x ∈ initFrames.map fun f => (d, f) from h)
  rfl

/-- What the reset sequence last sends to a device is what the device's own initialisation sends. -/
theorem lastSent_resetTxs {n d : Nat} (hd : d < n) (op : Nat) :
    lastSent ((List.range n).flatMap initTxs) d op = lastSent (initTxs d) d op := by
  induction n with
  | zero => omega
  | succ n ih =>
    rw [List.range_succ, List.flatMap_append, List.flatMap_singleton, lastSent_append]
    by_cases h : d = n
    · subst h
      have hbefore : lastSent ((List.range d).flatMap initTxs) d op = none := lastSent_eq_none (fun x hx => by
        obtain ⟨d', hd', hx⟩ := List.mem_flatMap.mp hx
        rw [mem_initTxs hx]
        exact Nat.ne_of_lt (List.mem_range.mp hd')) op
      rw [hbefore, Option.or_none]
    · have hother : lastSent (initTxs n) d op = none :=
        lastSent_eq_none (fun x hx => by rw [mem_initTxs hx]; exact Ne.symm h) op
      rw [hother, Option.none_or, ih (by omega)]

/-- On a fair bus the reset sequence runs to its end, and every shadow byte of the chain is then clear. -/
theorem restart_sends {s : State} (hf : s.busFair) :
    Sends s.atReset s.restart ((List.range s.cfg.n).flatMap initTxs) ∧
      ∀ d r, d < s.cfg.n → r < 8 → s.restart.shadowAt d r = 0x00 := by
  obtain ⟨t, hran, hrows⟩ := ran_reset (s := s.atReset) rfl hf
  have hrestart : s.restart = t := by
    rw [State.restart, show s.atReset.runCalls (resetCalls s.cfg) = (t, [], []) from hran.done, State.settle_done,
      ← hran.sends.seq]
  rw [hrestart]
  exact ⟨hran.sends, hrows⟩

/-- A device that holds what its own initialisation last sent is SAFE (rule R126). -/
theorem State.safe_of_initTxs {t : State} {d : Nat} (h : ∀ op, t.chipReg d op = lastSent (initTxs d) d op) : t.safe d := by
  simp only [State.safe, h, lastSent_initTxs d]
  exact ⟨rfl, rfl, rfl, fun r hr => lastSent_initTxs_row 0 hr, rfl⟩

/-- A register after the reset sequence holds what the device's own initialisation sent, and is unknown otherwise. -/
theorem restart_chipReg {s : State} (hf : s.busFair) {d : Nat} (hd : d < s.cfg.n) (hc : d < s.chips.length) (op : Nat) :
    s.restart.chipReg d op = lastSent (initTxs d) d op := by
  rw [(restart_sends hf).1.chips d hd (by rwa [State.atReset_chips, List.length_map]), lastSent_resetTxs hd,
    State.atReset_chipReg]
  cases lastSent (initTxs d) d op <;> rfl

/-- Settles O50: the initialisations run to their end from the state at reset, and every chip holds what it was sent. -/
theorem resetSequenceMakesEveryDeviceSafe : Obligations.ResetSequenceMakesEveryDeviceSafe := by
  intro s hi hf hm hr
  obtain ⟨hsends, hrows⟩ := restart_sends hf
  refine ⟨_, step_reset hi hr, hsends.wire, hrows, fun d hd => ?_, hsends.csN.trans (ite_self _),
    hsends.sclk.trans (ite_self _), ?_, hsends.own.trans (ite_self _), ?_, hsends.rdata, hsends.resetIn, hsends.cfg, ?_,
    hsends.port, hsends.latches, hsends.busEvents, hsends.bus, hsends.rxChip⟩
  · have hreg := restart_chipReg hf hd (lt_of_lt_of_eq hd hm.symm)
    refine ⟨State.safe_of_initTxs hreg, ?_⟩
    rw [hreg, lastSent_initTxs]
    rfl
  · rw [hsends.mosi, State.atReset_mosi, lastBit_resetTxs, ite_self]
  · rw [State.busy, hsends.seq]
    rfl
  · rw [hsends.chipCount, State.atReset_chips, List.length_map]

end Sys2Proof.Machine
